-- ==== Sys2Proof/Word.lean ====
section
/-! DEFINITION. The two widths of the machine (00_scope.md R5, R6): a byte is 8 bits, a register, an
immediate and every datum on the bus is a word of 16 bits. Everything that computes with them stands in Decode.lean
and in the files of Machine/. -/

namespace Sys2Proof

/-- A byte: the unit of the address space and of the instruction stream (00_scope.md R5). -/
abbrev Byte := BitVec 8

/-- A word: the width of every register, immediate and data access (00_scope.md R5, 20_memory.md R64). -/
abbrev Word := BitVec 16

end Sys2Proof
end

