-- ==== Sys2Proof/Syntax.lean ====
section
/-! DEFINITION. The syntax of the machine: the twelve registers (10_state.md R20), the 45 instructions by name
(30_encoding.md R97) and the instructions with their operands (R96), one constructor of `Instr` for each row of
spec/opcode_table.json, the unknown opcode (46_halt_and_unknown.md R201) among them. -/

namespace Sys2Proof

/-- The twelve registers, in the order of 10_state.md R20. -/
inductive Reg where
  | ip | acc | r1 | r2 | r3 | r4 | r5 | r6 | r7 | r8 | sp | fp
  deriving DecidableEq, Repr

/-- The names of the 45 instructions (30_encoding.md R97): what an opcode byte stands for. -/
inductive Op where
  | movLitReg | movRegReg | movRegMem | movMemReg | movLitMem | movRegPtrReg | movLitOffReg | addRegReg
  | addLitReg | subRegReg | subLitReg | mulRegReg | mulLitReg | incReg | decReg | andRegLit | andRegReg
  | orRegLit | orRegReg | xorRegLit | xorRegReg | notReg | lsfRegLit | lsfRegReg | rsfRegLit | rsfRegReg
  | jneLit | jneReg | jeqLit | jeqReg | jltLit | jltReg | jgtLit | jgtReg | jleLit | jleReg | jgeLit | jgeReg
  | pshLit | pshReg | pop | calLit | calReg | ret | hlt
  deriving DecidableEq, Repr

/-- An instruction with its operands in stream order (30_encoding.md R96). A RegisterIndex operand is the register
its byte selects, a Literal16 or MemoryAddress16 operand is a word (R91). -/
inductive Instr where
  /-- MOV_LIT_REG, R121. -/
  | movLitReg (lit : Word) (rd : Reg)
  /-- MOV_REG_REG, R122. -/
  | movRegReg (rs : Reg) (rd : Reg)
  /-- MOV_REG_MEM, R123. -/
  | movRegMem (rs : Reg) (addr : Word)
  /-- MOV_MEM_REG, R124. -/
  | movMemReg (addr : Word) (rd : Reg)
  /-- MOV_LIT_MEM, R125. -/
  | movLitMem (lit : Word) (addr : Word)
  /-- MOV_REG_PTR_REG, R126. -/
  | movRegPtrReg (rp : Reg) (rd : Reg)
  /-- MOV_LIT_OFF_REG, R127. -/
  | movLitOffReg (base : Word) (ro : Reg) (rd : Reg)
  /-- ADD_REG_REG, R131. -/
  | addRegReg (ra : Reg) (rb : Reg)
  /-- ADD_LIT_REG, R132. -/
  | addLitReg (lit : Word) (ra : Reg)
  /-- SUB_REG_REG, R133. -/
  | subRegReg (ra : Reg) (rb : Reg)
  /-- SUB_LIT_REG, R134. -/
  | subLitReg (lit : Word) (ra : Reg)
  /-- MUL_REG_REG, R135. -/
  | mulRegReg (ra : Reg) (rb : Reg)
  /-- MUL_LIT_REG, R136. -/
  | mulLitReg (lit : Word) (ra : Reg)
  /-- INC_REG, R137. -/
  | incReg (ra : Reg)
  /-- DEC_REG, R138. -/
  | decReg (ra : Reg)
  /-- AND_REG_LIT, R141. -/
  | andRegLit (ra : Reg) (lit : Word)
  /-- AND_REG_REG, R142. -/
  | andRegReg (ra : Reg) (rb : Reg)
  /-- OR_REG_LIT, R143. -/
  | orRegLit (ra : Reg) (lit : Word)
  /-- OR_REG_REG, R144. -/
  | orRegReg (ra : Reg) (rb : Reg)
  /-- XOR_REG_LIT, R145. -/
  | xorRegLit (ra : Reg) (lit : Word)
  /-- XOR_REG_REG, R146. -/
  | xorRegReg (ra : Reg) (rb : Reg)
  /-- NOT, R147. -/
  | notReg (ra : Reg)
  /-- LSF_REG_LIT, R149. -/
  | lsfRegLit (ra : Reg) (amt : Word)
  /-- LSF_REG_REG, R150. -/
  | lsfRegReg (ra : Reg) (rb : Reg)
  /-- RSF_REG_LIT, R151. -/
  | rsfRegLit (ra : Reg) (amt : Word)
  /-- RSF_REG_REG, R152. -/
  | rsfRegReg (ra : Reg) (rb : Reg)
  /-- JNE_LIT, R161. -/
  | jneLit (val : Word) (target : Word)
  /-- JNE_REG, R162. -/
  | jneReg (ra : Reg) (target : Word)
  /-- JEQ_LIT, R163. -/
  | jeqLit (val : Word) (target : Word)
  /-- JEQ_REG, R164. -/
  | jeqReg (ra : Reg) (target : Word)
  /-- JLT_LIT, R165. -/
  | jltLit (val : Word) (target : Word)
  /-- JLT_REG, R166. -/
  | jltReg (ra : Reg) (target : Word)
  /-- JGT_LIT, R167. -/
  | jgtLit (val : Word) (target : Word)
  /-- JGT_REG, R168. -/
  | jgtReg (ra : Reg) (target : Word)
  /-- JLE_LIT, R169. -/
  | jleLit (val : Word) (target : Word)
  /-- JLE_REG, R170. -/
  | jleReg (ra : Reg) (target : Word)
  /-- JGE_LIT, R171. -/
  | jgeLit (val : Word) (target : Word)
  /-- JGE_REG, R172. -/
  | jgeReg (ra : Reg) (target : Word)
  /-- PSH_LIT, R182. -/
  | pshLit (lit : Word)
  /-- PSH_REG, R183. -/
  | pshReg (ra : Reg)
  /-- POP, R184. -/
  | pop (rd : Reg)
  /-- CAL_LIT, R192. -/
  | calLit (target : Word)
  /-- CAL_REG, R193. -/
  | calReg (ra : Reg)
  /-- RET, R194. -/
  | ret
  /-- HLT, R200. -/
  | hlt
  /-- An opcode byte that the opcode map assigns to no instruction, R201. -/
  | unknownOpcode (opcode : Byte)
  deriving DecidableEq, Repr

end Sys2Proof
end

