-- ==== Sys2Proof/Config.lean ====
section
/-! DEFINITION. What the core leaves to its surroundings: the kinds of device and region the host builds the memory
bus from (20_memory.md R51, R60), the events of the peripherals (R62), the record of the parameters of 00_scope.md R5,
and the free values, which nothing in Lean can evaluate: what a peripheral answers to a read. The values of the
parameters are in Machine/Parameters.lean. -/

namespace Sys2Proof

/-- The opcode byte of each instruction (30_encoding.md R97): "any injective assignment of 45 distinct byte values gives
a conforming machine". -/
abbrev OpcodeMap := List (Op × Byte)

/-- A region of the memory bus (20_memory.md R51): the addresses from `start` to `stop`, both included, delegated to
one device; `remap` says whether the device sees addresses relative to `start` (R55). Devices are named by their place
in the machine's list of devices, so that several regions may name one device. -/
structure Region where
  token : Nat
  device : Nat
  start : Nat
  stop : Nat
  remap : Bool
  deriving DecidableEq, Repr

/-- A device (20_memory.md R60): a RAM of `size` bytes (R61) whose listed bytes are `cells`, at device-local addresses
in the canonical form of Machine/Memory.lean, or a peripheral, of which only its events are known (R62). -/
inductive Device where
  | ram (size : Nat) (cells : List Host.Cell)
  | peripheral
  deriving DecidableEq, Repr

/-- One access to a peripheral: which device, which device-local address, which width, which value (20_memory.md R62 for
writes, 93_implementation_defined.md U17 for reads). -/
inductive Event where
  | read8 (device addr : Nat) (value : Byte)
  | read16 (device addr : Nat) (value : Word)
  | write8 (device addr : Nat) (value : Byte)
  | write16 (device addr : Nat) (value : Word)
  deriving DecidableEq, Repr

/-- The parameters of the hardware (00_scope.md R5). `IMAGE` is the cells of the RAM devices. -/
structure Config where
  /-- `OPCODE_MAP`, D1. -/
  opcodeMap : OpcodeMap
  /-- `SHAMT_BITS`, D6. -/
  shamtBits : Nat
  /-- `ADDR_SPACE`. -/
  addrSpace : Nat
  /-- `RESET`, the registers, D13. -/
  resetReg : Reg → Word
  /-- `RESET`, the counter `sfs`, D13. -/
  resetSfs : Word
  /-- What a RAM byte that is listed nowhere reads as, D29. -/
  unloadedByte : Byte
  /-- The devices the regions name, D14. -/
  devices : List Device
  /-- `REGIONS`, newest first, D14. -/
  regions : List Region

/-- FREE VALUE (notes/assumptions/2.md): the byte a peripheral answers to `getUint8` at a device-local address after the
events so far. 20_memory.md R62: "a read returns any value of the right width". -/
opaque Config.peripheralByte (device : Nat) (history : List Event) (addr : Nat) : Byte

/-- FREE VALUE (notes/assumptions/2.md): the word a peripheral answers to `getUint16` at a device-local address after
the events so far (20_memory.md R62). -/
opaque Config.peripheralWord (device : Nat) (history : List Event) (addr : Nat) : Word

end Sys2Proof
end

