-- ==== Sys2Proof/Machine/Parameters.lean ====
section
/-! DEFINITION. The values this hardware takes for the parameters of 00_scope.md R5. Every one of them is the spec's own
choice (92_eei_decisions.md) or the source's number; they stand here, apart from everything that uses them. -/

namespace Sys2Proof

/-- Family Move of the opcode map (30_encoding.md R97). -/
def moveOpcodes : OpcodeMap :=
  [(.movLitReg, 0x10), (.movRegReg, 0x11), (.movRegMem, 0x12), (.movMemReg, 0x13),
   (.movLitMem, 0x1B), (.movRegPtrReg, 0x1C), (.movLitOffReg, 0x1D)]

/-- Family Arithmetic of the opcode map (30_encoding.md R97). -/
def arithmeticOpcodes : OpcodeMap :=
  [(.addRegReg, 0x14), (.addLitReg, 0x3F), (.subRegReg, 0x1F), (.subLitReg, 0x16),
   (.mulRegReg, 0x21), (.mulLitReg, 0x20)]

/-- Family Increment and decrement of the opcode map (30_encoding.md R97). -/
def incrementOpcodes : OpcodeMap :=
  [(.incReg, 0x35), (.decReg, 0x36)]

/-- Family Bitwise and shift of the opcode map (30_encoding.md R97). -/
def logicShiftOpcodes : OpcodeMap :=
  [(.andRegLit, 0x2E), (.andRegReg, 0x2F), (.orRegLit, 0x30), (.orRegReg, 0x31),
   (.xorRegLit, 0x32), (.xorRegReg, 0x33), (.notReg, 0x34), (.lsfRegLit, 0x26),
   (.lsfRegReg, 0x27), (.rsfRegLit, 0x2A), (.rsfRegReg, 0x2B)]

/-- Family Control flow of the opcode map (30_encoding.md R97). -/
def jumpOpcodes : OpcodeMap :=
  [(.jneLit, 0x15), (.jneReg, 0x40), (.jeqLit, 0x41), (.jeqReg, 0x3E),
   (.jltLit, 0x43), (.jltReg, 0x42), (.jgtLit, 0x45), (.jgtReg, 0x44),
   (.jleLit, 0x47), (.jleReg, 0x46), (.jgeLit, 0x49), (.jgeReg, 0x48)]

/-- Family Stack of the opcode map (30_encoding.md R97). -/
def stackOpcodes : OpcodeMap :=
  [(.pshLit, 0x17), (.pshReg, 0x18), (.pop, 0x1A)]

/-- Family Subroutine of the opcode map (30_encoding.md R97). -/
def subroutineOpcodes : OpcodeMap :=
  [(.calLit, 0x5E), (.calReg, 0x5F), (.ret, 0x60)]

/-- Family Halt of the opcode map (30_encoding.md R97). -/
def haltOpcodes : OpcodeMap :=
  [(.hlt, 0xFF)]

/-- `OPCODE_MAP`: the opcode byte of each instruction (30_encoding.md R97, 92_eei_decisions.md D1). -/
def opcodeMap : OpcodeMap :=
  moveOpcodes ++ arithmeticOpcodes ++ incrementOpcodes ++ logicShiftOpcodes ++ jumpOpcodes ++ stackOpcodes ++
    subroutineOpcodes ++ haltOpcodes


/-- `SHAMT_BITS`: how many low bits of a shift amount count (42_logic_shift.md R148, D6). -/
def shamtBits : Nat := 5

/-- `ADDR_SPACE`: the size of the logical address space of the reference configuration (00_scope.md R5). -/
def addrSpace : Nat := 65536

/-- `RESET`: the value of each register after reset (10_state.md R40, D13). -/
def resetReg : Reg → Word
  | .sp | .fp => 0xFFFE
  | .ip | .acc | .r1 | .r2 | .r3 | .r4 | .r5 | .r6 | .r7 | .r8 => 0

/-- What a RAM byte that is listed nowhere reads as. DESIGN CHOICE, unsafe (notes/assumptions/1.md): the spec calls the
bytes the host did not load a launch parameter (10_state.md R40, D29). -/
def unloadedByte : Byte := 0

/-- The devices of the reference map: one RAM of the whole address space, nothing listed (20_memory.md R72). -/
def referenceDevices : List Device := [.ram addrSpace []]

/-- `REGIONS`: the reference map, device 0 over 0x0000 to 0xFFFF with remap true (20_memory.md R72, D14). -/
def referenceRegions : List Region :=
  [{ token := 0, device := 0, start := 0, stop := addrSpace - 1, remap := true }]

/-- The configuration of this hardware (00_scope.md R5). -/
def config : Config where
  opcodeMap := opcodeMap
  shamtBits := shamtBits
  addrSpace := addrSpace
  resetReg := resetReg
  resetSfs := 0
  unloadedByte := unloadedByte
  devices := referenceDevices
  regions := referenceRegions

end Sys2Proof
end

