-- ==== Sys2Proof/WellFormed.lean ====
section
/-! DEFINITION. Well-formed instructions. A `Reg` is one of the twelve registers and a `Word` has 16 bits, so every
operand of every instruction is legal (30_encoding.md R100: register bytes and literals are unconstrained); the one
thing to check is that the byte of an unknown opcode is one that the opcode map assigns to no instruction (R99). -/

namespace Sys2Proof

/-- `b` is the opcode byte of no instruction of the map (30_encoding.md R99). -/
def OpcodeMap.unassigned (m : OpcodeMap) (b : Byte) : Bool := !(m.map Prod.snd).contains b

/-- The instruction is one that bytes can hold under the opcode map `m`. -/
def Instr.wellFormedIn (m : OpcodeMap) : Instr → Bool
  | .movLitReg _ _ => true
  | .movRegReg _ _ => true
  | .movRegMem _ _ => true
  | .movMemReg _ _ => true
  | .movLitMem _ _ => true
  | .movRegPtrReg _ _ => true
  | .movLitOffReg _ _ _ => true
  | .addRegReg _ _ => true
  | .addLitReg _ _ => true
  | .subRegReg _ _ => true
  | .subLitReg _ _ => true
  | .mulRegReg _ _ => true
  | .mulLitReg _ _ => true
  | .incReg _ => true
  | .decReg _ => true
  | .andRegLit _ _ => true
  | .andRegReg _ _ => true
  | .orRegLit _ _ => true
  | .orRegReg _ _ => true
  | .xorRegLit _ _ => true
  | .xorRegReg _ _ => true
  | .notReg _ => true
  | .lsfRegLit _ _ => true
  | .lsfRegReg _ _ => true
  | .rsfRegLit _ _ => true
  | .rsfRegReg _ _ => true
  | .jneLit _ _ => true
  | .jneReg _ _ => true
  | .jeqLit _ _ => true
  | .jeqReg _ _ => true
  | .jltLit _ _ => true
  | .jltReg _ _ => true
  | .jgtLit _ _ => true
  | .jgtReg _ _ => true
  | .jleLit _ _ => true
  | .jleReg _ _ => true
  | .jgeLit _ _ => true
  | .jgeReg _ _ => true
  | .pshLit _ => true
  | .pshReg _ => true
  | .pop _ => true
  | .calLit _ => true
  | .calReg _ => true
  | .ret => true
  | .hlt => true
  | .unknownOpcode b => m.unassigned b

/-- The instruction is one that bytes can hold under the opcode map of this hardware (30_encoding.md R97). -/
def Instr.wellFormed (i : Instr) : Bool := i.wellFormedIn config.opcodeMap

end Sys2Proof
end

