-- ==== Sys2Proof/Decode.lean ====
section
/-! DEFINITION. The encoding (30_encoding.md): byte order, register bytes, the eight formats, the decoder, which is
total on any bytes that hold the whole instruction and refuses by name only where bytes are missing, and after it the
encoder. -/

namespace Sys2Proof

/-! ## Bytes and words (20_memory.md R57: most significant byte first) -/

/-- Bits 15 to 8 of a word, its byte at the lower address: `v div 256` (20_memory.md R61). -/
def hiByte (w : Word) : Byte := BitVec.ofNat 8 (w.toNat / 256)

/-- Bits 7 to 0 of a word, its byte at the higher address: `v mod 256` (20_memory.md R61). -/
def loByte (w : Word) : Byte := BitVec.ofNat 8 w.toNat

/-- The word whose byte at the lower address is `hi`: `b0 * 256 + b1` (30_encoding.md R91, R92). -/
def wordOfBytes (hi lo : Byte) : Word := BitVec.ofNat 16 (hi.toNat * 256 + lo.toNat)

/-! ## Register bytes -/

/-- The index of a register (10_state.md R20). -/
def Reg.index : Reg → Nat
  | .ip => 0 | .acc => 1 | .r1 => 2 | .r2 => 3 | .r3 => 4 | .r4 => 5
  | .r5 => 6 | .r6 => 7 | .r7 => 8 | .r8 => 9 | .sp => 10 | .fp => 11

/-- The register of an index below 12 (10_state.md R20). -/
def Reg.ofIndex : Nat → Reg
  | 0 => .ip | 1 => .acc | 2 => .r1 | 3 => .r2 | 4 => .r3 | 5 => .r4
  | 6 => .r5 | 7 => .r6 | 8 => .r7 | 9 => .r8 | 10 => .sp | _ => .fp

/-- The register that a RegisterIndex byte selects: the byte modulo 12, never an error (30_encoding.md R93). -/
def regOfByte (b : Byte) : Reg := Reg.ofIndex (b.toNat % 12)

/-- The canonical index byte of a register (10_state.md R20, 30_encoding.md R94). -/
def regByte (r : Reg) : Byte := BitVec.ofNat 8 r.index

/-- The register's offset in the private backing buffer (10_state.md R22); nothing in the machine reads it. -/
def Reg.byteOffset (r : Reg) : Nat := 2 * r.index

/-! ## Formats (30_encoding.md R95) -/

/-- A field of a format: a RegisterIndex byte, or a 16-bit operand (Literal16 or MemoryAddress16). -/
inductive Field where
  | reg | word
  deriving DecidableEq, Repr

/-- How many bytes of the stream a field takes (30_encoding.md R91). -/
def Field.size : Field → Nat
  | .reg => 1
  | .word => 2

/-- The eight formats, named after their fields in stream order. -/
inductive Format where
  | op | opR | opL | opRR | opLR | opRL | opLL | opLRR
  deriving DecidableEq, Repr

/-- The operand fields of a format, in stream order. -/
def Format.fields : Format → List Field
  | .op => []
  | .opR => [.reg]
  | .opL => [.word]
  | .opRR => [.reg, .reg]
  | .opLR => [.word, .reg]
  | .opRL => [.reg, .word]
  | .opLL => [.word, .word]
  | .opLRR => [.word, .reg, .reg]

/-- The length in bytes of an instruction of the format, opcode byte included. -/
def Format.length (f : Format) : Nat := 1 + (f.fields.map Field.size).sum

/-- The format of each instruction (30_encoding.md R96, R97). -/
def Op.format : Op → Format
  | .ret | .hlt => .op
  | .incReg | .decReg | .notReg | .pshReg | .pop | .calReg => .opR
  | .pshLit | .calLit => .opL
  | .movRegReg | .movRegPtrReg | .addRegReg | .subRegReg | .mulRegReg | .andRegReg | .orRegReg | .xorRegReg
  | .lsfRegReg | .rsfRegReg => .opRR
  | .movLitReg | .movMemReg | .addLitReg | .subLitReg | .mulLitReg => .opLR
  | .movRegMem | .andRegLit | .orRegLit | .xorRegLit | .lsfRegLit | .rsfRegLit | .jneReg | .jeqReg | .jltReg
  | .jgtReg | .jleReg | .jgeReg => .opRL
  | .movLitMem | .jneLit | .jeqLit | .jltLit | .jgtLit | .jleLit | .jgeLit => .opLL
  | .movLitOffReg => .opLRR

/-! ## The opcode map, both ways (30_encoding.md R97, R99) -/

/-- The instruction that the map assigns to an opcode byte; none for an unknown opcode. -/
def OpcodeMap.opOf? : OpcodeMap → Byte → Option Op
  | [], _ => none
  | (op, b') :: m, b => if b' = b then some op else OpcodeMap.opOf? m b

/-- The opcode byte that the map assigns to an instruction (0 where the map lacks it, which no valid map does). -/
def OpcodeMap.byteOf : OpcodeMap → Op → Byte
  | [], _ => 0
  | (op', b) :: m, op => if op' = op then b else OpcodeMap.byteOf m op

/-- The fields that follow an opcode byte under the map; none follow an unknown opcode (R99). -/
def OpcodeMap.fieldsOf (m : OpcodeMap) (b : Byte) : List Field :=
  match m.opOf? b with
  | some op => op.format.fields
  | none => []

/-! ## The decoder -/

/-- Why bytes are not decoded: there are none, or fewer than the opcode byte asks for. No byte sequence is illegal
(30_encoding.md R100). -/
inductive DecodeError where
  | empty
  | truncated (opcode : Op)
  deriving DecidableEq, Repr

/-- What the decoder answers: the instruction and the bytes after it. -/
abbrev Decoded := Except DecodeError (Instr × List Byte)

/-- Format OP: no operand byte. -/
def takeOp (k : Instr) (bs : List Byte) : Decoded := .ok (k, bs)

/-- Format OP_R. -/
def takeR (op : Op) (k : Reg → Instr) : List Byte → Decoded
  | r :: bs => .ok (k (regOfByte r), bs)
  | [] => .error (.truncated op)

/-- Format OP_L. -/
def takeL (op : Op) (k : Word → Instr) : List Byte → Decoded
  | h :: l :: bs => .ok (k (wordOfBytes h l), bs)
  | _ => .error (.truncated op)

/-- Format OP_R_R. -/
def takeRR (op : Op) (k : Reg → Reg → Instr) : List Byte → Decoded
  | r :: r' :: bs => .ok (k (regOfByte r) (regOfByte r'), bs)
  | _ => .error (.truncated op)

/-- Format OP_L_R. -/
def takeLR (op : Op) (k : Word → Reg → Instr) : List Byte → Decoded
  | h :: l :: r :: bs => .ok (k (wordOfBytes h l) (regOfByte r), bs)
  | _ => .error (.truncated op)

/-- Format OP_R_L. -/
def takeRL (op : Op) (k : Reg → Word → Instr) : List Byte → Decoded
  | r :: h :: l :: bs => .ok (k (regOfByte r) (wordOfBytes h l), bs)
  | _ => .error (.truncated op)

/-- Format OP_L_L. -/
def takeLL (op : Op) (k : Word → Word → Instr) : List Byte → Decoded
  | h :: l :: h' :: l' :: bs => .ok (k (wordOfBytes h l) (wordOfBytes h' l'), bs)
  | _ => .error (.truncated op)

/-- Format OP_L_R_R. -/
def takeLRR (op : Op) (k : Word → Reg → Reg → Instr) : List Byte → Decoded
  | h :: l :: r :: r' :: bs => .ok (k (wordOfBytes h l) (regOfByte r) (regOfByte r'), bs)
  | _ => .error (.truncated op)

/-- The operands of each instruction, in the stream order of 30_encoding.md R96. -/
def decodeOperands (op : Op) (bs : List Byte) : Decoded :=
  match op with
  | .movLitReg => takeLR op .movLitReg bs
  | .movRegReg => takeRR op .movRegReg bs
  | .movRegMem => takeRL op .movRegMem bs
  | .movMemReg => takeLR op .movMemReg bs
  | .movLitMem => takeLL op .movLitMem bs
  | .movRegPtrReg => takeRR op .movRegPtrReg bs
  | .movLitOffReg => takeLRR op .movLitOffReg bs
  | .addRegReg => takeRR op .addRegReg bs
  | .addLitReg => takeLR op .addLitReg bs
  | .subRegReg => takeRR op .subRegReg bs
  | .subLitReg => takeLR op .subLitReg bs
  | .mulRegReg => takeRR op .mulRegReg bs
  | .mulLitReg => takeLR op .mulLitReg bs
  | .incReg => takeR op .incReg bs
  | .decReg => takeR op .decReg bs
  | .andRegLit => takeRL op .andRegLit bs
  | .andRegReg => takeRR op .andRegReg bs
  | .orRegLit => takeRL op .orRegLit bs
  | .orRegReg => takeRR op .orRegReg bs
  | .xorRegLit => takeRL op .xorRegLit bs
  | .xorRegReg => takeRR op .xorRegReg bs
  | .notReg => takeR op .notReg bs
  | .lsfRegLit => takeRL op .lsfRegLit bs
  | .lsfRegReg => takeRR op .lsfRegReg bs
  | .rsfRegLit => takeRL op .rsfRegLit bs
  | .rsfRegReg => takeRR op .rsfRegReg bs
  | .jneLit => takeLL op .jneLit bs
  | .jneReg => takeRL op .jneReg bs
  | .jeqLit => takeLL op .jeqLit bs
  | .jeqReg => takeRL op .jeqReg bs
  | .jltLit => takeLL op .jltLit bs
  | .jltReg => takeRL op .jltReg bs
  | .jgtLit => takeLL op .jgtLit bs
  | .jgtReg => takeRL op .jgtReg bs
  | .jleLit => takeLL op .jleLit bs
  | .jleReg => takeRL op .jleReg bs
  | .jgeLit => takeLL op .jgeLit bs
  | .jgeReg => takeRL op .jgeReg bs
  | .pshLit => takeL op .pshLit bs
  | .pshReg => takeR op .pshReg bs
  | .pop => takeR op .pop bs
  | .calLit => takeL op .calLit bs
  | .calReg => takeR op .calReg bs
  | .ret => takeOp .ret bs
  | .hlt => takeOp .hlt bs

/-- The decoder under an opcode map (30_encoding.md R100): the opcode byte selects the format, an unknown opcode has
length 1. -/
def decodeWith (m : OpcodeMap) : List Byte → Decoded
  | [] => .error .empty
  | b :: bs =>
    match m.opOf? b with
    | some op => decodeOperands op bs
    | none => .ok (.unknownOpcode b, bs)

/-- The decoder of this hardware. -/
def decode (bs : List Byte) : Decoded := decodeWith config.opcodeMap bs

/-! ## The encoder -/

/-- The two bytes of a 16-bit operand, high byte first. -/
def wordBytes (w : Word) : List Byte := [hiByte w, loByte w]

/-- The bytes of an instruction under an opcode map (30_encoding.md R95, R96), register bytes canonical (R94). -/
def encodeWith (m : OpcodeMap) : Instr → List Byte
  | .movLitReg lit rd => m.byteOf .movLitReg :: (wordBytes lit ++ [regByte rd])
  | .movRegReg rs rd => m.byteOf .movRegReg :: ([regByte rs] ++ [regByte rd])
  | .movRegMem rs addr => m.byteOf .movRegMem :: ([regByte rs] ++ wordBytes addr)
  | .movMemReg addr rd => m.byteOf .movMemReg :: (wordBytes addr ++ [regByte rd])
  | .movLitMem lit addr => m.byteOf .movLitMem :: (wordBytes lit ++ wordBytes addr)
  | .movRegPtrReg rp rd => m.byteOf .movRegPtrReg :: ([regByte rp] ++ [regByte rd])
  | .movLitOffReg base ro rd => m.byteOf .movLitOffReg :: (wordBytes base ++ [regByte ro] ++ [regByte rd])
  | .addRegReg ra rb => m.byteOf .addRegReg :: ([regByte ra] ++ [regByte rb])
  | .addLitReg lit ra => m.byteOf .addLitReg :: (wordBytes lit ++ [regByte ra])
  | .subRegReg ra rb => m.byteOf .subRegReg :: ([regByte ra] ++ [regByte rb])
  | .subLitReg lit ra => m.byteOf .subLitReg :: (wordBytes lit ++ [regByte ra])
  | .mulRegReg ra rb => m.byteOf .mulRegReg :: ([regByte ra] ++ [regByte rb])
  | .mulLitReg lit ra => m.byteOf .mulLitReg :: (wordBytes lit ++ [regByte ra])
  | .incReg ra => m.byteOf .incReg :: [regByte ra]
  | .decReg ra => m.byteOf .decReg :: [regByte ra]
  | .andRegLit ra lit => m.byteOf .andRegLit :: ([regByte ra] ++ wordBytes lit)
  | .andRegReg ra rb => m.byteOf .andRegReg :: ([regByte ra] ++ [regByte rb])
  | .orRegLit ra lit => m.byteOf .orRegLit :: ([regByte ra] ++ wordBytes lit)
  | .orRegReg ra rb => m.byteOf .orRegReg :: ([regByte ra] ++ [regByte rb])
  | .xorRegLit ra lit => m.byteOf .xorRegLit :: ([regByte ra] ++ wordBytes lit)
  | .xorRegReg ra rb => m.byteOf .xorRegReg :: ([regByte ra] ++ [regByte rb])
  | .notReg ra => m.byteOf .notReg :: [regByte ra]
  | .lsfRegLit ra amt => m.byteOf .lsfRegLit :: ([regByte ra] ++ wordBytes amt)
  | .lsfRegReg ra rb => m.byteOf .lsfRegReg :: ([regByte ra] ++ [regByte rb])
  | .rsfRegLit ra amt => m.byteOf .rsfRegLit :: ([regByte ra] ++ wordBytes amt)
  | .rsfRegReg ra rb => m.byteOf .rsfRegReg :: ([regByte ra] ++ [regByte rb])
  | .jneLit val target => m.byteOf .jneLit :: (wordBytes val ++ wordBytes target)
  | .jneReg ra target => m.byteOf .jneReg :: ([regByte ra] ++ wordBytes target)
  | .jeqLit val target => m.byteOf .jeqLit :: (wordBytes val ++ wordBytes target)
  | .jeqReg ra target => m.byteOf .jeqReg :: ([regByte ra] ++ wordBytes target)
  | .jltLit val target => m.byteOf .jltLit :: (wordBytes val ++ wordBytes target)
  | .jltReg ra target => m.byteOf .jltReg :: ([regByte ra] ++ wordBytes target)
  | .jgtLit val target => m.byteOf .jgtLit :: (wordBytes val ++ wordBytes target)
  | .jgtReg ra target => m.byteOf .jgtReg :: ([regByte ra] ++ wordBytes target)
  | .jleLit val target => m.byteOf .jleLit :: (wordBytes val ++ wordBytes target)
  | .jleReg ra target => m.byteOf .jleReg :: ([regByte ra] ++ wordBytes target)
  | .jgeLit val target => m.byteOf .jgeLit :: (wordBytes val ++ wordBytes target)
  | .jgeReg ra target => m.byteOf .jgeReg :: ([regByte ra] ++ wordBytes target)
  | .pshLit lit => m.byteOf .pshLit :: wordBytes lit
  | .pshReg ra => m.byteOf .pshReg :: [regByte ra]
  | .pop rd => m.byteOf .pop :: [regByte rd]
  | .calLit target => m.byteOf .calLit :: wordBytes target
  | .calReg ra => m.byteOf .calReg :: [regByte ra]
  | .ret => m.byteOf .ret :: []
  | .hlt => m.byteOf .hlt :: []
  | .unknownOpcode b => [b]

/-- The encoder of this hardware. -/
def encode (i : Instr) : List Byte := encodeWith config.opcodeMap i

/-- The instruction's bytes as the table counts bits (bit 0 is the least significant bit of the first byte): the first
`n` bytes of `w`. -/
def bytesOfNat : Nat → Nat → List Byte
  | 0, _ => []
  | n + 1, w => BitVec.ofNat 8 w :: bytesOfNat n (w / 256)

/-- The bytes of the longest instruction (30_encoding.md R90: 1 to 5 bytes). -/
def maxLength : Nat := 5

/-- The instruction that the decoder reads from the `nbits` bits `w`, every later bit 0. -/
def decodeTableWord (nbits w : Nat) : Option Instr :=
  match decode (bytesOfNat maxLength (w % 2 ^ nbits)) with
  | .ok (i, _) => some i
  | .error _ => none

end Sys2Proof
end

