-- ==== Sys2Proof/Machine/State.lean ====
section
/-! DEFINITION. The state of the machine as plain data (10_state.md R20 to R40): twelve registers, the hidden counter
`sfs`, the run state, the region list of the bus, the devices with their contents, the events of the peripherals; and
the reasons a step can stop. -/

namespace Sys2Proof.Machine

/-- The fatal errors (60_exceptions.md R210): a closed list of symbolic kinds, each with the information it carries. -/
inductive FatalError where
  /-- No mapped region contains the global address of the access. -/
  | addressError (addr : Nat)
  /-- The RAM device that the access was routed to has no byte at the device-local address (or, for a word, at the next). -/
  | deviceRangeError (addr : Nat)
  /-- The host named a register that does not exist (R215); no instruction raises it. -/
  | registerLookupError (name : String)
  deriving DecidableEq, Repr

/-- The run state (10_state.md R31). `halted` and `faulted` are terminal. -/
inductive RunState where
  | running
  | halted
  | faulted (error : FatalError)
  deriving DecidableEq, Repr

/-- Why a step stops with a fault. -/
inductive Fault where
  /-- A fatal error, raised by `raiseFatal` where a bus access fails (60_exceptions.md R213). Safe: the outcome carries
  no state, so nothing can be proved from the contents of a faulted machine (R214, notes/assumptions/5.md). -/
  | fatal (error : FatalError)
  /-- Raised by `step` on a halted machine. Safe: 70_reset_and_hazards.md R236 gives the machine no step from there
  (notes/assumptions/6.md). -/
  | stuckHalted
  /-- Raised by `step` on a faulted machine. Safe, as `stuckHalted` (R236). -/
  | stuckFaulted (error : FatalError)
  deriving DecidableEq, Repr

/-- Why a step is refused. -/
inductive Refusal where
  /-- An instruction whose arm of `exec` has no meaning yet. Raised by `exec` only. Safe. -/
  | notModelled (mnemonic : String)
  /-- The fetched bytes did not decode. Raised by `step` only; safe. It never happens: the fetch brings exactly the bytes
  the opcode byte asks for, and every byte sequence decodes (30_encoding.md R100). -/
  | undecoded
  deriving DecidableEq, Repr

/-- What a step answers. -/
abbrev Outcome := Host.Outcome

/-- The bytes a RAM device lists, as pairs of device-local address and byte. -/
abbrev Memory := List Host.Cell

/-- The register file (10_state.md R20). -/
structure Regs where
  ip : Word
  acc : Word
  r1 : Word
  r2 : Word
  r3 : Word
  r4 : Word
  r5 : Word
  r6 : Word
  r7 : Word
  r8 : Word
  sp : Word
  fp : Word
  deriving DecidableEq, Repr

/-- The complete state of the machine (10_state.md, its opening sentence). -/
structure State where
  /-- The twelve registers, R20. -/
  regs : Regs
  /-- The hidden counter `stackFrameSize`, R30. -/
  sfs : Word
  /-- The run state, R31. -/
  run : RunState
  /-- The region list of the bus, most recently mapped first, R32. -/
  regions : List Region
  /-- The devices that the regions name by their place in this list, with their contents, R36. -/
  devices : List Device
  /-- The events of the peripherals, oldest first, R37 and 20_memory.md R62. -/
  history : List Event
  /-- The model's own field: the number of the next token `map` hands out (20_memory.md R52, notes/assumptions/4.md). -/
  nextToken : Nat
  deriving DecidableEq, Repr

/-- One more than every token in a region list. -/
def tokensBelow (regions : List Region) : Nat := regions.foldr (fun r n => max (r.token + 1) n) 0

/-- The machine as its host constructs it from a configuration (70_reset_and_hazards.md R230). -/
def State.construct (c : Config) : State where
  regs :=
    { ip := c.resetReg .ip, acc := c.resetReg .acc, r1 := c.resetReg .r1, r2 := c.resetReg .r2, r3 := c.resetReg .r3,
      r4 := c.resetReg .r4, r5 := c.resetReg .r5, r6 := c.resetReg .r6, r7 := c.resetReg .r7, r8 := c.resetReg .r8,
      sp := c.resetReg .sp, fp := c.resetReg .fp }
  sfs := c.resetSfs
  run := .running
  regions := c.regions
  devices := c.devices
  history := []
  nextToken := tokensBelow c.regions

/-- The machine right after reset: the table of 10_state.md R40 in the reference configuration. -/
def State.reset : State := State.construct config

end Sys2Proof.Machine
end

