-- ==== Sys2Proof/Machine/Bus.lean ====
section
/-! DEFINITION. The memory bus (20_memory.md): routing an access to a region (R54), translating its address (R55), the
devices' four operations (R60 to R62), and the primitives MemRead and MemWrite (00_scope.md R8, R74). An access answers
the value with the state after it, or the fatal error it raises. -/

namespace Sys2Proof.Machine

/-- What an access or a sequence of accesses answers: a result, or the first fatal error (00_scope.md R11). -/
abbrev Access (α : Type) := Except FatalError α

/-! ## Routing -/

/-- The region contains the address, both ends included (20_memory.md R51). -/
def regionContains (r : Region) (a : Nat) : Bool := decide (r.start ≤ a) && decide (a ≤ r.stop)

/-- The newest region that contains the address (20_memory.md R54). -/
def resolve (regions : List Region) (a : Nat) : Option Region := regions.find? (regionContains · a)

/-- The address the region's device receives (20_memory.md R55). -/
def localAddress (r : Region) (a : Nat) : Nat := if r.remap then a - r.start else a

/-- The device, by its number, and the device-local address that a global address is routed to; none where no region
contains it. -/
def State.locate (s : State) (a : Nat) : Option (Nat × Nat) :=
  match resolve s.regions a with
  | some r => some (r.device, localAddress r a)
  | none => none

/-! ## Devices -/

/-- The device of a number. A number the machine holds no device for is a device of which nothing is known. -/
def State.device (s : State) (d : Nat) : Device := (s.devices[d]?).getD .peripheral

/-- The state with the bytes of RAM device `d` replaced. -/
def State.setCells (s : State) (d size : Nat) (cells : Memory) : State :=
  { s with devices := s.devices.set d (.ram size cells) }

/-- The state with one event more in the history (20_memory.md R62: in program order). -/
def State.record (s : State) (e : Event) : State := { s with history := s.history ++ [e] }

/-- `getUint8` (20_memory.md R61, R62). -/
def deviceGet8 (d a : Nat) (s : State) : Access (Byte × State) :=
  match s.device d with
  | .ram size cells => if a < size then .ok (Memory.read cells a, s) else .error (.deviceRangeError a)
  | .peripheral =>
    .ok (Config.peripheralByte d s.history a, s.record (.read8 d a (Config.peripheralByte d s.history a)))

/-- `getUint16`, high byte at the lower address (20_memory.md R57, R61, R62). -/
def deviceGet16 (d a : Nat) (s : State) : Access (Word × State) :=
  match s.device d with
  | .ram size cells =>
    if a + 1 < size then .ok (wordOfBytes (Memory.read cells a) (Memory.read cells (a + 1)), s)
    else .error (.deviceRangeError a)
  | .peripheral =>
    .ok (Config.peripheralWord d s.history a, s.record (.read16 d a (Config.peripheralWord d s.history a)))

/-- `setUint8` (20_memory.md R61, R62). -/
def deviceSet8 (d a : Nat) (v : Byte) (s : State) : Access State :=
  match s.device d with
  | .ram size cells =>
    if a < size then .ok (s.setCells d size (Memory.write cells a v)) else .error (.deviceRangeError a)
  | .peripheral => .ok (s.record (.write8 d a v))

/-- `setUint16`, high byte at the lower address (20_memory.md R57, R61, R62). -/
def deviceSet16 (d a : Nat) (v : Word) (s : State) : Access State :=
  match s.device d with
  | .ram size cells =>
    if a + 1 < size then
      .ok (s.setCells d size (Memory.write (Memory.write cells a (hiByte v)) (a + 1) (loByte v)))
    else .error (.deviceRangeError a)
  | .peripheral => .ok (s.record (.write16 d a v))

/-! ## The primitives (20_memory.md R74) -/

/-- `MemRead(a, 1)`. -/
def memRead8 (a : Nat) (s : State) : Access (Byte × State) :=
  match s.locate a with
  | some (d, x) => deviceGet8 d x s
  | none => .error (.addressError a)

/-- `MemRead(a, 2)`: routed by the address of the first byte alone (R58). -/
def memRead16 (a : Nat) (s : State) : Access (Word × State) :=
  match s.locate a with
  | some (d, x) => deviceGet16 d x s
  | none => .error (.addressError a)

/-- `MemWrite(a, 1, v)`; no instruction uses it (R64), the host does (R234). -/
def memWrite8 (a : Nat) (v : Byte) (s : State) : Access State :=
  match s.locate a with
  | some (d, x) => deviceSet8 d x v s
  | none => .error (.addressError a)

/-- `MemWrite(a, 2, v)`: routed by the address of the first byte alone (R58). -/
def memWrite16 (a : Nat) (v : Word) (s : State) : Access State :=
  match s.locate a with
  | some (d, x) => deviceSet16 d x v s
  | none => .error (.addressError a)

end Sys2Proof.Machine
end

