-- ==== Sys2Proof/Machine/Ops.lean ====
section
/-! DEFINITION. The named operations of the machine: registers (10_state.md R21, R28), the raising of a fatal error
(60_exceptions.md R213), the fetches of the instruction stream (30_encoding.md R101), push and pop (44_stack.md R180,
R181), the call and return conventions (45_subroutine.md R190, R191). -/

namespace Sys2Proof.Machine

/-! ## Registers -/

/-- The value of a register. -/
def Regs.get (g : Regs) : Reg → Word
  | .ip => g.ip | .acc => g.acc | .r1 => g.r1 | .r2 => g.r2 | .r3 => g.r3 | .r4 => g.r4
  | .r5 => g.r5 | .r6 => g.r6 | .r7 => g.r7 | .r8 => g.r8 | .sp => g.sp | .fp => g.fp

/-- The register file with one register written; none is read-only and none ignores writes (10_state.md R28). -/
def Regs.set (g : Regs) (r : Reg) (v : Word) : Regs :=
  match r with
  | .ip => { g with ip := v } | .acc => { g with acc := v } | .r1 => { g with r1 := v } | .r2 => { g with r2 := v }
  | .r3 => { g with r3 := v } | .r4 => { g with r4 := v } | .r5 => { g with r5 := v } | .r6 => { g with r6 := v }
  | .r7 => { g with r7 := v } | .r8 => { g with r8 := v } | .sp => { g with sp := v } | .fp => { g with fp := v }

/-- `x[r]` (00_scope.md R7). -/
def State.reg (s : State) (r : Reg) : Word := s.regs.get r

/-- `x[r] <- v` (00_scope.md R7). A `Word` is already reduced modulo 65536 (10_state.md R21). -/
def State.setReg (s : State) (r : Reg) (v : Word) : State := { s with regs := s.regs.set r v }

/-- `sfs <- v` (10_state.md R30). -/
def State.setSfs (s : State) (v : Word) : State := { s with sfs := v }

/-- `run <- v` (10_state.md R31). -/
def State.setRun (s : State) (v : RunState) : State := { s with run := v }

/-! ## Fatal errors -/

/-- Raising a fatal error (60_exceptions.md R213): the one exceptional event of the machine. The rest of the instruction
is abandoned and the step's outcome is the fault; there is no handler, no vector and no saved state (R220), and the
contents of the faulted machine are unspecified (R214), so the outcome carries none. -/
def raiseFatal (e : FatalError) : Outcome State Fault Refusal := .fault (.fatal e)

/-- The end of an instruction: the state its accesses lead to, or the fatal error the first failing access raises. -/
def complete (x : Access State) : Outcome State Fault Refusal :=
  match x with
  | .ok s => .next s
  | .error e => raiseFatal e

/-! ## Fetches -/

/-- `Fetch8()` (30_encoding.md R101). -/
def fetch8 (s : State) : Access (Byte × State) := do
  let (b, t) ← memRead8 (s.reg .ip).toNat s
  return (b, t.setReg .ip (s.reg .ip + 1))

/-- `Fetch16()`: one 16-bit bus read (30_encoding.md R92, R101). -/
def fetch16 (s : State) : Access (Word × State) := do
  let (w, t) ← memRead16 (s.reg .ip).toNat s
  return (w, t.setReg .ip (s.reg .ip + 2))

/-- The operand fetches of a format, left to right; what they bring, as bytes of the stream (30_encoding.md R102). -/
def fetchFields : List Field → State → Access (List Byte × State)
  | [], s => .ok ([], s)
  | .reg :: fs, s => do
    let (b, s) ← fetch8 s
    let (bs, s) ← fetchFields fs s
    return (b :: bs, s)
  | .word :: fs, s => do
    let (w, s) ← fetch16 s
    let (bs, s) ← fetchFields fs s
    return (hiByte w :: loByte w :: bs, s)

/-- The bytes of the instruction at `ip`: first the opcode, then every operand the opcode asks for (30_encoding.md R102,
R103). -/
def fetchBytes (s : State) : Access (List Byte × State) := do
  let (b, s) ← fetch8 s
  let (bs, s) ← fetchFields (config.opcodeMap.fieldsOf b) s
  return (b :: bs, s)

/-! ## The stack -/

/-- The address a push writes at: `sp` before the push (44_stack.md R180). -/
def pushAddress (s : State) : Nat := (s.reg .sp).toNat

/-- The address a pop reads at: `sp` plus 2, reduced (44_stack.md R181, 92_eei_decisions.md D20). -/
def popAddress (s : State) : Nat := (s.reg .sp + 2).toNat

/-- `Push(v)` (44_stack.md R180): the word is written at `sp`, then `sp` goes down by 2 and `sfs` up by 2. -/
def push (v : Word) (s : State) : Access State := do
  let t ← memWrite16 (pushAddress s) v s
  return (t.setReg .sp (t.reg .sp - 2)).setSfs (t.sfs + 2)

/-- `Pop()` (44_stack.md R181): `sp` goes up by 2 and `sfs` down by 2, then the word at the new `sp` is read. -/
def pop (s : State) : Access (Word × State) :=
  memRead16 (popAddress s) ((s.setReg .sp (s.reg .sp + 2)).setSfs (s.sfs - 2))

/-- Push registers, in the order listed. -/
def pushRegs : List Reg → State → Access State
  | [], s => .ok s
  | r :: rs, s => do
    let s ← push (s.reg r) s
    pushRegs rs s

/-- Pop into registers, in the order listed. -/
def popRegs : List Reg → State → Access State
  | [], s => .ok s
  | r :: rs, s => do
    let (v, s) ← pop s
    popRegs rs (s.setReg r v)

/-- Pop `n` words and drop their values: each is a real bus read (45_subroutine.md R191, 92_eei_decisions.md D21). -/
def discardWords : Nat → State → Access State
  | 0, s => .ok s
  | n + 1, s => do
    let (_, s) ← pop s
    discardWords n s

/-- The registers a call saves, in the order it pushes them (45_subroutine.md R190). -/
def savedRegs : List Reg := [.r1, .r2, .r3, .r4, .r5, .r6, .r7, .r8]

/-- `PushState()`, the call convention (45_subroutine.md R190): `r1` to `r8`, the return address, the frame-size marker;
then `fp` is `sp` and `sfs` is 0. -/
def pushFrame (s : State) : Access State := do
  let s ← pushRegs savedRegs s
  let s ← push (s.reg .ip) s
  let s ← push (s.sfs + 2) s
  return (s.setReg .fp (s.reg .sp)).setSfs 0

/-- `PopState()`, the return convention (45_subroutine.md R191): `fp` grows by the marker as popped, while the later pops
go on decrementing `sfs` (90_conflicts.md C2). -/
def popFrame (s : State) : Access State := do
  let oldFp := s.reg .fp
  let (marker, s) ← pop (s.setReg .sp oldFp)
  let s := s.setSfs marker
  let (ret, s) ← pop s
  let s := s.setReg .ip ret
  let s ← popRegs savedRegs.reverse s
  let (nArgs, s) ← pop s
  let s ← discardWords nArgs.toNat s
  return s.setReg .fp (oldFp + marker)

end Sys2Proof.Machine
end

