-- ==== Sys2Proof/Machine/Alu.lean ====
section
/-! DEFINITION. The results of the arithmetic, bitwise and shift instructions: 16 bits, modulo 65536, no condition
recorded (41_arithmetic.md R130, 42_logic_shift.md R140, R148). -/

namespace Sys2Proof.Machine

/-- `(a + b) mod 65536` (41_arithmetic.md R130). -/
def addWords (a b : Word) : Word := a + b

/-- `(a - b) mod 65536`, the minuend first (41_arithmetic.md R130, R133). -/
def subWords (a b : Word) : Word := a - b

/-- `(a * b) mod 65536`, the low half of the product (41_arithmetic.md R130). -/
def mulWords (a b : Word) : Word := a * b

/-- The effective shift amount: the low `SHAMT_BITS` bits (42_logic_shift.md R148, 92_eei_decisions.md D6). -/
def shiftAmount (amount : Word) : Nat := amount.toNat % 2 ^ config.shamtBits

/-- `LeftShift(v, amount)` (42_logic_shift.md R148). -/
def leftShift (v amount : Word) : Word := v <<< shiftAmount amount

/-- `RightShift(v, amount)`, logical (42_logic_shift.md R148). -/
def rightShift (v amount : Word) : Word := v >>> shiftAmount amount

/-- The bitwise operations, each bit on its own (42_logic_shift.md R140). -/
def andWords (a b : Word) : Word := a &&& b

/-- See `andWords`. -/
def orWords (a b : Word) : Word := a ||| b

/-- See `andWords`. -/
def xorWords (a b : Word) : Word := a ^^^ b

/-- The 16-bit complement (42_logic_shift.md R147). -/
def notWord (a : Word) : Word := ~~~a

end Sys2Proof.Machine
end

