-- ==== Sys2Proof/Machine/Arithmetic.lean ====
section
/-! DEFINITION. Arithmetic into `acc`, increment and decrement in place (41_arithmetic.md). -/

namespace Sys2Proof.Machine

/-- ADD_REG_REG (R131): `x[acc] <- x[ra] + x[rb]`. -/
def execAddRegReg (ra : Reg) (rb : Reg) (s : State) : Outcome State Fault Refusal :=
  .next (s.setReg .acc (addWords (s.reg ra) (s.reg rb)))

/-- ADD_LIT_REG (R132): `x[acc] <- lit + x[ra]`. -/
def execAddLitReg (lit : Word) (ra : Reg) (s : State) : Outcome State Fault Refusal :=
  .next (s.setReg .acc (addWords lit (s.reg ra)))

/-- SUB_REG_REG (R133): `x[acc] <- x[ra] - x[rb]`. -/
def execSubRegReg (ra : Reg) (rb : Reg) (s : State) : Outcome State Fault Refusal :=
  .next (s.setReg .acc (subWords (s.reg ra) (s.reg rb)))

/-- SUB_LIT_REG (R134): `x[acc] <- x[ra] - lit`, although the literal comes first in the stream (92_eei_decisions.md D4). -/
def execSubLitReg (lit : Word) (ra : Reg) (s : State) : Outcome State Fault Refusal :=
  .next (s.setReg .acc (subWords (s.reg ra) lit))

/-- MUL_REG_REG (R135): `x[acc] <- x[ra] * x[rb]`. -/
def execMulRegReg (ra : Reg) (rb : Reg) (s : State) : Outcome State Fault Refusal :=
  .next (s.setReg .acc (mulWords (s.reg ra) (s.reg rb)))

/-- MUL_LIT_REG (R136): `x[acc] <- lit * x[ra]`. -/
def execMulLitReg (lit : Word) (ra : Reg) (s : State) : Outcome State Fault Refusal :=
  .next (s.setReg .acc (mulWords lit (s.reg ra)))

/-- INC_REG (R137): `x[ra] <- x[ra] + 1`, in place. -/
def execIncReg (ra : Reg) (s : State) : Outcome State Fault Refusal :=
  .next (s.setReg ra (addWords (s.reg ra) 1))

/-- DEC_REG (R138): `x[ra] <- x[ra] - 1`, in place. -/
def execDecReg (ra : Reg) (s : State) : Outcome State Fault Refusal :=
  .next (s.setReg ra (subWords (s.reg ra) 1))

end Sys2Proof.Machine
end

