-- ==== Sys2Proof/Machine/Flags.lean ====
section
/-! DEFINITION. The hardware has no flags (10_state.md R33): a conditional jump compares its operand with `acc` afresh.
This file holds that comparison, the one place that knows its direction (43_control_flow.md R160, 70_reset_and_hazards.md
R250), and the jump it decides. -/

namespace Sys2Proof.Machine

/-- The six relations of the conditional jumps. -/
inductive JumpRelation where
  | ne | eq | lt | gt | le | ge
  deriving DecidableEq, Repr

/-- `operand REL acc`, unsigned, the operand on the left (43_control_flow.md R160, 92_eei_decisions.md D5). -/
def relationHolds (rel : JumpRelation) (operand acc : Word) : Bool :=
  match rel with
  | .ne => operand != acc
  | .eq => operand == acc
  | .lt => operand.toNat < acc.toNat
  | .gt => operand.toNat > acc.toNat
  | .le => operand.toNat ≤ acc.toNat
  | .ge => operand.toNat ≥ acc.toNat

/-- `if operand REL acc then pc <- target`; otherwise `ip` stays at the next instruction (43_control_flow.md R160). -/
def jumpIf (rel : JumpRelation) (operand target : Word) (s : State) : State :=
  if relationHolds rel operand (s.reg .acc) then s.setReg .ip target else s

end Sys2Proof.Machine
end

