-- ==== Sys2Proof/Machine/ControlFlow.lean ====
section
/-! DEFINITION. The conditional jumps (43_control_flow.md). -/

namespace Sys2Proof.Machine

/-- JNE_LIT (R161): `if val != x[acc] then pc <- target`, unsigned. -/
def execJneLit (val : Word) (target : Word) (s : State) : Outcome State Fault Refusal :=
  .next (jumpIf .ne val target s)

/-- JNE_REG (R162): `if x[ra] != x[acc] then pc <- target`, unsigned. -/
def execJneReg (ra : Reg) (target : Word) (s : State) : Outcome State Fault Refusal :=
  .next (jumpIf .ne (s.reg ra) target s)

/-- JEQ_LIT (R163): `if val == x[acc] then pc <- target`, unsigned. -/
def execJeqLit (val : Word) (target : Word) (s : State) : Outcome State Fault Refusal :=
  .next (jumpIf .eq val target s)

/-- JEQ_REG (R164): `if x[ra] == x[acc] then pc <- target`, unsigned. -/
def execJeqReg (ra : Reg) (target : Word) (s : State) : Outcome State Fault Refusal :=
  .next (jumpIf .eq (s.reg ra) target s)

/-- JLT_LIT (R165): `if val < x[acc] then pc <- target`, unsigned. -/
def execJltLit (val : Word) (target : Word) (s : State) : Outcome State Fault Refusal :=
  .next (jumpIf .lt val target s)

/-- JLT_REG (R166): `if x[ra] < x[acc] then pc <- target`, unsigned. -/
def execJltReg (ra : Reg) (target : Word) (s : State) : Outcome State Fault Refusal :=
  .next (jumpIf .lt (s.reg ra) target s)

/-- JGT_LIT (R167): `if val > x[acc] then pc <- target`, unsigned. -/
def execJgtLit (val : Word) (target : Word) (s : State) : Outcome State Fault Refusal :=
  .next (jumpIf .gt val target s)

/-- JGT_REG (R168): `if x[ra] > x[acc] then pc <- target`, unsigned. -/
def execJgtReg (ra : Reg) (target : Word) (s : State) : Outcome State Fault Refusal :=
  .next (jumpIf .gt (s.reg ra) target s)

/-- JLE_LIT (R169): `if val <= x[acc] then pc <- target`, unsigned. -/
def execJleLit (val : Word) (target : Word) (s : State) : Outcome State Fault Refusal :=
  .next (jumpIf .le val target s)

/-- JLE_REG (R170): `if x[ra] <= x[acc] then pc <- target`, unsigned. -/
def execJleReg (ra : Reg) (target : Word) (s : State) : Outcome State Fault Refusal :=
  .next (jumpIf .le (s.reg ra) target s)

/-- JGE_LIT (R171): `if val >= x[acc] then pc <- target`, unsigned. -/
def execJgeLit (val : Word) (target : Word) (s : State) : Outcome State Fault Refusal :=
  .next (jumpIf .ge val target s)

/-- JGE_REG (R172): `if x[ra] >= x[acc] then pc <- target`, unsigned. -/
def execJgeReg (ra : Reg) (target : Word) (s : State) : Outcome State Fault Refusal :=
  .next (jumpIf .ge (s.reg ra) target s)

end Sys2Proof.Machine
end

