-- ==== Sys2Proof/Machine/Halt.lean ====
section
/-! DEFINITION. Halt, and the unknown opcode (46_halt_and_unknown.md). -/

namespace Sys2Proof.Machine

/-- HLT (R200): `run <- Halted`; `ip` is already past the opcode (92_eei_decisions.md D24). -/
def execHlt (s : State) : Outcome State Fault Refusal :=
  .next (s.setRun .halted)

/-- The unknown opcode (R201): nothing; the step consists of the opcode fetch alone. -/
def execUnknownOpcode (_opcode : Byte) (s : State) : Outcome State Fault Refusal :=
  .next s

end Sys2Proof.Machine
end

