-- ==== Sys2Proof/Machine/LogicShift.lean ====
section
/-! DEFINITION. Bitwise and shift instructions (42_logic_shift.md): in place on the first register, `acc` untouched unless named
(R140, 90_conflicts.md C6). -/

namespace Sys2Proof.Machine

/-- AND_REG_LIT (R141): `x[ra] <- x[ra] AND lit`. -/
def execAndRegLit (ra : Reg) (lit : Word) (s : State) : Outcome State Fault Refusal :=
  .next (s.setReg ra (andWords (s.reg ra) lit))

/-- AND_REG_REG (R142): `x[ra] <- x[ra] AND x[rb]`. -/
def execAndRegReg (ra : Reg) (rb : Reg) (s : State) : Outcome State Fault Refusal :=
  .next (s.setReg ra (andWords (s.reg ra) (s.reg rb)))

/-- OR_REG_LIT (R143): `x[ra] <- x[ra] OR lit`. -/
def execOrRegLit (ra : Reg) (lit : Word) (s : State) : Outcome State Fault Refusal :=
  .next (s.setReg ra (orWords (s.reg ra) lit))

/-- OR_REG_REG (R144): `x[ra] <- x[ra] OR x[rb]`. -/
def execOrRegReg (ra : Reg) (rb : Reg) (s : State) : Outcome State Fault Refusal :=
  .next (s.setReg ra (orWords (s.reg ra) (s.reg rb)))

/-- XOR_REG_LIT (R145): `x[ra] <- x[ra] XOR lit`. -/
def execXorRegLit (ra : Reg) (lit : Word) (s : State) : Outcome State Fault Refusal :=
  .next (s.setReg ra (xorWords (s.reg ra) lit))

/-- XOR_REG_REG (R146): `x[ra] <- x[ra] XOR x[rb]`. -/
def execXorRegReg (ra : Reg) (rb : Reg) (s : State) : Outcome State Fault Refusal :=
  .next (s.setReg ra (xorWords (s.reg ra) (s.reg rb)))

/-- NOT (R147): every one of the 16 bits inverted. -/
def execNotReg (ra : Reg) (s : State) : Outcome State Fault Refusal :=
  .next (s.setReg ra (notWord (s.reg ra)))

/-- LSF_REG_LIT (R149): `x[ra] <- LeftShift(x[ra], amt)`. -/
def execLsfRegLit (ra : Reg) (amt : Word) (s : State) : Outcome State Fault Refusal :=
  .next (s.setReg ra (leftShift (s.reg ra) amt))

/-- LSF_REG_REG (R150): `x[ra] <- LeftShift(x[ra], x[rb])`. -/
def execLsfRegReg (ra : Reg) (rb : Reg) (s : State) : Outcome State Fault Refusal :=
  .next (s.setReg ra (leftShift (s.reg ra) (s.reg rb)))

/-- RSF_REG_LIT (R151): `x[ra] <- RightShift(x[ra], amt)`. -/
def execRsfRegLit (ra : Reg) (amt : Word) (s : State) : Outcome State Fault Refusal :=
  .next (s.setReg ra (rightShift (s.reg ra) amt))

/-- RSF_REG_REG (R152): `x[ra] <- RightShift(x[ra], x[rb])`. -/
def execRsfRegReg (ra : Reg) (rb : Reg) (s : State) : Outcome State Fault Refusal :=
  .next (s.setReg ra (rightShift (s.reg ra) (s.reg rb)))

end Sys2Proof.Machine
end

