-- ==== Sys2Proof/Machine/Operands.lean ====
section
/-! DEFINITION. The operand forms: where a data access goes (20_memory.md R64, R68) and what loads and stores do there.
Bus addresses are natural numbers and are never reduced. -/

namespace Sys2Proof.Machine

/-- The address of a MemoryAddress16 operand (30_encoding.md R91). -/
def absoluteAddress (addr : Word) : Nat := addr.toNat

/-- The address a pointer register holds (40_move.md R126). -/
def pointerAddress (rp : Reg) (s : State) : Nat := (s.reg rp).toNat

/-- Base plus register offset, not reduced modulo 65536 (40_move.md R127, 92_eei_decisions.md D11). -/
def offsetAddress (base : Word) (ro : Reg) (s : State) : Nat := base.toNat + (s.reg ro).toNat

/-- Load the word at an address into a register: the read comes first, then the register write. -/
def loadTo (a : Nat) (rd : Reg) (s : State) : Access State := do
  let (v, s) ← memRead16 a s
  return s.setReg rd v

/-- Store a word at an address. -/
def storeAt (a : Nat) (v : Word) (s : State) : Access State := memWrite16 a v s

end Sys2Proof.Machine
end

