-- ==== Sys2Proof/Machine/Move.lean ====
section
/-! DEFINITION. The move instructions (40_move.md). The operand fetches are the step's (30_encoding.md R102): a meaning starts
with `ip` past the instruction. A destination `ip` transfers control, a destination `sp` leaves `sfs` alone (R120). -/

namespace Sys2Proof.Machine

/-- MOV_LIT_REG (R121): `x[rd] <- lit`; with `rd` = `ip` a jump. -/
def execMovLitReg (lit : Word) (rd : Reg) (s : State) : Outcome State Fault Refusal :=
  .next (s.setReg rd lit)

/-- MOV_REG_REG (R122): `x[rd] <- x[rs]`; `ip` as the source reads the address of the next instruction. -/
def execMovRegReg (rs : Reg) (rd : Reg) (s : State) : Outcome State Fault Refusal :=
  .next (s.setReg rd (s.reg rs))

/-- MOV_REG_MEM (R123): `MemWrite(addr, 2, x[rs])`. -/
def execMovRegMem (rs : Reg) (addr : Word) (s : State) : Outcome State Fault Refusal :=
  complete (storeAt (absoluteAddress addr) (s.reg rs) s)

/-- MOV_MEM_REG (R124): `x[rd] <- MemRead(addr, 2)`. -/
def execMovMemReg (addr : Word) (rd : Reg) (s : State) : Outcome State Fault Refusal :=
  complete (loadTo (absoluteAddress addr) rd s)

/-- MOV_LIT_MEM (R125): `MemWrite(addr, 2, lit)`. -/
def execMovLitMem (lit : Word) (addr : Word) (s : State) : Outcome State Fault Refusal :=
  complete (storeAt (absoluteAddress addr) lit s)

/-- MOV_REG_PTR_REG (R126): `x[rd] <- MemRead(x[rp], 2)`. -/
def execMovRegPtrReg (rp : Reg) (rd : Reg) (s : State) : Outcome State Fault Refusal :=
  complete (loadTo (pointerAddress rp s) rd s)

/-- MOV_LIT_OFF_REG (R127): `x[rd] <- MemRead(base + x[ro], 2)`, the sum not reduced. -/
def execMovLitOffReg (base : Word) (ro : Reg) (rd : Reg) (s : State) : Outcome State Fault Refusal :=
  complete (loadTo (offsetAddress base ro s) rd s)

end Sys2Proof.Machine
end

