-- ==== Sys2Proof/Machine/Stack.lean ====
section
/-! DEFINITION. The stack instructions (44_stack.md). -/

namespace Sys2Proof.Machine

/-- PSH_LIT (R182): `Push(lit)`. -/
def execPshLit (lit : Word) (s : State) : Outcome State Fault Refusal :=
  complete (push lit s)

/-- PSH_REG (R183): `Push(x[ra])`; the register is read before `sp` changes. -/
def execPshReg (ra : Reg) (s : State) : Outcome State Fault Refusal :=
  complete (push (s.reg ra) s)

/-- POP (R184): `x[rd] <- Pop()`; the register is written after `sp` and `sfs`. -/
def execPop (rd : Reg) (s : State) : Outcome State Fault Refusal :=
  complete (do
    let (v, s) ← pop s
    return s.setReg rd v)

end Sys2Proof.Machine
end

