-- ==== Sys2Proof/Machine/Subroutine.lean ====
section
/-! DEFINITION. Subroutine call and return (45_subroutine.md). -/

namespace Sys2Proof.Machine

/-- CAL_LIT (R192): `PushState(); pc <- target`. -/
def execCalLit (target : Word) (s : State) : Outcome State Fault Refusal :=
  complete (do
    let s ← pushFrame s
    return s.setReg .ip target)

/-- CAL_REG (R193): the target is read before the pushes. -/
def execCalReg (ra : Reg) (s : State) : Outcome State Fault Refusal :=
  complete (do
    let t ← pushFrame s
    return t.setReg .ip (s.reg ra))

/-- RET (R194): `PopState()`, which loads `ip`. -/
def execRet (s : State) : Outcome State Fault Refusal :=
  complete (popFrame s)

end Sys2Proof.Machine
end

