-- ==== Sys2Proof/Machine/Dispatch.lean ====
section
/-! DEFINITION. The meaning of every instruction, by name: one arm for each constructor of `Instr`. `exec` starts from
the state after the fetches (30_encoding.md R102), with `ip` past the instruction. -/

namespace Sys2Proof.Machine

def exec (i : Instr) (s : State) : Host.Outcome State Fault Refusal :=
  match i with
  | .movLitReg lit rd => Sys2Proof.Machine.execMovLitReg lit rd s
  | .movRegReg rs rd => Sys2Proof.Machine.execMovRegReg rs rd s
  | .movRegMem rs addr => Sys2Proof.Machine.execMovRegMem rs addr s
  | .movMemReg addr rd => Sys2Proof.Machine.execMovMemReg addr rd s
  | .movLitMem lit addr => Sys2Proof.Machine.execMovLitMem lit addr s
  | .movRegPtrReg rp rd => Sys2Proof.Machine.execMovRegPtrReg rp rd s
  | .movLitOffReg base ro rd => Sys2Proof.Machine.execMovLitOffReg base ro rd s
  | .addRegReg ra rb => Sys2Proof.Machine.execAddRegReg ra rb s
  | .addLitReg lit ra => Sys2Proof.Machine.execAddLitReg lit ra s
  | .subRegReg ra rb => Sys2Proof.Machine.execSubRegReg ra rb s
  | .subLitReg lit ra => Sys2Proof.Machine.execSubLitReg lit ra s
  | .mulRegReg ra rb => Sys2Proof.Machine.execMulRegReg ra rb s
  | .mulLitReg lit ra => Sys2Proof.Machine.execMulLitReg lit ra s
  | .incReg ra => Sys2Proof.Machine.execIncReg ra s
  | .decReg ra => Sys2Proof.Machine.execDecReg ra s
  | .andRegLit ra lit => Sys2Proof.Machine.execAndRegLit ra lit s
  | .andRegReg ra rb => Sys2Proof.Machine.execAndRegReg ra rb s
  | .orRegLit ra lit => Sys2Proof.Machine.execOrRegLit ra lit s
  | .orRegReg ra rb => Sys2Proof.Machine.execOrRegReg ra rb s
  | .xorRegLit ra lit => Sys2Proof.Machine.execXorRegLit ra lit s
  | .xorRegReg ra rb => Sys2Proof.Machine.execXorRegReg ra rb s
  | .notReg ra => Sys2Proof.Machine.execNotReg ra s
  | .lsfRegLit ra amt => Sys2Proof.Machine.execLsfRegLit ra amt s
  | .lsfRegReg ra rb => Sys2Proof.Machine.execLsfRegReg ra rb s
  | .rsfRegLit ra amt => Sys2Proof.Machine.execRsfRegLit ra amt s
  | .rsfRegReg ra rb => Sys2Proof.Machine.execRsfRegReg ra rb s
  | .jneLit val target => Sys2Proof.Machine.execJneLit val target s
  | .jneReg ra target => Sys2Proof.Machine.execJneReg ra target s
  | .jeqLit val target => Sys2Proof.Machine.execJeqLit val target s
  | .jeqReg ra target => Sys2Proof.Machine.execJeqReg ra target s
  | .jltLit val target => Sys2Proof.Machine.execJltLit val target s
  | .jltReg ra target => Sys2Proof.Machine.execJltReg ra target s
  | .jgtLit val target => Sys2Proof.Machine.execJgtLit val target s
  | .jgtReg ra target => Sys2Proof.Machine.execJgtReg ra target s
  | .jleLit val target => Sys2Proof.Machine.execJleLit val target s
  | .jleReg ra target => Sys2Proof.Machine.execJleReg ra target s
  | .jgeLit val target => Sys2Proof.Machine.execJgeLit val target s
  | .jgeReg ra target => Sys2Proof.Machine.execJgeReg ra target s
  | .pshLit lit => Sys2Proof.Machine.execPshLit lit s
  | .pshReg ra => Sys2Proof.Machine.execPshReg ra s
  | .pop rd => Sys2Proof.Machine.execPop rd s
  | .calLit target => Sys2Proof.Machine.execCalLit target s
  | .calReg ra => Sys2Proof.Machine.execCalReg ra s
  | .ret => Sys2Proof.Machine.execRet s
  | .hlt => Sys2Proof.Machine.execHlt s
  | .unknownOpcode opcode => Sys2Proof.Machine.execUnknownOpcode opcode s

end Sys2Proof.Machine
end

