-- ==== Sys2Proof/Machine/Step.lean ====
section
/-! DEFINITION. One step of the machine (30_encoding.md R103, 70_reset_and_hazards.md R236), and the placing of an
instruction where the next step fetches it. -/

namespace Sys2Proof.Machine

/-- `step()` (30_encoding.md R103): fetch the opcode and its operands, decode, execute. No step is taken from a terminal
state (70_reset_and_hazards.md R236, notes/assumptions/6.md). -/
def step (s : State) : Outcome State Fault Refusal :=
  match s.run with
  | .halted => .fault .stuckHalted
  | .faulted e => .fault (.stuckFaulted e)
  | .running =>
    match fetchBytes s with
    | .error e => raiseFatal e
    | .ok (bytes, t) =>
      match decode bytes with
      | .ok (i, _) => exec i t
      | .error _ => .refused .undecoded

/-- The state with bytes stored at the addresses that a fetch from `a` on reads, `a` advancing modulo 65536
(30_encoding.md R90); a byte that the bus cannot store is left out. -/
def storeBytes : List Byte → Word → State → State
  | [], _, s => s
  | b :: bs, a, s =>
    match memWrite8 a.toNat b s with
    | .ok t => storeBytes bs (a + 1) t
    | .error _ => storeBytes bs (a + 1) s

/-- The state with the instruction whose bits are `w` (every bit from `nbits` on 0, up to the longest instruction)
stored at `ip`, and the machine running: the program image that the host places before the run (70_reset_and_hazards.md
R232, notes/assumptions/7.md). -/
def State.withFetchWord (s : State) (nbits w : Nat) : State :=
  storeBytes (bytesOfNat maxLength (w % 2 ^ nbits)) (s.reg .ip) (s.setRun .running)

end Sys2Proof.Machine
end

