-- ==== Sys2Proof/Machine/HostInterface.lean ====
section
/-! DEFINITION. Everything the host can do to the machine, between steps (70_reset_and_hazards.md R234). The machine is
constructed by `State.construct`; the bus operations are `memRead8`, `memRead16`, `memWrite8`, `memWrite16`; one
instruction is `step`. -/

namespace Sys2Proof.Machine

/-! ## Devices, regions and the image -/

/-- A new device, and its number. -/
def addDevice (dev : Device) (s : State) : Nat × State :=
  (s.devices.length, { s with devices := s.devices ++ [dev] })

/-- `map(device, start, end, remap)` (20_memory.md R52): the new region goes to the front of the list. It never fails and
checks nothing (92_eei_decisions.md D18). -/
def mapRegion (device start stop : Nat) (remap : Bool) (s : State) : Nat × State :=
  (s.nextToken,
    { s with
      regions := { token := s.nextToken, device := device, start := start, stop := stop, remap := remap } :: s.regions
      nextToken := s.nextToken + 1 })

/-- `map` with the flag left out: `remap` defaults to true (20_memory.md R52). -/
def mapRegionDefault (device start stop : Nat) (s : State) : Nat × State := mapRegion device start stop true s

/-- `unmap(token)` (20_memory.md R53): exactly that region goes, the order of the others stays; a token whose region is
gone does nothing (92_eei_decisions.md D18). -/
def unmapRegion (token : Nat) (s : State) : State :=
  { s with regions := s.regions.filter fun r => r.token != token }

/-- Load image bytes into a device from a device-local address on (70_reset_and_hazards.md R232), by the device's own
`setUint8`. -/
def loadImage (device : Nat) : List Byte → Nat → State → Access State
  | [], _, s => .ok s
  | b :: bs, a, s => do
    let s ← deviceSet8 device a b s
    loadImage device bs (a + 1) s

/-! ## Registers by name (10_state.md R38) -/

/-- The register of a name, spelled exactly as 10_state.md R20 spells it. -/
def regOfName (name : String) : Option Reg :=
  if name = "ip" then some .ip else if name = "acc" then some .acc else if name = "r1" then some .r1
  else if name = "r2" then some .r2 else if name = "r3" then some .r3 else if name = "r4" then some .r4
  else if name = "r5" then some .r5 else if name = "r6" then some .r6 else if name = "r7" then some .r7
  else if name = "r8" then some .r8 else if name = "sp" then some .sp else if name = "fp" then some .fp else none

/-- The name of a register (10_state.md R20). -/
def regName : Reg → String
  | .ip => "ip" | .acc => "acc" | .r1 => "r1" | .r2 => "r2" | .r3 => "r3" | .r4 => "r4"
  | .r5 => "r5" | .r6 => "r6" | .r7 => "r7" | .r8 => "r8" | .sp => "sp" | .fp => "fp"

/-- `getRegister(name)` (10_state.md R38, 60_exceptions.md R215). -/
def getRegister (name : String) (s : State) : Access Word :=
  match regOfName name with
  | some r => .ok (s.reg r)
  | none => .error (.registerLookupError name)

/-- `setRegister(name, v)`: any integer, stored modulo 65536 (10_state.md R21, R38). -/
def setRegister (name : String) (v : Int) (s : State) : Access State :=
  match regOfName name with
  | some r => .ok (s.setReg r (BitVec.ofInt 16 v))
  | none => .error (.registerLookupError name)

/-! ## Running -/

/-- What `step()` returns to the host: whether the machine halted, or the error (30_encoding.md R103, 60_exceptions.md
R213). None where no step exists or the step was refused. -/
def stepReturns (o : Outcome State Fault Refusal) : Option (Access Bool) :=
  match o with
  | .next t => some (.ok (decide (t.run = .halted)))
  | .fault (.fatal e) => some (.error e)
  | .fault .stuckHalted => none
  | .fault (.stuckFaulted _) => none
  | .refused _ => none

/-- The run state after a step from the run state `before` (00_scope.md R15, 60_exceptions.md R213): a fatal error makes
it `Faulted(kind, info)`; where no step exists it stays. -/
def runStateAfter (before : RunState) (o : Outcome State Fault Refusal) : RunState :=
  match o with
  | .next t => t.run
  | .fault (.fatal e) => .faulted e
  | .fault .stuckHalted => before
  | .fault (.stuckFaulted _) => before
  | .refused _ => before

/-- How a bounded run ends (70_reset_and_hazards.md R237, 92_eei_decisions.md D27). -/
inductive RunEnd where
  /-- HLT was executed; the state it left. -/
  | halted (s : State)
  /-- A step faulted (or was refused by name, as a fault's reason or a refusal's). -/
  | faulted (f : Fault)
  | refused (r : Refusal)
  /-- The model's own step bound ran out: not a machine state. -/
  | outOfFuel (s : State)
  deriving DecidableEq, Repr

/-- `run()` (30_encoding.md R104): step until halted, at most `fuel` steps. -/
def runFor : Nat → State → RunEnd
  | 0, s => .outOfFuel s
  | n + 1, s =>
    match step s with
    | .next t => if t.run = .halted then .halted t else runFor n t
    | .fault f => .faulted f
    | .refused r => .refused r

end Sys2Proof.Machine
end

