-- ==== Sys2Proof/Safety.lean ====
section
/-! DEFINITION. The terms that claims about the machine use: the reads of one byte and of one word of RAM that change
nothing, which accesses are served, what code a state holds, the frames of the instructions (10_state.md R29), and the
invariant of the machine. -/

namespace Sys2Proof

/-! ## Encoding -/

/-- The opcode map gives every instruction a byte and no byte to two instructions (30_encoding.md R97: "any injective
assignment of 45 distinct byte values"). -/
def OpcodeMap.Valid (m : OpcodeMap) : Prop := (∀ op : Op, op ∈ m.map Prod.fst) ∧ (m.map Prod.snd).Nodup

/-- The length of the instruction that an opcode byte begins (30_encoding.md R95, R99). -/
def opcodeLength (b : Byte) : Nat := 1 + ((config.opcodeMap.fieldsOf b).map Field.size).sum

/-- The bytes of operand fields with every register byte reduced to its canonical one (30_encoding.md R94). -/
def canonicalFields : List Field → List Byte → List Byte
  | .reg :: fs, b :: bs => BitVec.ofNat 8 (b.toNat % 12) :: canonicalFields fs bs
  | .word :: fs, h :: l :: bs => h :: l :: canonicalFields fs bs
  | _, _ => []

/-- The bytes of an instruction with every register byte reduced to its canonical one (30_encoding.md R94). -/
def canonicalBytes : List Byte → List Byte
  | [] => []
  | b :: bs => b :: canonicalFields (config.opcodeMap.fieldsOf b) bs

/-! ## Frames (10_state.md R29) -/

/-- The instructions that push or pop: the only ones that read or write `sfs` (10_state.md R29). -/
def Instr.usesStack : Instr → Bool
  | .pshLit _ | .pshReg _ | .pop _ | .calLit _ | .calReg _ | .ret => true
  | .movLitReg _ _ | .movRegReg _ _ | .movRegMem _ _ | .movMemReg _ _ | .movLitMem _ _ | .movRegPtrReg _ _
  | .movLitOffReg _ _ _ | .addRegReg _ _ | .addLitReg _ _ | .subRegReg _ _ | .subLitReg _ _ | .mulRegReg _ _
  | .mulLitReg _ _ | .incReg _ | .decReg _ | .andRegLit _ _ | .andRegReg _ _ | .orRegLit _ _ | .orRegReg _ _
  | .xorRegLit _ _ | .xorRegReg _ _ | .notReg _ | .lsfRegLit _ _ | .lsfRegReg _ _ | .rsfRegLit _ _ | .rsfRegReg _ _
  | .jneLit _ _ | .jneReg _ _ | .jeqLit _ _ | .jeqReg _ _ | .jltLit _ _ | .jltReg _ _ | .jgtLit _ _ | .jgtReg _ _
  | .jleLit _ _ | .jleReg _ _ | .jgeLit _ _ | .jgeReg _ _ | .hlt | .unknownOpcode _ => false

/-- The instructions that store to memory (20_memory.md R64: data stores and stack writes). -/
def Instr.stores : Instr → Bool
  | .movRegMem _ _ | .movLitMem _ _ | .pshLit _ | .pshReg _ | .calLit _ | .calReg _ => true
  | .movLitReg _ _ | .movRegReg _ _ | .movMemReg _ _ | .movRegPtrReg _ _
  | .movLitOffReg _ _ _ | .addRegReg _ _ | .addLitReg _ _ | .subRegReg _ _ | .subLitReg _ _ | .mulRegReg _ _
  | .mulLitReg _ _ | .incReg _ | .decReg _ | .andRegLit _ _ | .andRegReg _ _ | .orRegLit _ _ | .orRegReg _ _
  | .xorRegLit _ _ | .xorRegReg _ _ | .notReg _ | .lsfRegLit _ _ | .lsfRegReg _ _ | .rsfRegLit _ _ | .rsfRegReg _ _
  | .jneLit _ _ | .jneReg _ _ | .jeqLit _ _ | .jeqReg _ _ | .jltLit _ _ | .jltReg _ _ | .jgtLit _ _ | .jgtReg _ _
  | .jleLit _ _ | .jleReg _ _ | .jgeLit _ _ | .jgeReg _ _ | .pop _ | .ret | .hlt | .unknownOpcode _ => false

/-- The registers an instruction writes after its fetches: the register its destination operand names, and those of the
table of 10_state.md R29. -/
def Instr.writtenRegs : Instr → List Reg
  | .movLitReg _ rd | .movRegReg _ rd | .movMemReg _ rd | .movRegPtrReg _ rd | .movLitOffReg _ _ rd => [rd]
  | .movRegMem _ _ | .movLitMem _ _ => []
  | .addRegReg _ _ | .addLitReg _ _ | .subRegReg _ _ | .subLitReg _ _ | .mulRegReg _ _ | .mulLitReg _ _ => [.acc]
  | .incReg ra | .decReg ra => [ra]
  | .andRegLit ra _ | .andRegReg ra _ | .orRegLit ra _ | .orRegReg ra _ | .xorRegLit ra _ | .xorRegReg ra _ => [ra]
  | .notReg ra | .lsfRegLit ra _ | .lsfRegReg ra _ | .rsfRegLit ra _ | .rsfRegReg ra _ => [ra]
  | .jneLit _ _ | .jneReg _ _ | .jeqLit _ _ | .jeqReg _ _ | .jltLit _ _ | .jltReg _ _ | .jgtLit _ _ | .jgtReg _ _
  | .jleLit _ _ | .jleReg _ _ | .jgeLit _ _ | .jgeReg _ _ => [.ip]
  | .pshLit _ | .pshReg _ => [.sp]
  | .pop rd => [.sp, rd]
  | .calLit _ | .calReg _ => [.sp, .fp, .ip]
  | .ret => [.sp, .ip, .r8, .r7, .r6, .r5, .r4, .r3, .r2, .r1, .fp]
  | .hlt | .unknownOpcode _ => []

namespace Machine

/-! ## Reading RAM without changing anything -/

/-- Byte `a` of RAM device `d`; none where `d` is no RAM device or has no such byte. -/
def State.ramCell? (s : State) (d a : Nat) : Option Byte :=
  match s.device d with
  | .ram size cells => if a < size then some (Memory.read cells a) else none
  | .peripheral => none

/-- The byte of RAM at a global address, routed as the bus routes a byte access. -/
def State.ramByte? (s : State) (a : Nat) : Option Byte :=
  match s.locate a with
  | some (d, x) => s.ramCell? d x
  | none => none

/-- The word of RAM at a global address, routed as the bus routes a word access: by the first byte alone (20_memory.md
R58), high byte first (R57). -/
def State.ramWord? (s : State) (a : Nat) : Option Word :=
  match s.locate a with
  | some (d, x) =>
    match s.ramCell? d x, s.ramCell? d (x + 1) with
    | some h, some l => some (wordOfBytes h l)
    | _, _ => none
  | none => none

/-- A word access at the global address is served, by a RAM device that has both bytes or by a peripheral. -/
def State.servesWord (s : State) (a : Nat) : Bool :=
  match s.locate a with
  | some (d, x) =>
    match s.device d with
    | .ram size _ => decide (x + 1 < size)
    | .peripheral => true
  | none => false

/-- The fatal error of a word access at the global address that is not served (60_exceptions.md R211, R212). -/
def State.wordError (s : State) (a : Nat) : FatalError :=
  match s.locate a with
  | some (_, x) => .deviceRangeError x
  | none => .addressError a

/-- RAM holds the operand bytes `bs` of the fields from address `a` on, each as its fetch reads it (30_encoding.md
R101): a register byte by a byte access, a 16-bit operand by one word access, the address advancing modulo 65536. -/
def State.holdsFields (s : State) : List Field → List Byte → Word → Prop
  | [], [], _ => True
  | .reg :: fs, b :: bs, a => s.ramByte? a.toNat = some b ∧ s.holdsFields fs bs (a + 1)
  | .word :: fs, h :: l :: bs, a => s.ramWord? a.toNat = some (wordOfBytes h l) ∧ s.holdsFields fs bs (a + 2)
  | _, _, _ => False

/-- RAM holds the bytes of one instruction at `ip`. -/
def State.holdsCode (s : State) : List Byte → Prop
  | [] => False
  | b :: bs =>
    s.ramByte? (s.reg .ip).toNat = some b ∧ s.holdsFields (config.opcodeMap.fieldsOf b) bs (s.reg .ip + 1)

/-! ## Frames -/

/-- Nothing but registers differs: `sfs`, the run state, the bus, the devices with every byte, the events. -/
def State.sameBeyondRegs (s t : State) : Prop :=
  t.sfs = s.sfs ∧ t.run = s.run ∧ t.regions = s.regions ∧ t.nextToken = s.nextToken ∧ t.history = s.history ∧
    t.devices = s.devices ∧ (∀ d a, t.ramCell? d a = s.ramCell? d a) ∧ ∀ a, t.ramByte? a = s.ramByte? a

/-- `t` is `s` with register `rd` holding `v` and everything else unchanged. -/
def State.onlyRegWritten (s t : State) (rd : Reg) (v : Word) : Prop :=
  t.reg rd = v ∧ (∀ r, r ≠ rd → t.reg r = s.reg r) ∧ s.sameBeyondRegs t

/-- Every byte of every RAM device but bytes `x` and `x + 1` of device `d` is unchanged. -/
def State.sameCellsBut (s t : State) (d x : Nat) : Prop :=
  ∀ d' a, ¬(d' = d ∧ (a = x ∨ a = x + 1)) → t.ramCell? d' a = s.ramCell? d' a

/-- The word `v` is stored where the bus routes a word access at `a`, in a RAM device, high byte first (20_memory.md R57,
R58); no other byte of any device, no region, no event and no run state differs. -/
def State.wordStored (s t : State) (a : Nat) (v : Word) : Prop :=
  ∃ d x, s.locate a = some (d, x) ∧ t.ramCell? d x = some (hiByte v) ∧ t.ramCell? d (x + 1) = some (loByte v) ∧
    s.sameCellsBut t d x ∧ t.regions = s.regions ∧ t.nextToken = s.nextToken ∧ t.history = s.history ∧ t.run = s.run

/-- `v` is pushed: stored at `sp`, then `sp` is 2 lower and `sfs` 2 higher (44_stack.md R180); no other register
differs. -/
def State.wordPushed (s t : State) (v : Word) : Prop :=
  s.wordStored t (pushAddress s) v ∧ t.reg .sp = s.reg .sp - 2 ∧ (∀ r, r ≠ .sp → t.reg r = s.reg r) ∧ t.sfs = s.sfs + 2

/-- Nothing but registers, `sfs` and the run state differs: the bus, the devices with every byte, the events. -/
def State.sameMemory (s t : State) : Prop :=
  t.regions = s.regions ∧ t.nextToken = s.nextToken ∧ t.history = s.history ∧ t.devices = s.devices ∧
    (∀ d a, t.ramCell? d a = s.ramCell? d a) ∧ ∀ a, t.ramByte? a = s.ramByte? a

/-- The address of the `k`-th word that a call pushes, counted from 0 (45_subroutine.md R190): `sp` less `2 * k`. -/
def State.frameAddress (s : State) (k : Nat) : Nat := (s.reg .sp - BitVec.ofNat 16 (2 * k)).toNat

/-- The address of the `k`-th word that a return pops, counted from 0 (45_subroutine.md R191): `fp` plus `2 + 2 * k`. -/
def State.returnAddress (s : State) (k : Nat) : Nat := (s.reg .fp + BitVec.ofNat 16 (2 + 2 * k)).toNat

/-- The `k`-th word that a call pushes (45_subroutine.md R190): `r1` to `r8`, the return address, and the marker, `sfs`
plus 20. -/
def State.frameWord (s : State) (k : Nat) : Word :=
  match savedRegs[k]? with
  | some r => s.reg r
  | none => if k = 8 then s.reg .ip else s.sfs + 20

/-- Byte `a` of device `d` is one of the two bytes of a word access at global address `p` (20_memory.md R58). -/
def State.covers (s : State) (p d a : Nat) : Bool :=
  match s.locate p with
  | some (e, x) => decide (e = d ∧ (a = x ∨ a = x + 1))
  | none => false

/-- A word access at `p` and one at `q` have no byte in common. -/
def State.apart (s : State) (p q : Nat) : Bool :=
  match s.locate p with
  | some (d, x) => !s.covers q d x && !s.covers q d (x + 1)
  | none => true

/-- RAM holds the ten words of a call's frame, and no two of them have a byte in common. -/
def State.frameInRam (s : State) : Prop :=
  (∀ k, k < 10 → (s.ramWord? (s.frameAddress k)).isSome = true) ∧
    ∀ k, k < 10 → ∀ j, j < k → s.apart (s.frameAddress j) (s.frameAddress k) = true

/-- The event of a word access at global address `a` with the value `w`: one where the address is routed to a peripheral,
none elsewhere (20_memory.md R62). `kind` says whether it is a read or a write. -/
def State.wordEvent? (s : State) (kind : Nat → Nat → Word → Event) (a : Nat) (w : Word) : Option Event :=
  match s.locate a with
  | some (d, x) =>
    match s.device d with
    | .ram _ _ => none
    | .peripheral => some (kind d x w)
  | none => none

/-- The events of a call, in the order of its pushes (45_subroutine.md R190). -/
def State.callEvents (s : State) : List Event :=
  (List.range 10).filterMap fun k => s.wordEvent? .write16 (s.frameAddress k) (s.frameWord k)

/-- The events of a return that pops the words `ws`, in the order of its pops (45_subroutine.md R191). -/
def State.returnEvents (s : State) (ws : List Word) : List Event :=
  ws.zipIdx.filterMap fun p => s.wordEvent? .read16 (s.returnAddress p.2) p.1

/-- The registers after a call to `target` (45_subroutine.md R190, R192): `sp` and `fp` 20 lower than `sp` was, `ip` at
the target, every other register and the run state unchanged, `sfs` 0. -/
def State.calledFrom (s t : State) (target : Word) : Prop :=
  t.reg .ip = target ∧ t.reg .sp = s.reg .sp - 20 ∧ t.reg .fp = s.reg .sp - 20 ∧
    (∀ r, r ≠ .ip → r ≠ .sp → r ≠ .fp → t.reg r = s.reg r) ∧ t.sfs = 0 ∧ t.run = s.run

/-- The reference map (20_memory.md R72): one region over the whole address space, device 0, a RAM of that size. -/
def State.inReferenceMap (s : State) : Prop :=
  s.regions = referenceRegions ∧ ∃ cells, s.device 0 = .ram addrSpace cells

/-! ## The invariant -/

/-- The contents of a device are in the canonical form and within its size. -/
def deviceWf : Device → Prop
  | .ram size cells => Memory.wf cells ∧ ∀ c ∈ cells, c.1 < size
  | .peripheral => True

/-- The device of an event. -/
def eventDevice : Event → Nat
  | .read8 d _ _ | .read16 d _ _ | .write8 d _ _ | .write16 d _ _ => d

/-- The size of a RAM device; none for a peripheral. -/
def deviceSize? : Device → Option Nat
  | .ram size _ => some size
  | .peripheral => none

/-- What every run keeps: canonical device contents, regions with distinct tokens below the next one and with devices
that exist, and no faulted state (the spec's step leads to none, it answers the fault: 60_exceptions.md R214). -/
def State.Inv (s : State) : Prop :=
  (∀ dev ∈ s.devices, deviceWf dev) ∧ (s.regions.map Region.token).Nodup ∧ (∀ r ∈ s.regions, r.token < s.nextToken) ∧
    (∀ r ∈ s.regions, r.device < s.devices.length) ∧ ∀ e, s.run ≠ .faulted e

end Machine

end Sys2Proof
end

