-- ==== Sys2Proof/Certificates/Slice0/Obligations.lean ====
section
/-! DEFINITION. The statements about the machine, for the provers. Each formalises the rules of spec/ that its entry in
OBLIGATIONS.json cites; where one rests on a decision of 92_eei_decisions.md or on an entry of the assumption log, its
docstring names it. -/

open Sys2Proof Sys2Proof.Machine

/-- For every opcode map that gives each of the 45 instructions a byte and no byte to two of them, every instruction
that is well formed under the map, with every operand, and whatever bytes follow, the decoder reads from the encoder's
bytes exactly that instruction and leaves exactly the bytes that follow. (30_encoding.md R95, 30_encoding.md R96,
30_encoding.md R97, 30_encoding.md R100) -/
def Obligations.DecodeAfterEncodeIsIdentity : Prop :=
  ∀ (m : OpcodeMap) (i : Instr) (rest : List Byte), m.Valid → i.wellFormedIn m = true →
    decodeWith m (encodeWith m i ++ rest) = .ok (i, rest)

/-- Whatever bytes the decoder reads an instruction from, it uses up a front part of them, and encoding the
instruction gives that front part back with each register byte b replaced by b mod 12; the instruction is well formed.
(30_encoding.md R94, 30_encoding.md R93) -/
def Obligations.EncodeAfterDecodeIsCanonical : Prop :=
  ∀ (bs : List Byte) (i : Instr) (rest : List Byte), decode bs = .ok (i, rest) →
    i.wellFormed = true ∧ ∃ used, bs = used ++ rest ∧ encode i = canonicalBytes used

/-- Every RegisterIndex byte b, 0 to 255, selects the register whose index is b mod 12; whatever the byte, the
decoding of an instruction with that register byte succeeds. (R93) -/
def Obligations.RegisterByteSelectsModuloTwelve : Prop :=
  ∀ b : Byte, (regOfByte b).index = b.toNat % 12 ∧
    ∀ rest, decode (0x35 :: b :: rest) = .ok (.incReg (regOfByte b), rest)

/-- For every opcode byte and whatever bytes follow, as many as that byte asks for or more: decoding succeeds, uses
exactly the length that the opcode byte alone determines, 1 to 5 bytes, and 1 for an unknown opcode. (R100) -/
def Obligations.EveryByteSequenceDecodes : Prop :=
  ∀ (b : Byte) (bs : List Byte), opcodeLength b ≤ (b :: bs).length →
    (∃ i rest, decode (b :: bs) = .ok (i, rest) ∧ (b :: bs).length = opcodeLength b + rest.length) ∧
      1 ≤ opcodeLength b ∧ opcodeLength b ≤ 5 ∧ (config.opcodeMap.unassigned b = true → opcodeLength b = 1)

/-- The opcode map of the hardware (numbers: the spec's own decision D1) gives each of the 45 instructions a byte and
no byte to two of them, and the bytes it gives to none are exactly 0x00 to 0x0F, 0x19, 0x1E, 0x22 to 0x25, 0x28, 0x29,
0x2C, 0x2D, 0x37 to 0x3D, 0x4A to 0x5D and 0x61 to 0xFE. (30_encoding.md R97, 30_encoding.md R99) -/
def Obligations.UnknownOpcodesAreTheListed211 : Prop :=
  config.opcodeMap.Valid ∧ config.opcodeMap.length = 45 ∧
    ∀ b : Byte, config.opcodeMap.unassigned b = true ↔
      b.toNat ≤ 0x0F ∨ b.toNat = 0x19 ∨ b.toNat = 0x1E ∨ (0x22 ≤ b.toNat ∧ b.toNat ≤ 0x25) ∨ b.toNat = 0x28 ∨
        b.toNat = 0x29 ∨ b.toNat = 0x2C ∨ b.toNat = 0x2D ∨ (0x37 ≤ b.toNat ∧ b.toNat ≤ 0x3D) ∨
        (0x4A ≤ b.toNat ∧ b.toNat ≤ 0x5D) ∨ (0x61 ≤ b.toNat ∧ b.toNat ≤ 0xFE)

/-- For each of the 45 opcode bytes (numbers and operand order: the spec's own decisions D1 and D2) and every operand
byte, the decoder reads that row's instruction, its operands in the stream order of the table, a 16-bit operand high
byte first, a register byte modulo 12, and leaves the bytes that follow. (30_encoding.md R95, 30_encoding.md R96,
30_encoding.md R97) -/
def Obligations.OpcodeTableDecodes : Prop :=
  ∀ (a b h l h' l' : Byte) (rest : List Byte),
    decode (0x10 :: h :: l :: a :: rest) = .ok (.movLitReg (wordOfBytes h l) (regOfByte a), rest) ∧
    decode (0x11 :: a :: b :: rest) = .ok (.movRegReg (regOfByte a) (regOfByte b), rest) ∧
    decode (0x12 :: a :: h :: l :: rest) = .ok (.movRegMem (regOfByte a) (wordOfBytes h l), rest) ∧
    decode (0x13 :: h :: l :: a :: rest) = .ok (.movMemReg (wordOfBytes h l) (regOfByte a), rest) ∧
    decode (0x1B :: h :: l :: h' :: l' :: rest) = .ok (.movLitMem (wordOfBytes h l) (wordOfBytes h' l'), rest) ∧
    decode (0x1C :: a :: b :: rest) = .ok (.movRegPtrReg (regOfByte a) (regOfByte b), rest) ∧
    decode (0x1D :: h :: l :: a :: b :: rest) = .ok (.movLitOffReg (wordOfBytes h l) (regOfByte a) (regOfByte b), rest) ∧
    decode (0x14 :: a :: b :: rest) = .ok (.addRegReg (regOfByte a) (regOfByte b), rest) ∧
    decode (0x3F :: h :: l :: a :: rest) = .ok (.addLitReg (wordOfBytes h l) (regOfByte a), rest) ∧
    decode (0x1F :: a :: b :: rest) = .ok (.subRegReg (regOfByte a) (regOfByte b), rest) ∧
    decode (0x16 :: h :: l :: a :: rest) = .ok (.subLitReg (wordOfBytes h l) (regOfByte a), rest) ∧
    decode (0x21 :: a :: b :: rest) = .ok (.mulRegReg (regOfByte a) (regOfByte b), rest) ∧
    decode (0x20 :: h :: l :: a :: rest) = .ok (.mulLitReg (wordOfBytes h l) (regOfByte a), rest) ∧
    decode (0x35 :: a :: rest) = .ok (.incReg (regOfByte a), rest) ∧
    decode (0x36 :: a :: rest) = .ok (.decReg (regOfByte a), rest) ∧
    decode (0x2E :: a :: h :: l :: rest) = .ok (.andRegLit (regOfByte a) (wordOfBytes h l), rest) ∧
    decode (0x2F :: a :: b :: rest) = .ok (.andRegReg (regOfByte a) (regOfByte b), rest) ∧
    decode (0x30 :: a :: h :: l :: rest) = .ok (.orRegLit (regOfByte a) (wordOfBytes h l), rest) ∧
    decode (0x31 :: a :: b :: rest) = .ok (.orRegReg (regOfByte a) (regOfByte b), rest) ∧
    decode (0x32 :: a :: h :: l :: rest) = .ok (.xorRegLit (regOfByte a) (wordOfBytes h l), rest) ∧
    decode (0x33 :: a :: b :: rest) = .ok (.xorRegReg (regOfByte a) (regOfByte b), rest) ∧
    decode (0x34 :: a :: rest) = .ok (.notReg (regOfByte a), rest) ∧
    decode (0x26 :: a :: h :: l :: rest) = .ok (.lsfRegLit (regOfByte a) (wordOfBytes h l), rest) ∧
    decode (0x27 :: a :: b :: rest) = .ok (.lsfRegReg (regOfByte a) (regOfByte b), rest) ∧
    decode (0x2A :: a :: h :: l :: rest) = .ok (.rsfRegLit (regOfByte a) (wordOfBytes h l), rest) ∧
    decode (0x2B :: a :: b :: rest) = .ok (.rsfRegReg (regOfByte a) (regOfByte b), rest) ∧
    decode (0x15 :: h :: l :: h' :: l' :: rest) = .ok (.jneLit (wordOfBytes h l) (wordOfBytes h' l'), rest) ∧
    decode (0x40 :: a :: h :: l :: rest) = .ok (.jneReg (regOfByte a) (wordOfBytes h l), rest) ∧
    decode (0x41 :: h :: l :: h' :: l' :: rest) = .ok (.jeqLit (wordOfBytes h l) (wordOfBytes h' l'), rest) ∧
    decode (0x3E :: a :: h :: l :: rest) = .ok (.jeqReg (regOfByte a) (wordOfBytes h l), rest) ∧
    decode (0x43 :: h :: l :: h' :: l' :: rest) = .ok (.jltLit (wordOfBytes h l) (wordOfBytes h' l'), rest) ∧
    decode (0x42 :: a :: h :: l :: rest) = .ok (.jltReg (regOfByte a) (wordOfBytes h l), rest) ∧
    decode (0x45 :: h :: l :: h' :: l' :: rest) = .ok (.jgtLit (wordOfBytes h l) (wordOfBytes h' l'), rest) ∧
    decode (0x44 :: a :: h :: l :: rest) = .ok (.jgtReg (regOfByte a) (wordOfBytes h l), rest) ∧
    decode (0x47 :: h :: l :: h' :: l' :: rest) = .ok (.jleLit (wordOfBytes h l) (wordOfBytes h' l'), rest) ∧
    decode (0x46 :: a :: h :: l :: rest) = .ok (.jleReg (regOfByte a) (wordOfBytes h l), rest) ∧
    decode (0x49 :: h :: l :: h' :: l' :: rest) = .ok (.jgeLit (wordOfBytes h l) (wordOfBytes h' l'), rest) ∧
    decode (0x48 :: a :: h :: l :: rest) = .ok (.jgeReg (regOfByte a) (wordOfBytes h l), rest) ∧
    decode (0x17 :: h :: l :: rest) = .ok (.pshLit (wordOfBytes h l), rest) ∧
    decode (0x18 :: a :: rest) = .ok (.pshReg (regOfByte a), rest) ∧
    decode (0x1A :: a :: rest) = .ok (.pop (regOfByte a), rest) ∧
    decode (0x5E :: h :: l :: rest) = .ok (.calLit (wordOfBytes h l), rest) ∧
    decode (0x5F :: a :: rest) = .ok (.calReg (regOfByte a), rest) ∧
    decode (0x60 :: rest) = .ok (.ret, rest) ∧
    decode (0xFF :: rest) = .ok (.hlt, rest)

/-- One word of each family, written out from the spec's encoding: 10 12 34 02, 14 02 03, 35 0E, 2E 02 0F F0, 15 00 00
00 08, 1A 04, 5E 03 00, FF and the unknown 1E decode to the instructions they stand for. (30_encoding.md R96,
30_encoding.md R97) -/
def Obligations.WrittenOutWordsDecode : Prop :=
  decode [0x10, 0x12, 0x34, 0x02] = .ok (.movLitReg 0x1234 .r1, []) ∧
    decode [0x14, 0x02, 0x03] = .ok (.addRegReg .r1 .r2, []) ∧ decode [0x35, 0x0E] = .ok (.incReg .r1, []) ∧
    decode [0x2E, 0x02, 0x0F, 0xF0] = .ok (.andRegLit .r1 0x0FF0, []) ∧
    decode [0x15, 0x00, 0x00, 0x00, 0x08] = .ok (.jneLit 0x0000 0x0008, []) ∧ decode [0x1A, 0x04] = .ok (.pop .r3, []) ∧
    decode [0x5E, 0x03, 0x00] = .ok (.calLit 0x0300, []) ∧ decode [0xFF] = .ok (.hlt, []) ∧
    decode [0x1E, 0x12, 0x34] = .ok (.unknownOpcode 0x1E, [0x12, 0x34])

/-- In a running machine whose RAM holds at ip the bytes of one instruction, each byte where its fetch reads it, and
those bytes decode to the instruction, step answers what exec of the instruction answers at the state whose only
difference is that ip is past those bytes (modulo 65536). (30_encoding.md R102, 30_encoding.md R103) -/
def Obligations.StepRunsTheDecodedInstruction : Prop :=
  ∀ (s : State) (bytes : List Byte) (i : Instr), s.run = .running → s.holdsCode bytes → decode bytes = .ok (i, []) →
    step s = exec i (s.setReg .ip (s.reg .ip + BitVec.ofNat 16 bytes.length))

/-- From a running state, either a fetch raises a fatal error and the step faults with it, or the fetches bring bytes
that decode completely to a well-formed instruction and the step is exec of it at the state after the fetches, in
which ip is past the bytes, no other register, no sfs, run state, region or device differs, and only events of
peripherals may be added. (30_encoding.md R102, 30_encoding.md R103, 60_exceptions.md R213, 60_exceptions.md R219) -/
def Obligations.StepFetchesThenExecutes : Prop :=
  ∀ s : State, s.run = .running →
    (∃ e, fetchBytes s = .error e ∧ step s = .fault (.fatal e)) ∨
    ∃ bytes t i, fetchBytes s = .ok (bytes, t) ∧ decode bytes = .ok (i, []) ∧ i.wellFormed = true ∧ step s = exec i t ∧
      t.reg .ip = s.reg .ip + BitVec.ofNat 16 bytes.length ∧ (∀ r, r ≠ .ip → t.reg r = s.reg r) ∧ t.sfs = s.sfs ∧
      t.run = s.run ∧ t.regions = s.regions ∧ t.nextToken = s.nextToken ∧ t.devices = s.devices ∧
      ∃ es, t.history = s.history ++ es ∧ ∀ e ∈ es, s.device (eventDevice e) = .peripheral

/-- Halted and Faulted are terminal (the spec's own decision D17; the model names the stuck outcomes, log entry 6):
step answers the stuck fault there, and a step that answers a next state was taken from a running state.
(70_reset_and_hazards.md R236, 10_state.md R31) -/
def Obligations.NoStepFromATerminalState : Prop :=
  (∀ s : State, s.run = .halted → step s = .fault .stuckHalted) ∧
    (∀ (s : State) (e : FatalError), s.run = .faulted e → step s = .fault (.stuckFaulted e)) ∧
    ∀ s t : State, step s = .next t → s.run = .running

/-- From no state does step answer a refusal: every byte sequence decodes, every instruction may be executed at any
time, and an unknown opcode is no error. (30_encoding.md R100, 60_exceptions.md R216, 60_exceptions.md R222) -/
def Obligations.StepIsNeverRefused : Prop :=
  ∀ (s : State) (r : Refusal), step s ≠ .refused r

/-- If a step of a running machine faults, the fault is an AddressError with an address that no region of the machine
contains, or a DeviceRangeError with a device-local address at whose place, or at the place after it, the RAM device
of some region has no byte; never a RegisterLookupError or a stuck fault. (60_exceptions.md R210, 60_exceptions.md
R211, 60_exceptions.md R212, 60_exceptions.md R217) -/
def Obligations.RunningFaultsAreBusErrors : Prop :=
  ∀ (s : State) (f : Fault), s.run = .running → step s = .fault f →
    (∃ a, f = .fatal (.addressError a) ∧ resolve s.regions a = none) ∨
    ∃ x size, f = .fatal (.deviceRangeError x) ∧ size ≤ x + 1 ∧
      ∃ r ∈ s.regions, deviceSize? (s.device r.device) = some size

/-- In the reference map an AddressError of a running step comes from MOV_LIT_OFF_REG alone (its unreduced sum is the
spec's own decision D11), and carries base + x[ro], between 0x10000 and 0x1FFFE. (60_exceptions.md R211, 40_move.md
R127, 20_memory.md R68) -/
def Obligations.ReferenceMapAddressErrors : Prop :=
  ∀ (s : State) (a : Nat), s.inReferenceMap → s.run = .running → step s = .fault (.fatal (.addressError a)) →
    0x10000 ≤ a ∧ a ≤ 0x1FFFE ∧ ∃ bytes t base ro rd, fetchBytes s = .ok (bytes, t) ∧
      decode bytes = .ok (.movLitOffReg base ro rd, []) ∧ a = offsetAddress base ro t

/-- In the reference map a DeviceRangeError of a running step carries the address 0xFFFF. (20_memory.md R61,
60_exceptions.md R212, 70_reset_and_hazards.md R248) -/
def Obligations.ReferenceMapRangeErrors : Prop :=
  ∀ (s : State) (x : Nat), s.inReferenceMap → s.run = .running → step s = .fault (.fatal (.deviceRangeError x)) →
    x = 0xFFFF

/-- In a running machine, if no region contains ip the step is the fault AddressError(ip); if ip is routed to a RAM
device that has no byte there, it is the fault DeviceRangeError with the device-local address. (60_exceptions.md R211,
60_exceptions.md R212, 60_exceptions.md R213) -/
def Obligations.OpcodeFetchFaults : Prop :=
  ∀ s : State, s.run = .running →
    (resolve s.regions (s.reg .ip).toNat = none → step s = .fault (.fatal (.addressError (s.reg .ip).toNat))) ∧
    ∀ d x size cells, s.locate (s.reg .ip).toNat = some (d, x) → s.device d = .ram size cells → size ≤ x →
      step s = .fault (.fatal (.deviceRangeError x))

/-- Fetch8 answers the byte that MemRead(ip, 1) answers and leaves ip one higher than it was, Fetch16 the word of
MemRead(ip, 2) with ip two higher, both modulo 65536, and a fatal error of the read is raised; a fetched byte selects
the register of index byte mod 12. (R101) -/
def Obligations.FetchPrimitives : Prop :=
  ∀ s : State,
    (∀ b t, memRead8 (s.reg .ip).toNat s = .ok (b, t) →
      fetch8 s = .ok (b, t.setReg .ip (s.reg .ip + 1)) ∧ (regOfByte b).index = b.toNat % 12) ∧
    (∀ w t, memRead16 (s.reg .ip).toNat s = .ok (w, t) → fetch16 s = .ok (w, t.setReg .ip (s.reg .ip + 2))) ∧
    (∀ e, memRead8 (s.reg .ip).toNat s = .error e → fetch8 s = .error e) ∧
    ∀ e, memRead16 (s.reg .ip).toNat s = .error e → fetch16 s = .error e

/-- From every state that meets the invariant (the listed bytes of every RAM device in canonical form and within its
size, regions with distinct tokens below the next one and with devices that exist, the run state not Faulted), a step
that answers a next state answers one that meets it. The canonical form and the token counter are the model's own (log
entries 1 and 4). (10_state.md R31, 10_state.md R32, 20_memory.md R52, 20_memory.md R61, 60_exceptions.md R214) -/
def Obligations.StepKeepsTheInvariant : Prop :=
  ∀ s t : State, s.Inv → step s = .next t → t.Inv

/-- State.reset has canonical device contents, one region with a device that exists and a token below the next one,
and is not Faulted. (10_state.md R40, 20_memory.md R72) -/
def Obligations.ResetMeetsTheInvariant : Prop :=
  State.reset.Inv

/-- The register values, sfs, the run state and the region list after reset are those of the spec's table (its own
decisions D13 and D14); the empty history is the model's choice (log entry 3). (10_state.md R40, 20_memory.md R72) -/
def Obligations.ResetValues : Prop :=
  (∀ r, State.reset.reg r = if r = .sp ∨ r = .fp then 0xFFFE else 0) ∧ State.reset.sfs = 0 ∧
    State.reset.run = .running ∧ State.reset.inReferenceMap ∧ State.reset.history = []

/-- When a step answers a next state, the region list and the next token are what they were, there are as many
devices, each a RAM of the same size or a peripheral as before, and the history is the old one with events appended,
each of a device that is a peripheral. (10_state.md R32, 10_state.md R37, 20_memory.md R62, 20_memory.md R80) -/
def Obligations.StepKeepsTheBus : Prop :=
  ∀ s t : State, step s = .next t →
    t.regions = s.regions ∧ t.nextToken = s.nextToken ∧ t.devices.length = s.devices.length ∧
      (∀ d, deviceSize? (t.device d) = deviceSize? (s.device d)) ∧
      ∃ es, t.history = s.history ++ es ∧ ∀ e ∈ es, s.device (eventDevice e) = .peripheral

/-- When a step answers a next state, its run state is Halted if the fetched instruction is the one byte 0xFF, and
Running if not: no other instruction and no error produces Halted. (10_state.md R31, 46_halt_and_unknown.md R200) -/
def Obligations.HaltedOnlyByHlt : Prop :=
  ∀ s t : State, step s = .next t →
    (t.run = .halted ∨ t.run = .running) ∧ (t.run = .halted ↔ ∃ u, fetchBytes s = .ok ([0xFF], u))

/-- When an instruction other than PSH_LIT, PSH_REG, POP, CAL_LIT, CAL_REG and RET answers a next state, sfs is what
it was, whatever register it wrote, sp included. (10_state.md R29, 10_state.md R26, 70_reset_and_hazards.md R244) -/
def Obligations.SfsChangesOnlyByTheStack : Prop :=
  ∀ (i : Instr) (s t : State), i.usesStack = false → exec i s = .next t → t.sfs = s.sfs

/-- When an instruction that stores nothing answers a next state, every byte of every RAM device reads as before, by
device and by global address. (20_memory.md R64, 10_state.md R36) -/
def Obligations.MemoryChangesOnlyByStores : Prop :=
  ∀ (i : Instr) (s t : State), i.stores = false → exec i s = .next t →
    (∀ d a, t.ramCell? d a = s.ramCell? d a) ∧ ∀ a, t.ramByte? a = s.ramByte? a

/-- When an instruction answers a next state, every register outside its destination operand and the implicit writes
of the spec's table holds what it held. (10_state.md R28, 10_state.md R29) -/
def Obligations.OnlyTheListedRegistersAreWritten : Prop :=
  ∀ (i : Instr) (s t : State) (r : Reg), r ∉ i.writtenRegs → exec i s = .next t → t.reg r = s.reg r

/-- From a running state: a next state that is Running, and step() returns false; or a next state that is Halted, and
step() returns true; or a fatal error, which step() returns and which makes the run state Faulted with that error.
(00_scope.md R15, 30_encoding.md R103, 60_exceptions.md R213) -/
def Obligations.RunStateAfterAStep : Prop :=
  ∀ s : State, s.run = .running →
    (∃ t, step s = .next t ∧ t.run = .running ∧ stepReturns (step s) = some (.ok false)) ∨
    (∃ t, step s = .next t ∧ t.run = .halted ∧ stepReturns (step s) = some (.ok true)) ∨
    ∃ e, step s = .fault (.fatal e) ∧ stepReturns (step s) = some (.error e) ∧
      runStateAfter s.run (step s) = .faulted e

/-- However many steps a run is given (the bound is the model's, as the spec's decision D27 asks): it ends in a Halted
state, in a fatal error, or out of fuel in a state that is still Running; never refused, never stuck.
(70_reset_and_hazards.md R237, 30_encoding.md R104) -/
def Obligations.BoundedRunEndsInThreeWays : Prop :=
  ∀ (n : Nat) (s : State), s.run = .running →
    (∃ t, runFor n s = .halted t ∧ t.run = .halted) ∨ (∃ e, runFor n s = .faulted (.fatal e)) ∨
      ∃ t, runFor n s = .outOfFuel t ∧ t.run = .running

/-- For every address: if no region contains it, all four operations raise AddressError(address). If the list is some
regions that do not contain it, then a region r that does, then any regions, all four call the operation of the same
name on the device of r, with address - start if r remaps and the address itself if not. (R54, R55) -/
def Obligations.AccessesAreRoutedToTheNewestRegion : Prop :=
  ∀ (s : State) (a : Nat),
    ((∀ r ∈ s.regions, ¬(r.start ≤ a ∧ a ≤ r.stop)) →
      memRead8 a s = .error (.addressError a) ∧ memRead16 a s = .error (.addressError a) ∧
      (∀ v, memWrite8 a v s = .error (.addressError a)) ∧ ∀ v, memWrite16 a v s = .error (.addressError a)) ∧
    ∀ newer r older, s.regions = newer ++ r :: older → (∀ q ∈ newer, ¬(q.start ≤ a ∧ a ≤ q.stop)) →
      r.start ≤ a → a ≤ r.stop → ∀ x, x = (if r.remap = true then a - r.start else a) →
        memRead8 a s = deviceGet8 r.device x s ∧ memRead16 a s = deviceGet16 r.device x s ∧
        (∀ v, memWrite8 a v s = deviceSet8 r.device x v s) ∧ ∀ v, memWrite16 a v s = deviceSet16 r.device x v s

/-- map answers the next token and a state in which the new region, with that token, the device, the range and the
flag as given, stands first, the next token is one more, and nothing else differs; every address of the range goes to
the new device, every other address where it went before. In a state that meets the invariant no older region has that
token, and if the device exists the new state meets the invariant again, so no later token is one in use. remap
defaults to true. That tokens are numbers that count up is the model's choice (log entry 4). (20_memory.md R52,
20_memory.md R54) -/
def Obligations.MapPutsTheNewRegionFirst : Prop :=
  ∀ (s t : State) (d a b tok : Nat) (remap : Bool), mapRegion d a b remap s = (tok, t) →
    (∀ x, a ≤ x → x ≤ b → t.locate x = some (d, if remap = true then x - a else x)) ∧
    (∀ x, ¬(a ≤ x ∧ x ≤ b) → t.locate x = s.locate x) ∧
    (∃ r, t.regions = r :: s.regions ∧ r.token = tok ∧ r.device = d ∧ r.start = a ∧ r.stop = b ∧ r.remap = remap) ∧
    (s.Inv → ∀ r ∈ s.regions, r.token ≠ tok) ∧ (s.Inv → d < s.devices.length → t.Inv) ∧
    tok = s.nextToken ∧ t.nextToken = tok + 1 ∧
    t.regs = s.regs ∧ t.sfs = s.sfs ∧ t.run = s.run ∧ t.devices = s.devices ∧ t.history = s.history ∧
    mapRegionDefault d a b s = mapRegion d a b true s

/-- unmap of a token leaves the other regions in their order, and no register, sfs, run state, device, event or next
token differs, whether the token is in use or not. In a state that meets the invariant the invariant is met after it,
every region but the one of the token stays, an unused token changes nothing at all, and unmapping what was just
mapped gives the old region list back (unmap of a region that is gone does nothing: the spec's own decision D18).
(20_memory.md R53) -/
def Obligations.UnmapRemovesExactlyThatRegion : Prop :=
  ∀ (s : State) (tok : Nat),
    (unmapRegion tok s).regions.Sublist s.regions ∧
    (∀ r, r ∈ (unmapRegion tok s).regions ↔ r ∈ s.regions ∧ r.token ≠ tok) ∧
    ((∀ r ∈ s.regions, r.token ≠ tok) → unmapRegion tok s = s) ∧
    (s.Inv → ∀ r ∈ s.regions, r.token = tok → ∀ q ∈ s.regions, q ≠ r → q ∈ (unmapRegion tok s).regions) ∧
    (s.Inv → ∀ d a b remap, (unmapRegion (mapRegion d a b remap s).1 (mapRegion d a b remap s).2).regions = s.regions) ∧
    (s.Inv → (unmapRegion tok s).Inv) ∧
    (unmapRegion tok s).regs = s.regs ∧ (unmapRegion tok s).sfs = s.sfs ∧ (unmapRegion tok s).run = s.run ∧
    (unmapRegion tok s).devices = s.devices ∧ (unmapRegion tok s).history = s.history ∧
    (unmapRegion tok s).nextToken = s.nextToken

/-- Where RAM holds a word at a global address: writing v there succeeds, the two bytes of the device are the high
byte of v at the lower local address and the low byte after it, no other byte of any device, no register, no region
and no event differs, and reading the word at the same address answers v. (20_memory.md R74, 20_memory.md R57,
20_memory.md R61) -/
def Obligations.WordWriteThenReadGivesTheWord : Prop :=
  ∀ (s : State) (a : Nat) (v w : Word), s.ramWord? a = some w →
    ∃ t, memWrite16 a v s = .ok t ∧ s.wordStored t a v ∧ (∀ r, t.reg r = s.reg r) ∧ t.sfs = s.sfs ∧
      memRead16 a t = .ok (v, t)

/-- Where the first byte of a word access is routed to local address x of a RAM device, the word read is the device's
byte x times 256 plus its byte x + 1, wherever the next global address is routed; if the device has no byte x + 1,
reading and writing raise DeviceRangeError(x). (20_memory.md R57, 20_memory.md R58, 20_memory.md R61) -/
def Obligations.WordAccessIsServedByOneDevice : Prop :=
  ∀ (s : State) (a d x : Nat), s.locate a = some (d, x) →
    (∀ hi lo, s.ramCell? d x = some hi → s.ramCell? d (x + 1) = some lo →
      ∃ w, memRead16 a s = .ok (w, s) ∧ w.toNat = hi.toNat * 256 + lo.toNat) ∧
    ∀ size cells, s.device d = .ram size cells → size ≤ x + 1 →
      memRead16 a s = .error (.deviceRangeError x) ∧ ∀ v, memWrite16 a v s = .error (.deviceRangeError x)

/-- Where an address is routed to a peripheral: a byte or word read answers some value and appends one read event with
that value, a byte or word write appends one write event with the value written, and nothing else differs (the oracle
is the spec's own decision D22, log entries 2 and 3). (20_memory.md R62, 20_memory.md R65) -/
def Obligations.PeripheralAccessesAreEvents : Prop :=
  ∀ (s : State) (a d x : Nat), s.locate a = some (d, x) → s.device d = .peripheral →
    (∃ b, memRead8 a s = .ok (b, s.record (.read8 d x b))) ∧ (∃ w, memRead16 a s = .ok (w, s.record (.read16 d x w))) ∧
    (∀ b, memWrite8 a b s = .ok (s.record (.write8 d x b))) ∧ ∀ w, memWrite16 a w s = .ok (s.record (.write16 d x w))

/-- For each of the twelve names and every integer v: setRegister succeeds, getRegister then answers v mod 65536, and
nothing but that register differs. (R21) -/
def Obligations.RegistersByNameKeepValuesModulo65536 : Prop :=
  ∀ (s : State) (r : Reg) (v : Int), ∃ t w, setRegister (regName r) v s = .ok t ∧ getRegister (regName r) t = .ok w ∧
    (w.toNat : Int) = v % 65536 ∧ s.onlyRegWritten t r w

/-- getRegister and setRegister with a name that is none of the twelve raise RegisterLookupError with that name.
(60_exceptions.md R215, 10_state.md R38) -/
def Obligations.UnknownRegisterNamesAreErrors : Prop :=
  ∀ (s : State) (name : String) (v : Int), (∀ r, name ≠ regName r) →
    getRegister name s = .error (.registerLookupError name) ∧
      setRegister name v s = .error (.registerLookupError name)

/-- Loading bytes that fit into a RAM device from a local address on succeeds; each byte of the image then stands at
its place, every other byte of every device reads as before, and no register, region or event differs.
(70_reset_and_hazards.md R232, 20_memory.md R61) -/
def Obligations.LoadedImageIsRead : Prop :=
  ∀ (bs : List Byte) (s : State) (d a size : Nat) (cells : Memory), s.device d = .ram size cells → a + bs.length ≤ size →
    ∃ t, loadImage d bs a s = .ok t ∧ (∀ k b, bs[k]? = some b → t.ramCell? d (a + k) = some b) ∧
      (∀ d' x, ¬(d' = d ∧ a ≤ x ∧ x < a + bs.length) → t.ramCell? d' x = s.ramCell? d' x) ∧
      (∀ r, t.reg r = s.reg r) ∧ t.sfs = s.sfs ∧ t.run = s.run ∧ t.regions = s.regions ∧ t.history = s.history

/-- Where RAM holds a word at an address: after a store of v there, with nothing in between, Fetch16 at that address
answers v and Fetch8 answers the high byte of v. (20_memory.md R78, 70_reset_and_hazards.md R241) -/
def Obligations.StoredCodeIsFetched : Prop :=
  ∀ (s : State) (a v w : Word), s.ramWord? a.toNat = some w →
    ∃ t, memWrite16 a.toNat v s = .ok t ∧
      fetch16 (t.setReg .ip a) = .ok (v, t.setReg .ip (a + 2)) ∧
      fetch8 (t.setReg .ip a) = .ok (hiByte v, t.setReg .ip (a + 1))

/-- From every state, MOV_LIT_REG answers a next state in which rd holds the literal, MOV_REG_REG one in which rd
holds what rs held; no other register, no sfs and nothing else differs, whatever registers are named, ip and sp
included. (40_move.md R121, 40_move.md R122, 40_move.md R120) -/
def Obligations.RegisterMoves : Prop :=
  ∀ (s : State) (rs rd : Reg) (lit : Word),
    (∃ t, exec (.movLitReg lit rd) s = .next t ∧ s.onlyRegWritten t rd lit) ∧
    ∃ t, exec (.movRegReg rs rd) s = .next t ∧ s.onlyRegWritten t rd (s.reg rs)

/-- Where RAM holds a word at the address operand: MOV_REG_MEM answers a next state in which the word of rs,
MOV_LIT_MEM one in which the literal stands there, high byte first; no other byte of any device, no register, no sfs,
region or event differs. (40_move.md R123, 40_move.md R125, 20_memory.md R57) -/
def Obligations.StoresToRam : Prop :=
  ∀ (s : State) (rs : Reg) (lit addr w : Word), s.ramWord? (absoluteAddress addr) = some w →
    (∃ t, exec (.movRegMem rs addr) s = .next t ∧ s.wordStored t (absoluteAddress addr) (s.reg rs) ∧
      (∀ r, t.reg r = s.reg r) ∧ t.sfs = s.sfs) ∧
    ∃ t, exec (.movLitMem lit addr) s = .next t ∧ s.wordStored t (absoluteAddress addr) lit ∧
      (∀ r, t.reg r = s.reg r) ∧ t.sfs = s.sfs

/-- Where RAM holds a word at the address (the address operand; the value of rp; base plus the value of ro, not
reduced: the spec's own decision D11), the load answers a next state in which rd holds that word and nothing else
differs. (40_move.md R124, 40_move.md R126, 40_move.md R127) -/
def Obligations.LoadsFromRam : Prop :=
  ∀ (s : State) (rd rp : Reg) (addr w : Word),
    (s.ramWord? (absoluteAddress addr) = some w →
      ∃ t, exec (.movMemReg addr rd) s = .next t ∧ s.onlyRegWritten t rd w) ∧
    (s.ramWord? (pointerAddress rp s) = some w →
      ∃ t, exec (.movRegPtrReg rp rd) s = .next t ∧ s.onlyRegWritten t rd w) ∧
    (s.ramWord? (addr.toNat + (s.reg rp).toNat) = some w →
      ∃ t, exec (.movLitOffReg addr rp rd) s = .next t ∧ s.onlyRegWritten t rd w)

/-- Where the address of a data move is routed to a peripheral, the instruction completes: a store appends one write
event with the word, a load appends one read event and rd holds the value read, whatever it is (log entry 2); nothing
else differs. (20_memory.md R62, 40_move.md R123, 40_move.md R124, 40_move.md R125, 40_move.md R126, 40_move.md R127)
-/
def Obligations.LoadsAndStoresOfPeripherals : Prop :=
  ∀ (s : State) (rd rp : Reg) (lit addr : Word) (d x : Nat), s.device d = .peripheral →
    (s.locate (absoluteAddress addr) = some (d, x) →
      exec (.movRegMem rp addr) s = .next (s.record (.write16 d x (s.reg rp))) ∧
      exec (.movLitMem lit addr) s = .next (s.record (.write16 d x lit)) ∧
      ∃ v, exec (.movMemReg addr rd) s = .next ((s.record (.read16 d x v)).setReg rd v)) ∧
    (s.locate (pointerAddress rp s) = some (d, x) →
      ∃ v, exec (.movRegPtrReg rp rd) s = .next ((s.record (.read16 d x v)).setReg rd v)) ∧
    (s.locate (offsetAddress addr rp s) = some (d, x) →
      ∃ v, exec (.movLitOffReg addr rp rd) s = .next ((s.record (.read16 d x v)).setReg rd v))

/-- Where no region contains the address of a data move, the instruction is the fault AddressError with that address;
where it is routed to a RAM device that lacks one of the two bytes, the fault DeviceRangeError with the local address.
(60_exceptions.md R211, 60_exceptions.md R212, 40_move.md R120) -/
def Obligations.UnservedDataAccessesFault : Prop :=
  ∀ (s : State) (rd rp : Reg) (lit addr : Word),
    (s.servesWord (absoluteAddress addr) = false →
      exec (.movRegMem rp addr) s = .fault (.fatal (s.wordError (absoluteAddress addr))) ∧
      exec (.movLitMem lit addr) s = .fault (.fatal (s.wordError (absoluteAddress addr))) ∧
      exec (.movMemReg addr rd) s = .fault (.fatal (s.wordError (absoluteAddress addr)))) ∧
    (s.servesWord (pointerAddress rp s) = false →
      exec (.movRegPtrReg rp rd) s = .fault (.fatal (s.wordError (pointerAddress rp s)))) ∧
    (s.servesWord (offsetAddress addr rp s) = false →
      exec (.movLitOffReg addr rp rd) s = .fault (.fatal (s.wordError (offsetAddress addr rp s))))

/-- From every state, each of the six forms answers a next state in which acc holds the exact sum, difference or
product modulo 65536 and nothing else differs; SUB_REG_REG takes the second register from the first, SUB_LIT_REG the
literal from the register (the spec's own decision D4). (41_arithmetic.md R130, 41_arithmetic.md R131,
41_arithmetic.md R132, 41_arithmetic.md R133, 41_arithmetic.md R134, 41_arithmetic.md R135, 41_arithmetic.md R136) -/
def Obligations.ArithmeticIntoAcc : Prop :=
  ∀ (s : State) (ra rb : Reg) (lit : Word),
    (∃ t, exec (.addRegReg ra rb) s = .next t ∧
      s.onlyRegWritten t .acc (BitVec.ofNat 16 ((s.reg ra).toNat + (s.reg rb).toNat))) ∧
    (∃ t, exec (.addLitReg lit ra) s = .next t ∧
      s.onlyRegWritten t .acc (BitVec.ofNat 16 (lit.toNat + (s.reg ra).toNat))) ∧
    (∃ t, exec (.subRegReg ra rb) s = .next t ∧
      s.onlyRegWritten t .acc (BitVec.ofInt 16 ((s.reg ra).toNat - (s.reg rb).toNat : Int))) ∧
    (∃ t, exec (.subLitReg lit ra) s = .next t ∧
      s.onlyRegWritten t .acc (BitVec.ofInt 16 ((s.reg ra).toNat - lit.toNat : Int))) ∧
    (∃ t, exec (.mulRegReg ra rb) s = .next t ∧
      s.onlyRegWritten t .acc (BitVec.ofNat 16 ((s.reg ra).toNat * (s.reg rb).toNat))) ∧
    ∃ t, exec (.mulLitReg lit ra) s = .next t ∧
      s.onlyRegWritten t .acc (BitVec.ofNat 16 (lit.toNat * (s.reg ra).toNat))

/-- From every state, INC_REG answers a next state in which ra holds its value plus 1, DEC_REG its value minus 1,
modulo 65536, and nothing else differs, sfs included when ra is sp. (41_arithmetic.md R137, 41_arithmetic.md R138) -/
def Obligations.IncrementAndDecrementInPlace : Prop :=
  ∀ (s : State) (ra : Reg),
    (∃ t, exec (.incReg ra) s = .next t ∧ s.onlyRegWritten t ra (BitVec.ofNat 16 ((s.reg ra).toNat + 1))) ∧
    ∃ t, exec (.decReg ra) s = .next t ∧ s.onlyRegWritten t ra (BitVec.ofInt 16 ((s.reg ra).toNat - 1 : Int))

/-- From every state, each form answers a next state in which bit k of ra, for k from 0 to 15, is the operation on bit
k of the operands (for NOT, ra holds 0xFFFF less its value), and nothing else differs; acc is not written unless it is
ra. (42_logic_shift.md R140, 42_logic_shift.md R141, 42_logic_shift.md R142, 42_logic_shift.md R143, 42_logic_shift.md
R144, 42_logic_shift.md R145, 42_logic_shift.md R146, 42_logic_shift.md R147) -/
def Obligations.BitwiseInPlace : Prop :=
  ∀ (s : State) (ra rb : Reg) (lit : Word),
    (∃ t v, exec (.andRegLit ra lit) s = .next t ∧ s.onlyRegWritten t ra v ∧
      ∀ k, k < 16 → v.getLsbD k = ((s.reg ra).getLsbD k && lit.getLsbD k)) ∧
    (∃ t v, exec (.andRegReg ra rb) s = .next t ∧ s.onlyRegWritten t ra v ∧
      ∀ k, k < 16 → v.getLsbD k = ((s.reg ra).getLsbD k && (s.reg rb).getLsbD k)) ∧
    (∃ t v, exec (.orRegLit ra lit) s = .next t ∧ s.onlyRegWritten t ra v ∧
      ∀ k, k < 16 → v.getLsbD k = ((s.reg ra).getLsbD k || lit.getLsbD k)) ∧
    (∃ t v, exec (.orRegReg ra rb) s = .next t ∧ s.onlyRegWritten t ra v ∧
      ∀ k, k < 16 → v.getLsbD k = ((s.reg ra).getLsbD k || (s.reg rb).getLsbD k)) ∧
    (∃ t v, exec (.xorRegLit ra lit) s = .next t ∧ s.onlyRegWritten t ra v ∧
      ∀ k, k < 16 → v.getLsbD k = ((s.reg ra).getLsbD k ^^ lit.getLsbD k)) ∧
    (∃ t v, exec (.xorRegReg ra rb) s = .next t ∧ s.onlyRegWritten t ra v ∧
      ∀ k, k < 16 → v.getLsbD k = ((s.reg ra).getLsbD k ^^ (s.reg rb).getLsbD k)) ∧
    ∃ t v, exec (.notReg ra) s = .next t ∧ s.onlyRegWritten t ra v ∧ v.toNat = 0xFFFF - (s.reg ra).toNat

/-- From every state, each form answers a next state in which ra holds its value shifted by the literal or by the
value of rb, modulo 32 (the spec's own decision D6), zeros shifted in, and nothing else differs. (42_logic_shift.md
R149, 42_logic_shift.md R150, 42_logic_shift.md R151, 42_logic_shift.md R152, 42_logic_shift.md R148) -/
def Obligations.ShiftsInPlace : Prop :=
  ∀ (s : State) (ra rb : Reg) (amt : Word),
    (∃ t v, exec (.lsfRegLit ra amt) s = .next t ∧ s.onlyRegWritten t ra v ∧
      v.toNat = ((s.reg ra).toNat * 2 ^ (amt.toNat % 32)) % 65536) ∧
    (∃ t v, exec (.lsfRegReg ra rb) s = .next t ∧ s.onlyRegWritten t ra v ∧
      v.toNat = ((s.reg ra).toNat * 2 ^ ((s.reg rb).toNat % 32)) % 65536) ∧
    (∃ t v, exec (.rsfRegLit ra amt) s = .next t ∧ s.onlyRegWritten t ra v ∧
      v.toNat = (s.reg ra).toNat / 2 ^ (amt.toNat % 32)) ∧
    ∃ t v, exec (.rsfRegReg ra rb) s = .next t ∧ s.onlyRegWritten t ra v ∧
      v.toNat = (s.reg ra).toNat / 2 ^ ((s.reg rb).toNat % 32)

/-- From every state, each of the six literal forms answers a next state in which ip is the target if the literal
stands in the relation to acc (literal on the left: the spec's own decision D5; both read as 0 to 65535), and what it
was (the next instruction) if not; nothing else differs. (43_control_flow.md R160, 43_control_flow.md R161,
43_control_flow.md R163, 43_control_flow.md R165, 43_control_flow.md R167, 43_control_flow.md R169, 43_control_flow.md
R171) -/
def Obligations.LiteralJumps : Prop :=
  ∀ (s : State) (val target : Word),
    (∃ t, exec (.jneLit val target) s = .next t ∧
      s.onlyRegWritten t .ip (if val.toNat ≠ (s.reg .acc).toNat then target else s.reg .ip)) ∧
    (∃ t, exec (.jeqLit val target) s = .next t ∧
      s.onlyRegWritten t .ip (if val.toNat = (s.reg .acc).toNat then target else s.reg .ip)) ∧
    (∃ t, exec (.jltLit val target) s = .next t ∧
      s.onlyRegWritten t .ip (if val.toNat < (s.reg .acc).toNat then target else s.reg .ip)) ∧
    (∃ t, exec (.jgtLit val target) s = .next t ∧
      s.onlyRegWritten t .ip (if val.toNat > (s.reg .acc).toNat then target else s.reg .ip)) ∧
    (∃ t, exec (.jleLit val target) s = .next t ∧
      s.onlyRegWritten t .ip (if val.toNat ≤ (s.reg .acc).toNat then target else s.reg .ip)) ∧
    (∃ t, exec (.jgeLit val target) s = .next t ∧
      s.onlyRegWritten t .ip (if val.toNat ≥ (s.reg .acc).toNat then target else s.reg .ip))

/-- From every state, each of the six register forms answers a next state in which ip is the target if the value of ra
stands in the relation to acc (register on the left: the spec's own decision D5; both read as 0 to 65535), and what it
was (the next instruction) if not; nothing else differs. (43_control_flow.md R160, 43_control_flow.md R162,
43_control_flow.md R164, 43_control_flow.md R166, 43_control_flow.md R168, 43_control_flow.md R170, 43_control_flow.md
R172) -/
def Obligations.RegisterJumps : Prop :=
  ∀ (s : State) (ra : Reg) (target : Word),
    (∃ t, exec (.jneReg ra target) s = .next t ∧
      s.onlyRegWritten t .ip (if (s.reg ra).toNat ≠ (s.reg .acc).toNat then target else s.reg .ip)) ∧
    (∃ t, exec (.jeqReg ra target) s = .next t ∧
      s.onlyRegWritten t .ip (if (s.reg ra).toNat = (s.reg .acc).toNat then target else s.reg .ip)) ∧
    (∃ t, exec (.jltReg ra target) s = .next t ∧
      s.onlyRegWritten t .ip (if (s.reg ra).toNat < (s.reg .acc).toNat then target else s.reg .ip)) ∧
    (∃ t, exec (.jgtReg ra target) s = .next t ∧
      s.onlyRegWritten t .ip (if (s.reg ra).toNat > (s.reg .acc).toNat then target else s.reg .ip)) ∧
    (∃ t, exec (.jleReg ra target) s = .next t ∧
      s.onlyRegWritten t .ip (if (s.reg ra).toNat ≤ (s.reg .acc).toNat then target else s.reg .ip)) ∧
    (∃ t, exec (.jgeReg ra target) s = .next t ∧
      s.onlyRegWritten t .ip (if (s.reg ra).toNat ≥ (s.reg .acc).toNat then target else s.reg .ip))

/-- Where RAM holds a word at sp: PSH_LIT answers a next state in which the literal, PSH_REG one in which the value ra
had before the push stands there, high byte first, sp is 2 lower and sfs 2 higher modulo 65536, and no other byte of
any device, register, region or event differs. (44_stack.md R180, 44_stack.md R182, 44_stack.md R183) -/
def Obligations.PushesToRam : Prop :=
  ∀ (s : State) (ra : Reg) (lit w : Word), s.ramWord? (pushAddress s) = some w →
    (∃ t, exec (.pshLit lit) s = .next t ∧ s.wordPushed t lit) ∧
    ∃ t, exec (.pshReg ra) s = .next t ∧ s.wordPushed t (s.reg ra)

/-- Where RAM holds a word at sp plus 2 (reduced modulo 65536: the spec's own decision D20): POP answers a next state
in which rd holds that word, sp is 2 higher unless rd is sp, sfs is 2 lower, and no other register, no byte, region,
event or run state differs. (44_stack.md R181, 44_stack.md R184) -/
def Obligations.PopsFromRam : Prop :=
  ∀ (s : State) (rd : Reg) (w : Word), s.ramWord? (popAddress s) = some w →
    ∃ t, exec (.pop rd) s = .next t ∧ t.reg rd = w ∧ (rd ≠ .sp → t.reg .sp = s.reg .sp + 2) ∧
      (∀ r, r ≠ rd → r ≠ .sp → t.reg r = s.reg r) ∧ t.sfs = s.sfs - 2 ∧ t.run = s.run ∧ s.sameMemory t

/-- Where sp is routed to a peripheral, PSH_LIT and PSH_REG append one write event and move sp and sfs as always;
where sp plus 2 is, POP appends one read event, rd holds the value read and sp and sfs move as always; where the word
there is not served each faults with the error of that access. (44_stack.md R180, 44_stack.md R181, 20_memory.md R62,
60_exceptions.md R211, 60_exceptions.md R212) -/
def Obligations.StackAccessesElsewhere : Prop :=
  ∀ (s : State) (ra rd : Reg) (lit : Word),
    (∀ d x, s.locate (pushAddress s) = some (d, x) → s.device d = .peripheral →
      exec (.pshLit lit) s =
        .next (((s.record (.write16 d x lit)).setReg .sp (s.reg .sp - 2)).setSfs (s.sfs + 2)) ∧
      exec (.pshReg ra) s =
        .next (((s.record (.write16 d x (s.reg ra))).setReg .sp (s.reg .sp - 2)).setSfs (s.sfs + 2))) ∧
    (∀ d x, s.locate (popAddress s) = some (d, x) → s.device d = .peripheral →
      ∃ v, exec (.pop rd) s = .next
        ((((s.setReg .sp (s.reg .sp + 2)).setSfs (s.sfs - 2)).record (.read16 d x v)).setReg rd v)) ∧
    (s.servesWord (pushAddress s) = false →
      exec (.pshLit lit) s = .fault (.fatal (s.wordError (pushAddress s))) ∧
      exec (.pshReg ra) s = .fault (.fatal (s.wordError (pushAddress s)))) ∧
    (s.servesWord (popAddress s) = false → exec (.pop rd) s = .fault (.fatal (s.wordError (popAddress s))))

/-- Where RAM holds a word at sp: Push(v) and then Pop() succeed, Pop answers v, and every register (sp among them)
and sfs are what they were before the push. As instructions, PSH_LIT v and then POP rd leave v in rd, and every other
register and sfs as they were. A push below any bound or a pop from an empty stack is not checked: both complete
wherever RAM holds the word. (R185) -/
def Obligations.PushThenPopReturnsTheValue : Prop :=
  ∀ (s : State) (v w : Word), s.ramWord? (pushAddress s) = some w →
    (∃ t u, push v s = .ok t ∧ pop t = .ok (v, u) ∧ (∀ r, u.reg r = s.reg r) ∧ u.sfs = s.sfs) ∧
    ∀ rd, ∃ t u, exec (.pshLit v) s = .next t ∧ exec (.pop rd) t = .next u ∧ u.reg rd = v ∧
      (∀ r, r ≠ rd → u.reg r = s.reg r) ∧ u.sfs = s.sfs

/-- Where the word accesses at sp, sp - 2, ..., sp - 18 are served, by RAM or by peripherals: CAL_LIT answers a next
state with ip at the target, CAL_REG one with ip at the value ra had before the pushes, sp and fp 20 below the old sp,
sfs 0, and every other register and the run state unchanged. (45_subroutine.md R190, 45_subroutine.md R192,
45_subroutine.md R193) -/
def Obligations.CallCompletesWhereItsWordsAreServed : Prop :=
  ∀ (s : State) (ra : Reg) (target : Word), (∀ k, k < 10 → s.servesWord (s.frameAddress k) = true) →
    (∃ t, exec (.calLit target) s = .next t ∧ s.calledFrom t target) ∧
    ∃ t, exec (.calReg ra) s = .next t ∧ s.calledFrom t (s.reg ra)

/-- Whatever the map, when CAL_LIT or CAL_REG answers a next state: the k-th of its ten words is r1 to r8 for k from 0
to 7, the ip that the call saw (the address after it) for 8, sfs + 20 modulo 65536 for 9, and belongs at sp - 2 k. The
two bytes of RAM that the bus routes the k-th word to hold its high and its low byte, each unless a later one of the
ten words is routed over that byte; every other byte of every RAM device is unchanged, read by device or by global
address; the words that are routed to peripherals are write events appended to the history in the order of the pushes,
and there are no others; the region list and the next token are unchanged. Where RAM holds the ten words and no two
have a byte in common, each is read back at its address. (45_subroutine.md R190, 45_subroutine.md R196, 20_memory.md
R58, 20_memory.md R62) -/
def Obligations.CallWritesItsFrame : Prop :=
  ∀ (s t : State) (call : Instr) (ra : Reg) (target : Word), call = .calLit target ∨ call = .calReg ra →
    exec call s = .next t →
    (∀ k r, savedRegs[k]? = some r → s.frameWord k = s.reg r) ∧ s.frameWord 8 = s.reg .ip ∧
    s.frameWord 9 = s.sfs + 20 ∧
    (∀ k d x, k < 10 → s.locate (s.frameAddress k) = some (d, x) → s.device d ≠ .peripheral →
      ((∀ j, k < j → j < 10 → s.covers (s.frameAddress j) d x = false) →
        t.ramCell? d x = some (hiByte (s.frameWord k))) ∧
      ((∀ j, k < j → j < 10 → s.covers (s.frameAddress j) d (x + 1) = false) →
        t.ramCell? d (x + 1) = some (loByte (s.frameWord k)))) ∧
    (∀ d a, (∀ k, k < 10 → s.covers (s.frameAddress k) d a = false) → t.ramCell? d a = s.ramCell? d a) ∧
    (∀ a, (∀ d x, s.locate a = some (d, x) → ∀ k, k < 10 → s.covers (s.frameAddress k) d x = false) →
      t.ramByte? a = s.ramByte? a) ∧
    t.history = s.history ++ s.callEvents ∧ t.regions = s.regions ∧ t.nextToken = s.nextToken ∧
    (s.frameInRam → ∀ k, k < 10 → t.ramWord? (s.frameAddress k) = some (s.frameWord k))

/-- If the words at sp, sp - 2, ... before the k-th are served and the k-th (k below 10) is not, CAL_LIT and CAL_REG
fault with the error of that access. (45_subroutine.md R190, 60_exceptions.md R219, 60_exceptions.md R211,
60_exceptions.md R212) -/
def Obligations.CallFaultsAtItsFirstFailingPush : Prop :=
  ∀ (s : State) (ra : Reg) (target : Word) (k : Nat), k < 10 →
    (∀ j, j < k → s.servesWord (s.frameAddress j) = true) → s.servesWord (s.frameAddress k) = false →
    exec (.calLit target) s = .fault (.fatal (s.wordError (s.frameAddress k))) ∧
      exec (.calReg ra) s = .fault (.fatal (s.wordError (s.frameAddress k)))

/-- Where RAM holds, from fp + 2 up, a marker, a return address, eight words and a count n, and after them n more
words: RET answers a next state in which ip is the return address, r8 to r1 are the eight words in that order, sp is
fp + 22 + 2 n, fp is fp plus the marker as popped, sfs is the marker less 20 less 2 n, all modulo 65536; acc, the run
state and every byte of memory, region and event are unchanged (each dropped word is a real bus read: the spec's own
decision D21). (45_subroutine.md R191, 45_subroutine.md R194) -/
def Obligations.ReturnFromRam : Prop :=
  ∀ (s : State) (marker ret w8 w7 w6 w5 w4 w3 w2 w1 nArgs : Word),
    s.ramWord? (s.returnAddress 0) = some marker → s.ramWord? (s.returnAddress 1) = some ret →
    s.ramWord? (s.returnAddress 2) = some w8 → s.ramWord? (s.returnAddress 3) = some w7 →
    s.ramWord? (s.returnAddress 4) = some w6 → s.ramWord? (s.returnAddress 5) = some w5 →
    s.ramWord? (s.returnAddress 6) = some w4 → s.ramWord? (s.returnAddress 7) = some w3 →
    s.ramWord? (s.returnAddress 8) = some w2 → s.ramWord? (s.returnAddress 9) = some w1 →
    s.ramWord? (s.returnAddress 10) = some nArgs →
    (∀ j, j < nArgs.toNat → ∃ w, s.ramWord? (s.returnAddress (11 + j)) = some w) →
    ∃ t, exec .ret s = .next t ∧ t.reg .ip = ret ∧ t.reg .r8 = w8 ∧ t.reg .r7 = w7 ∧ t.reg .r6 = w6 ∧ t.reg .r5 = w5 ∧
      t.reg .r4 = w4 ∧ t.reg .r3 = w3 ∧ t.reg .r2 = w2 ∧ t.reg .r1 = w1 ∧ t.reg .acc = s.reg .acc ∧
      t.reg .sp = s.reg .fp + 22 + BitVec.ofNat 16 (2 * nArgs.toNat) ∧ t.reg .fp = s.reg .fp + marker ∧
      t.sfs = marker - 20 - BitVec.ofNat 16 (2 * nArgs.toNat) ∧ t.run = s.run ∧ s.sameMemory t

/-- Where the word accesses at fp + 2 + 2 k are served, by RAM or by peripherals, for every k that RET can reach
(below 11 plus the count where RAM holds the count word, every k where a peripheral answers it): RET answers a next
state, having popped a marker, a return address, eight words, a count n and n more words. Each of them that RAM holds
is the word there; each of them that a peripheral answered, whatever it is (log entry 2), is in the history as a read
event, in the order of the pops, and there are no other new events. Then ip is the return address, r8 to r1 are the
eight words in that order, fp is fp plus the marker, sp is fp + 22 + 2 n, sfs is the marker less 20 less 2 n; acc, the
run state, the region list, the next token and every byte of every RAM device are unchanged. (45_subroutine.md R191,
45_subroutine.md R194, 20_memory.md R62) -/
def Obligations.ReturnOverAnyDevices : Prop :=
  ∀ s : State, (∀ k, (∀ n, 11 ≤ k → s.ramWord? (s.returnAddress 10) = some n → k < 11 + n.toNat) →
      s.servesWord (s.returnAddress k) = true) →
    ∃ t, ∃ marker ret w8 w7 w6 w5 w4 w3 w2 w1 nArgs : Word, ∃ dropped ws : List Word, exec .ret s = .next t ∧
      ws = [marker, ret, w8, w7, w6, w5, w4, w3, w2, w1, nArgs] ++ dropped ∧ dropped.length = nArgs.toNat ∧
      (∀ k w v, ws[k]? = some w → s.ramWord? (s.returnAddress k) = some v → w = v) ∧
      t.history = s.history ++ s.returnEvents ws ∧ t.reg .ip = ret ∧ t.reg .r8 = w8 ∧ t.reg .r7 = w7 ∧
      t.reg .r6 = w6 ∧ t.reg .r5 = w5 ∧ t.reg .r4 = w4 ∧ t.reg .r3 = w3 ∧ t.reg .r2 = w2 ∧ t.reg .r1 = w1 ∧
      t.reg .fp = s.reg .fp + marker ∧ t.reg .sp = s.reg .fp + 22 + BitVec.ofNat 16 (2 * nArgs.toNat) ∧
      t.sfs = marker - 20 - BitVec.ofNat 16 (2 * nArgs.toNat) ∧ t.reg .acc = s.reg .acc ∧ t.run = s.run ∧
      t.regions = s.regions ∧ t.nextToken = s.nextToken ∧ t.devices = s.devices ∧
      ∀ d a, t.ramCell? d a = s.ramCell? d a

/-- If the words of RET's pops before the k-th are served, by RAM or by peripherals, and the k-th is not, where k is
below 11 or, RAM holding the count word, below 11 plus that count, RET faults with the error of that access.
(45_subroutine.md R191, 60_exceptions.md R219, 60_exceptions.md R211, 60_exceptions.md R212) -/
def Obligations.ReturnFaultsAtItsFirstFailingPop : Prop :=
  ∀ (s : State) (k : Nat), (∀ j, j < k → s.servesWord (s.returnAddress j) = true) →
    s.servesWord (s.returnAddress k) = false →
    (11 ≤ k → ∃ n, s.ramWord? (s.returnAddress 10) = some n ∧ k < 11 + n.toNat) →
    exec .ret s = .fault (.fatal (s.wordError (s.returnAddress k)))

/-- In any map where RAM holds the ten words of the frame and above them, at sp + 2, the word n that the caller pushed
last, no two of the eleven having a byte in common (the reference map with sp even is one): CAL_LIT and CAL_REG
complete, in the same map, and RET from any state in which the callee left fp and the eleven words above it as the
call set them, and in which the n words above those are served, completes and leaves r1 to r8 and ip as they were when
the call executed, acc as the callee left it, sp at its value at the call plus 2 plus 2 n, fp at the caller's sp plus
its sfs, which is the caller's fp where sfs equalled fp - sp, and sfs at its value at the call less 2 n, two more than
the true depth. (45_subroutine.md R195, 45_subroutine.md R197, 45_subroutine.md R198, 45_subroutine.md R199) -/
def Obligations.CalledFrameReturnsToItsCaller : Prop :=
  ∀ (s : State) (call : Instr) (ra : Reg) (target nArgs : Word), s.frameInRam →
    s.ramWord? (popAddress s) = some nArgs → (∀ k, k < 10 → s.apart (popAddress s) (s.frameAddress k) = true) →
    call = .calLit target ∨ call = .calReg ra →
    ∃ t, exec call s = .next t ∧ t.regions = s.regions ∧ (∀ a, t.servesWord a = s.servesWord a) ∧
      (s.inReferenceMap → t.inReferenceMap) ∧
      ∀ c : State, c.reg .fp = t.reg .fp →
        (∀ k, k < 11 → c.ramWord? (t.returnAddress k) = t.ramWord? (t.returnAddress k)) →
        (∀ j, j < nArgs.toNat → c.servesWord (t.returnAddress (11 + j)) = true) →
        ∃ u, exec .ret c = .next u ∧ (∀ r ∈ savedRegs, u.reg r = s.reg r) ∧ u.reg .ip = s.reg .ip ∧
          u.reg .acc = c.reg .acc ∧ u.reg .sp = s.reg .sp + 2 + BitVec.ofNat 16 (2 * nArgs.toNat) ∧
          u.reg .fp = s.reg .sp + s.sfs ∧ (s.sfs = s.reg .fp - s.reg .sp → u.reg .fp = s.reg .fp) ∧
          u.sfs = s.sfs - BitVec.ofNat 16 (2 * nArgs.toNat)

/-- From every state, HLT answers a next state whose run state is Halted and in which no register (ip is already past
the opcode: the spec's own decision D24), no sfs, byte, region or event differs. (46_halt_and_unknown.md R200) -/
def Obligations.HltHalts : Prop :=
  ∀ s : State, ∃ t, exec .hlt s = .next t ∧ t.run = .halted ∧ (∀ r, t.reg r = s.reg r) ∧ t.sfs = s.sfs ∧ s.sameMemory t

/-- The meaning of an unknown opcode changes nothing. In a running machine whose opcode fetch brings a byte that the
opcode map assigns to no instruction: the step answers the state after that one fetch, in which ip is one higher
modulo 65536, no other register, no sfs, run state, byte or region differs, the history is unchanged if the byte came
from RAM, and step() returns false. (R201) -/
def Obligations.UnknownOpcodeIsAOneByteNoOp : Prop :=
  (∀ (b : Byte) (s : State), exec (.unknownOpcode b) s = .next s) ∧
    ∀ (s t : State) (b : Byte), s.run = .running → fetch8 s = .ok (b, t) → config.opcodeMap.unassigned b = true →
      step s = .next t ∧ t.reg .ip = s.reg .ip + 1 ∧ (∀ r, r ≠ .ip → t.reg r = s.reg r) ∧ t.sfs = s.sfs ∧
      t.run = .running ∧ t.devices = s.devices ∧ t.regions = s.regions ∧
      (s.ramByte? (s.reg .ip).toNat = some b → t.history = s.history) ∧ stepReturns (step s) = some (.ok false)
end

