-- ==== Sys2Proof/Laws/Access.lean ====
section
/-! SUPPORT. Sequences of accesses taken apart: what it means that a sequence answers a result, and that it answers a
fatal error. -/

namespace Sys2Proof.Machine

@[simp] theorem Access.ok_bind {α β : Type} (a : α) (f : α → Access β) :
    ((Except.ok a : Access α) >>= f) = f a := rfl

@[simp] theorem Access.error_bind {α β : Type} (e : FatalError) (f : α → Access β) :
    ((Except.error e : Access α) >>= f) = .error e := rfl

@[simp] theorem Access.pure_eq {α : Type} (a : α) : (pure a : Access α) = .ok a := rfl

/-- A sequence answers a result when both its parts do. -/
theorem Access.bind_ok {α β : Type} {x : Access α} {f : α → Access β} {b : β} :
    (x >>= f) = .ok b ↔ ∃ a, x = .ok a ∧ f a = .ok b := by
  cases x <;> simp

/-- A sequence answers the error of its first failing part. -/
theorem Access.bind_error {α β : Type} {x : Access α} {f : α → Access β} {e : FatalError} :
    (x >>= f) = .error e ↔ x = .error e ∨ ∃ a, x = .ok a ∧ f a = .error e := by
  cases x <;> simp

@[simp] theorem complete_ok (s : State) : complete (.ok s) = .next s := rfl

@[simp] theorem complete_error (e : FatalError) : complete (.error e) = .fault (.fatal e) := rfl

/-- An instruction ends in a next state when its accesses do. -/
theorem complete_next {x : Access State} {t : State} : complete x = .next t ↔ x = .ok t := by
  cases x <;> simp [complete, raiseFatal]

/-- An instruction faults with the fatal error of its accesses, and with nothing else. -/
theorem complete_fault {x : Access State} {f : Fault} : complete x = .fault f ↔ ∃ e, x = .error e ∧ f = .fatal e := by
  cases x <;> simp [complete, raiseFatal, eq_comm]

/-- No instruction that ends its accesses is refused. -/
theorem complete_not_refused (x : Access State) (r : Refusal) : complete x ≠ .refused r := by
  cases x <;> simp [complete, raiseFatal]

end Sys2Proof.Machine
end

