-- ==== Sys2Proof/Laws/Memory.lean ====
section
/-! SUPPORT. The bytes of a RAM device: what a write changes, and that it keeps the canonical form. -/

namespace Sys2Proof.Machine

theorem Memory.read_erase_same (m : Memory) (a : Nat) : Memory.read (m.erase a) a = Memory.unlisted := by
  induction m with
  | nil => rfl
  | cons c m ih =>
    obtain ⟨k, x⟩ := c
    by_cases h : k = a
    · simpa [Memory.erase, h] using ih
    · simpa [Memory.erase, h, Memory.read] using ih

theorem Memory.read_erase_ne (m : Memory) {a b : Nat} (h : b ≠ a) : Memory.read (m.erase a) b = m.read b := by
  induction m with
  | nil => rfl
  | cons c m ih =>
    obtain ⟨k, x⟩ := c
    by_cases hk : k = a
    · have : k ≠ b := fun e => h (e.symm.trans hk)
      simpa [Memory.erase, hk, Memory.read, hk ▸ this] using ih
    · by_cases hb : k = b
      · simp [Memory.erase, Memory.read, hb, h]
      · simpa [Memory.erase, hk, Memory.read, hb] using ih

theorem Memory.erase_fst_ne (m : Memory) (a : Nat) : ∀ c ∈ m.erase a, c.1 ≠ a := by
  simp [Memory.erase]

theorem Memory.read_insertCell (m : Memory) (a : Nat) (v : Byte) (b : Nat) (h : ∀ c ∈ m, c.1 ≠ a) :
    Memory.read (m.insertCell a v) b = if b = a then v else m.read b := by
  induction m with
  | nil => simp [Memory.insertCell, Memory.read, eq_comm (a := a)]
  | cons c m ih =>
    obtain ⟨k, x⟩ := c
    have hk : k ≠ a := h (k, x) (by simp)
    have ih := ih fun c hc => h c (by simp [hc])
    by_cases hlt : a < k
    · by_cases hb : b = a
      · simp [Memory.insertCell, Memory.read, hlt, hb]
      · have : ¬a = b := fun e => hb e.symm
        simp [Memory.insertCell, Memory.read, hlt, hb, this]
    · by_cases hb : b = a
      · subst hb
        simp [Memory.insertCell, Memory.read, hlt, hk, ih]
      · simp [Memory.insertCell, Memory.read, hlt, hb, ih]

/-- What every address reads as after a write. -/
theorem Memory.read_write (m : Memory) (a : Nat) (v : Byte) (b : Nat) :
    Memory.read (m.write a v) b = if b = a then v else m.read b := by
  unfold Memory.write
  by_cases hv : v = Memory.unlisted
  · by_cases hb : b = a
    · subst hb
      simp [hv, Memory.read_erase_same]
    · simp [hv, hb, Memory.read_erase_ne m hb]
  · rw [if_neg hv, Memory.read_insertCell _ _ _ _ (m.erase_fst_ne a)]
    by_cases hb : b = a
    · simp [hb]
    · simp [hb, Memory.read_erase_ne m hb]

@[simp] theorem Memory.read_write_same (m : Memory) (a : Nat) (v : Byte) : Memory.read (m.write a v) a = v := by
  simp [Memory.read_write]

@[simp] theorem Memory.read_write_ne (m : Memory) {a b : Nat} (v : Byte) (h : b ≠ a) :
    Memory.read (m.write a v) b = m.read b := by
  simp [Memory.read_write, h]

theorem Memory.mem_insertCell {m : Memory} {a : Nat} {v : Byte} {c : Host.Cell} (h : c ∈ m.insertCell a v) :
    c = (a, v) ∨ c ∈ m := by
  induction m with
  | nil => simpa [Memory.insertCell] using h
  | cons d m ih =>
    obtain ⟨k, x⟩ := d
    by_cases hlt : a < k
    · simpa [Memory.insertCell, hlt] using h
    · rw [Memory.insertCell, if_neg hlt, List.mem_cons] at h
      rcases h with h | h
      · exact .inr (by simp [h])
      · rcases ih h with h | h
        · exact .inl h
        · exact .inr (by simp [h])

theorem Memory.mem_erase {m : Memory} {a : Nat} {c : Host.Cell} (h : c ∈ m.erase a) : c ∈ m := by
  simp only [Memory.erase, List.mem_filter] at h
  exact h.1

/-- Every entry after a write is the written one or was there before. -/
theorem Memory.mem_write {m : Memory} {a : Nat} {v : Byte} {c : Host.Cell} (h : c ∈ m.write a v) :
    c = (a, v) ∨ c ∈ m := by
  unfold Memory.write at h
  split at h
  · exact .inr (Memory.mem_erase h)
  · exact (Memory.mem_insertCell h).imp id Memory.mem_erase

theorem Memory.insertCell_rising {m : Memory} {a : Nat} {v : Byte} (hm : m.Pairwise fun c d => c.1 < d.1)
    (ha : ∀ c ∈ m, c.1 ≠ a) : (m.insertCell a v).Pairwise fun c d => c.1 < d.1 := by
  induction m with
  | nil => simp [Memory.insertCell]
  | cons d m ih =>
    obtain ⟨k, x⟩ := d
    rw [List.pairwise_cons] at hm
    have hk : k ≠ a := ha (k, x) (by simp)
    by_cases hlt : a < k
    · rw [Memory.insertCell, if_pos hlt, List.pairwise_cons, List.pairwise_cons]
      refine ⟨fun c hc => ?_, hm⟩
      rcases List.mem_cons.mp hc with rfl | hc
      · exact hlt
      · exact lt_trans hlt (hm.1 c hc)
    · rw [Memory.insertCell, if_neg hlt, List.pairwise_cons]
      refine ⟨fun c hc => ?_, ih hm.2 fun c hc => ha c (by simp [hc])⟩
      rcases Memory.mem_insertCell hc with rfl | hc
      · change k < a
        omega
      · exact hm.1 c hc

/-- A write keeps the canonical form. -/
theorem Memory.write_wf {m : Memory} (h : m.wf) (a : Nat) (v : Byte) : (m.write a v).wf := by
  have he : (m.erase a).Pairwise fun c d => c.1 < d.1 := h.1.filter _
  refine ⟨?_, fun c hc => ?_⟩
  · unfold Memory.write
    split
    · exact he
    · exact Memory.insertCell_rising he (m.erase_fst_ne a)
  · unfold Memory.write at hc
    split at hc
    · exact h.2 c (Memory.mem_erase hc)
    · rename_i hv
      rcases Memory.mem_insertCell hc with rfl | hc
      · exact hv
      · exact h.2 c (Memory.mem_erase hc)

/-- A write within the size keeps every entry within the size. -/
theorem Memory.write_within {m : Memory} {size : Nat} (h : ∀ c ∈ m, c.1 < size) {a : Nat} (ha : a < size) (v : Byte) :
    ∀ c ∈ m.write a v, c.1 < size := by
  intro c hc
  rcases Memory.mem_write hc with rfl | hc
  · exact ha
  · exact h c hc

theorem Memory.wf_nil : Memory.wf [] := by
  simp [Memory.wf]

theorem Memory.wf_tail {c : Host.Cell} {m : Memory} (h : Memory.wf (c :: m)) : m.wf :=
  ⟨(List.pairwise_cons.mp h.1).2, fun d hd => h.2 d (by simp [hd])⟩

/-- An address below every entry reads as unlisted. -/
theorem Memory.read_below {m : Memory} {a : Nat} (h : ∀ c ∈ m, a < c.1) : m.read a = Memory.unlisted := by
  induction m with
  | nil => rfl
  | cons d m ih =>
    obtain ⟨k, x⟩ := d
    have hk : a < k := h (k, x) (by simp)
    rw [Memory.read, if_neg (by omega)]
    exact ih fun c hc => h c (by simp [hc])

/-- In canonical form an entry that is listed reads as itself, so the first entries of two lists that read alike agree. -/
theorem Memory.head_le {k : Nat} {x : Byte} {m n : Memory} (hm : Memory.wf ((k, x) :: m)) (hn : n.wf)
    (h : ∀ a, Memory.read ((k, x) :: m) a = n.read a) : ∃ y n', n = (y, x) :: n' ∧ y ≤ k := by
  have hx : x ≠ Memory.unlisted := hm.2 (k, x) (by simp)
  have hk : n.read k = x := by rw [← h k]; simp [Memory.read]
  cases n with
  | nil => exact absurd hk.symm hx
  | cons d n =>
    obtain ⟨j, y⟩ := d
    have hle : j ≤ k := by
      by_contra hlt
      refine hx (hk.symm.trans (Memory.read_below fun c hc => ?_))
      rcases List.mem_cons.mp hc with rfl | hc
      · exact not_le.mp hlt
      · exact lt_trans (not_le.mp hlt) ((List.pairwise_cons.mp hn.1).1 c hc)
    by_cases he : j = k
    · subst he
      have : y = x := by simpa [Memory.read] using hk
      exact ⟨j, n, by rw [this], le_refl j⟩
    · exfalso
      have hy : y ≠ Memory.unlisted := hn.2 (j, y) (by simp)
      have hj := h j
      rw [show Memory.read ((j, y) :: n) j = y by simp [Memory.read]] at hj
      refine hy (hj.symm.trans (Memory.read_below fun c hc => ?_))
      rcases List.mem_cons.mp hc with rfl | hc
      · change j < k
        omega
      · have := (List.pairwise_cons.mp hm.1).1 c hc
        change k < c.1 at this
        omega

/-- Lists in canonical form that read alike everywhere are the same list: equal memories are equal data. -/
theorem Memory.wf_ext {m n : Memory} (hm : m.wf) (hn : n.wf) (h : ∀ a, m.read a = n.read a) : m = n := by
  induction m generalizing n with
  | nil =>
    cases n with
    | nil => rfl
    | cons d n =>
      obtain ⟨_, _, he, _⟩ := Memory.head_le hn Memory.wf_nil fun a => (h a).symm
      cases he
  | cons c m ih =>
    obtain ⟨k, x⟩ := c
    obtain ⟨j, n', rfl, hjk⟩ := Memory.head_le hm hn h
    obtain ⟨k', m', he, hkj⟩ := Memory.head_le hn hm fun a => (h a).symm
    cases he
    obtain rfl : j = k := le_antisymm hjk hkj
    refine congrArg _ (ih (Memory.wf_tail hm) (Memory.wf_tail hn) fun a => ?_)
    have ha := h a
    by_cases e : j = a
    · subst e
      rw [Memory.read_below (List.pairwise_cons.mp hm.1).1, Memory.read_below (List.pairwise_cons.mp hn.1).1]
    · simpa [Memory.read, e] using ha

end Sys2Proof.Machine
end

