-- ==== Sys2Proof/Laws/State.lean ====
section
/-! SUPPORT. One lemma for each field after each update of the state, and what the reads of a state see after each
update, so that no later proof unfolds a record update. -/

namespace Sys2Proof.Machine

/-! ## Registers -/

@[simp] theorem Regs.get_set (g : Regs) (r r' : Reg) (v : Word) :
    (g.set r v).get r' = if r' = r then v else g.get r' := by
  cases r <;> cases r' <;> rfl

@[simp] theorem Regs.set_get_self (g : Regs) (r : Reg) : g.set r (g.get r) = g := by
  cases r <;> rfl

/-- Two register files with the same twelve values are the same. -/
theorem Regs.ext_get {g h : Regs} (w : ∀ r, g.get r = h.get r) : g = h := by
  cases g
  cases h
  have := w .ip
  have := w .acc
  have := w .r1
  have := w .r2
  have := w .r3
  have := w .r4
  have := w .r5
  have := w .r6
  have := w .r7
  have := w .r8
  have := w .sp
  have := w .fp
  simp_all [Regs.get]

theorem State.reg_setReg (s : State) (r r' : Reg) (v : Word) :
    (s.setReg r v).reg r' = if r' = r then v else s.reg r' := Regs.get_set s.regs r r' v

@[simp] theorem State.reg_setReg_same (s : State) (r : Reg) (v : Word) : (s.setReg r v).reg r = v := by
  simp [State.reg_setReg]

@[simp] theorem State.reg_setReg_ne (s : State) {r r' : Reg} (v : Word) (h : r' ≠ r) :
    (s.setReg r v).reg r' = s.reg r' := by
  simp [State.reg_setReg, h]

/-! ## `setReg` -/

@[simp] theorem State.setReg_regs (s : State) (r : Reg) (v : Word) : (s.setReg r v).regs = s.regs.set r v := rfl
@[simp] theorem State.setReg_sfs (s : State) (r : Reg) (v : Word) : (s.setReg r v).sfs = s.sfs := rfl
@[simp] theorem State.setReg_run (s : State) (r : Reg) (v : Word) : (s.setReg r v).run = s.run := rfl
@[simp] theorem State.setReg_regions (s : State) (r : Reg) (v : Word) : (s.setReg r v).regions = s.regions := rfl
@[simp] theorem State.setReg_devices (s : State) (r : Reg) (v : Word) : (s.setReg r v).devices = s.devices := rfl
@[simp] theorem State.setReg_history (s : State) (r : Reg) (v : Word) : (s.setReg r v).history = s.history := rfl
@[simp] theorem State.setReg_nextToken (s : State) (r : Reg) (v : Word) : (s.setReg r v).nextToken = s.nextToken := rfl
@[simp] theorem State.setReg_locate (s : State) (r : Reg) (v : Word) (a : Nat) : (s.setReg r v).locate a = s.locate a := rfl
@[simp] theorem State.setReg_device (s : State) (r : Reg) (v : Word) (d : Nat) : (s.setReg r v).device d = s.device d := rfl
@[simp] theorem State.setReg_ramCell? (s : State) (r : Reg) (v : Word) (d a : Nat) : (s.setReg r v).ramCell? d a = s.ramCell? d a := rfl
@[simp] theorem State.setReg_ramByte? (s : State) (r : Reg) (v : Word) (a : Nat) : (s.setReg r v).ramByte? a = s.ramByte? a := rfl
@[simp] theorem State.setReg_ramWord? (s : State) (r : Reg) (v : Word) (a : Nat) : (s.setReg r v).ramWord? a = s.ramWord? a := rfl
@[simp] theorem State.setReg_servesWord (s : State) (r : Reg) (v : Word) (a : Nat) : (s.setReg r v).servesWord a = s.servesWord a := rfl
@[simp] theorem State.setReg_wordError (s : State) (r : Reg) (v : Word) (a : Nat) : (s.setReg r v).wordError a = s.wordError a := rfl

/-! ## `setSfs` -/

@[simp] theorem State.setSfs_regs (s : State) (v : Word) : (s.setSfs v).regs = s.regs := rfl
@[simp] theorem State.setSfs_sfs (s : State) (v : Word) : (s.setSfs v).sfs = v := rfl
@[simp] theorem State.setSfs_run (s : State) (v : Word) : (s.setSfs v).run = s.run := rfl
@[simp] theorem State.setSfs_regions (s : State) (v : Word) : (s.setSfs v).regions = s.regions := rfl
@[simp] theorem State.setSfs_devices (s : State) (v : Word) : (s.setSfs v).devices = s.devices := rfl
@[simp] theorem State.setSfs_history (s : State) (v : Word) : (s.setSfs v).history = s.history := rfl
@[simp] theorem State.setSfs_nextToken (s : State) (v : Word) : (s.setSfs v).nextToken = s.nextToken := rfl
@[simp] theorem State.setSfs_reg (s : State) (v : Word) (r' : Reg) : (s.setSfs v).reg r' = s.reg r' := rfl
@[simp] theorem State.setSfs_locate (s : State) (v : Word) (a : Nat) : (s.setSfs v).locate a = s.locate a := rfl
@[simp] theorem State.setSfs_device (s : State) (v : Word) (d : Nat) : (s.setSfs v).device d = s.device d := rfl
@[simp] theorem State.setSfs_ramCell? (s : State) (v : Word) (d a : Nat) : (s.setSfs v).ramCell? d a = s.ramCell? d a := rfl
@[simp] theorem State.setSfs_ramByte? (s : State) (v : Word) (a : Nat) : (s.setSfs v).ramByte? a = s.ramByte? a := rfl
@[simp] theorem State.setSfs_ramWord? (s : State) (v : Word) (a : Nat) : (s.setSfs v).ramWord? a = s.ramWord? a := rfl
@[simp] theorem State.setSfs_servesWord (s : State) (v : Word) (a : Nat) : (s.setSfs v).servesWord a = s.servesWord a := rfl
@[simp] theorem State.setSfs_wordError (s : State) (v : Word) (a : Nat) : (s.setSfs v).wordError a = s.wordError a := rfl

/-! ## `setRun` -/

@[simp] theorem State.setRun_regs (s : State) (v : RunState) : (s.setRun v).regs = s.regs := rfl
@[simp] theorem State.setRun_sfs (s : State) (v : RunState) : (s.setRun v).sfs = s.sfs := rfl
@[simp] theorem State.setRun_run (s : State) (v : RunState) : (s.setRun v).run = v := rfl
@[simp] theorem State.setRun_regions (s : State) (v : RunState) : (s.setRun v).regions = s.regions := rfl
@[simp] theorem State.setRun_devices (s : State) (v : RunState) : (s.setRun v).devices = s.devices := rfl
@[simp] theorem State.setRun_history (s : State) (v : RunState) : (s.setRun v).history = s.history := rfl
@[simp] theorem State.setRun_nextToken (s : State) (v : RunState) : (s.setRun v).nextToken = s.nextToken := rfl
@[simp] theorem State.setRun_reg (s : State) (v : RunState) (r' : Reg) : (s.setRun v).reg r' = s.reg r' := rfl
@[simp] theorem State.setRun_locate (s : State) (v : RunState) (a : Nat) : (s.setRun v).locate a = s.locate a := rfl
@[simp] theorem State.setRun_device (s : State) (v : RunState) (d : Nat) : (s.setRun v).device d = s.device d := rfl
@[simp] theorem State.setRun_ramCell? (s : State) (v : RunState) (d a : Nat) : (s.setRun v).ramCell? d a = s.ramCell? d a := rfl
@[simp] theorem State.setRun_ramByte? (s : State) (v : RunState) (a : Nat) : (s.setRun v).ramByte? a = s.ramByte? a := rfl
@[simp] theorem State.setRun_ramWord? (s : State) (v : RunState) (a : Nat) : (s.setRun v).ramWord? a = s.ramWord? a := rfl
@[simp] theorem State.setRun_servesWord (s : State) (v : RunState) (a : Nat) : (s.setRun v).servesWord a = s.servesWord a := rfl
@[simp] theorem State.setRun_wordError (s : State) (v : RunState) (a : Nat) : (s.setRun v).wordError a = s.wordError a := rfl

/-! ## `record` -/

@[simp] theorem State.record_regs (s : State) (e : Event) : (s.record e).regs = s.regs := rfl
@[simp] theorem State.record_sfs (s : State) (e : Event) : (s.record e).sfs = s.sfs := rfl
@[simp] theorem State.record_run (s : State) (e : Event) : (s.record e).run = s.run := rfl
@[simp] theorem State.record_regions (s : State) (e : Event) : (s.record e).regions = s.regions := rfl
@[simp] theorem State.record_devices (s : State) (e : Event) : (s.record e).devices = s.devices := rfl
@[simp] theorem State.record_history (s : State) (e : Event) : (s.record e).history = s.history ++ [e] := rfl
@[simp] theorem State.record_nextToken (s : State) (e : Event) : (s.record e).nextToken = s.nextToken := rfl
@[simp] theorem State.record_reg (s : State) (e : Event) (r' : Reg) : (s.record e).reg r' = s.reg r' := rfl
@[simp] theorem State.record_locate (s : State) (e : Event) (a : Nat) : (s.record e).locate a = s.locate a := rfl
@[simp] theorem State.record_device (s : State) (e : Event) (d : Nat) : (s.record e).device d = s.device d := rfl
@[simp] theorem State.record_ramCell? (s : State) (e : Event) (d a : Nat) : (s.record e).ramCell? d a = s.ramCell? d a := rfl
@[simp] theorem State.record_ramByte? (s : State) (e : Event) (a : Nat) : (s.record e).ramByte? a = s.ramByte? a := rfl
@[simp] theorem State.record_ramWord? (s : State) (e : Event) (a : Nat) : (s.record e).ramWord? a = s.ramWord? a := rfl
@[simp] theorem State.record_servesWord (s : State) (e : Event) (a : Nat) : (s.record e).servesWord a = s.servesWord a := rfl
@[simp] theorem State.record_wordError (s : State) (e : Event) (a : Nat) : (s.record e).wordError a = s.wordError a := rfl

/-! ## `setCells` -/

@[simp] theorem State.setCells_regs (s : State) (d size : Nat) (cells : Memory) : (s.setCells d size cells).regs = s.regs := rfl
@[simp] theorem State.setCells_sfs (s : State) (d size : Nat) (cells : Memory) : (s.setCells d size cells).sfs = s.sfs := rfl
@[simp] theorem State.setCells_run (s : State) (d size : Nat) (cells : Memory) : (s.setCells d size cells).run = s.run := rfl
@[simp] theorem State.setCells_regions (s : State) (d size : Nat) (cells : Memory) : (s.setCells d size cells).regions = s.regions := rfl
@[simp] theorem State.setCells_devices (s : State) (d size : Nat) (cells : Memory) : (s.setCells d size cells).devices = s.devices.set d (.ram size cells) := rfl
@[simp] theorem State.setCells_history (s : State) (d size : Nat) (cells : Memory) : (s.setCells d size cells).history = s.history := rfl
@[simp] theorem State.setCells_nextToken (s : State) (d size : Nat) (cells : Memory) : (s.setCells d size cells).nextToken = s.nextToken := rfl
@[simp] theorem State.setCells_reg (s : State) (d size : Nat) (cells : Memory) (r' : Reg) : (s.setCells d size cells).reg r' = s.reg r' := rfl
@[simp] theorem State.setCells_locate (s : State) (d size : Nat) (cells : Memory) (a : Nat) : (s.setCells d size cells).locate a = s.locate a := rfl

/-! ## Devices -/

/-- The device after the bytes of a RAM device that the machine holds are replaced. -/
theorem State.setCells_device (s : State) (d size : Nat) (cells : Memory) (d' : Nat) :
    (s.setCells d size cells).device d' =
      if d' = d ∧ d < s.devices.length then .ram size cells else s.device d' := by
  unfold State.device State.setCells
  by_cases h : d' = d
  · subst h
    by_cases hl : d' < s.devices.length
    · simp [hl]
    · simp [hl]
  · have : ¬d = d' := fun e => h e.symm
    simp [h, this]

/-- A RAM device is a device the machine holds. -/
theorem State.device_ram_lt {s : State} {d size : Nat} {cells : Memory} (h : s.device d = .ram size cells) :
    d < s.devices.length := by
  unfold State.device at h
  by_contra hl
  simp [List.getElem?_eq_none (Nat.le_of_not_lt hl)] at h

/-- A state whose registers and other fields agree with another's is the other. -/
theorem State.ext_fields {s t : State} (hr : s.regs = t.regs) (hs : s.sfs = t.sfs) (hn : s.run = t.run)
    (hg : s.regions = t.regions) (hd : s.devices = t.devices) (hh : s.history = t.history)
    (ht : s.nextToken = t.nextToken) : s = t := by
  cases s
  cases t
  simp_all

/-- A register write changes nothing but registers. -/
theorem State.sameBeyondRegs_setReg (s : State) (r : Reg) (v : Word) : s.sameBeyondRegs (s.setReg r v) :=
  ⟨rfl, rfl, rfl, rfl, rfl, rfl, fun _ _ => rfl, fun _ => rfl⟩

/-- A register write is just that. -/
theorem State.onlyRegWritten_setReg (s : State) (r : Reg) (v : Word) : s.onlyRegWritten (s.setReg r v) r v :=
  ⟨s.reg_setReg_same r v, fun _ h => s.reg_setReg_ne v h, s.sameBeyondRegs_setReg r v⟩

end Sys2Proof.Machine
end

