-- ==== Sys2Proof/Laws/Bus.lean ====
section
/-! SUPPORT. What the bus operations can do: one lemma for each that says what it answers, and the relation `Keeps`,
which every access of the machine respects. -/

namespace Sys2Proof.Machine

/-! ## What every access keeps -/

/-- What no access of an instruction changes, and how it changes the rest: the region list, the tokens, the run state,
the number and the sizes of the devices and the canonical form of their contents are kept, and the history grows by
events of peripherals only. -/
structure Keeps (s t : State) : Prop where
  regions : t.regions = s.regions
  nextToken : t.nextToken = s.nextToken
  run : t.run = s.run
  count : t.devices.length = s.devices.length
  size : ∀ d, deviceSize? (t.device d) = deviceSize? (s.device d)
  wf : (∀ dev ∈ s.devices, deviceWf dev) → ∀ dev ∈ t.devices, deviceWf dev
  history : ∃ es, t.history = s.history ++ es ∧ ∀ e ∈ es, s.device (eventDevice e) = .peripheral

theorem Keeps.refl (s : State) : Keeps s s :=
  ⟨rfl, rfl, rfl, rfl, fun _ => rfl, id, [], by simp, by simp⟩

/-- A device is a peripheral exactly when it has no size. -/
theorem deviceSize?_eq_none {dev : Device} : deviceSize? dev = none ↔ dev = .peripheral := by
  cases dev <;> simp [deviceSize?]

theorem Keeps.peripheral {s t : State} (h : Keeps s t) (d : Nat) :
    t.device d = .peripheral ↔ s.device d = .peripheral := by
  rw [← deviceSize?_eq_none, ← deviceSize?_eq_none, h.size d]

theorem Keeps.trans {s t u : State} (h : Keeps s t) (k : Keeps t u) : Keeps s u := by
  obtain ⟨es, he, hp⟩ := h.history
  obtain ⟨fs, hf, hq⟩ := k.history
  refine ⟨k.regions.trans h.regions, k.nextToken.trans h.nextToken, k.run.trans h.run, k.count.trans h.count,
    fun d => (k.size d).trans (h.size d), fun w => k.wf (h.wf w), es ++ fs, by simp [hf, he], fun e hm => ?_⟩
  rcases List.mem_append.mp hm with hm | hm
  · exact hp e hm
  · exact (h.peripheral _).mp (hq e hm)

theorem Keeps.locate {s t : State} (h : Keeps s t) (a : Nat) : t.locate a = s.locate a := by
  unfold State.locate
  rw [h.regions]

/-- Whether a word access is served depends on the map and the sizes only. -/
theorem Keeps.servesWord {s t : State} (h : Keeps s t) (a : Nat) : t.servesWord a = s.servesWord a := by
  unfold State.servesWord
  rw [h.locate a]
  cases s.locate a with
  | none => rfl
  | some p =>
    have := h.size p.1
    cases ht : t.device p.1 <;> cases hs : s.device p.1 <;> simp_all [deviceSize?]

/-- The error of an access that is not served depends on the map only. -/
theorem Keeps.wordError {s t : State} (h : Keeps s t) (a : Nat) : t.wordError a = s.wordError a := by
  unfold State.wordError
  rw [h.locate a]

theorem Keeps.setReg (s : State) (r : Reg) (v : Word) : Keeps s (s.setReg r v) :=
  ⟨rfl, rfl, rfl, rfl, fun _ => rfl, id, [], by simp, by simp⟩

theorem Keeps.setSfs (s : State) (v : Word) : Keeps s (s.setSfs v) :=
  ⟨rfl, rfl, rfl, rfl, fun _ => rfl, id, [], by simp, by simp⟩

/-- An event of a peripheral. -/
theorem Keeps.record (s : State) (e : Event) (h : s.device (eventDevice e) = .peripheral) : Keeps s (s.record e) :=
  ⟨rfl, rfl, rfl, rfl, fun _ => rfl, id, [e], rfl, fun _ hm => List.mem_singleton.mp hm ▸ h⟩

/-- A RAM device whose bytes are replaced by bytes that are as well formed. -/
theorem Keeps.setCells {s : State} {d size : Nat} {cells new : Memory} (hd : s.device d = .ram size cells)
    (hw : deviceWf (.ram size cells) → deviceWf (.ram size new)) : Keeps s (s.setCells d size new) := by
  refine ⟨rfl, rfl, rfl, by simp, fun d' => ?_, fun w dev hm => ?_, [], by simp, by simp⟩
  · rw [State.setCells_device]
    split
    · rename_i h
      rw [h.1, hd]
      rfl
    · rfl
  · rcases List.mem_or_eq_of_mem_set hm with hm | rfl
    · exact w dev hm
    · refine hw (w _ ?_)
      have hl := State.device_ram_lt hd
      have hg : s.device d = s.devices[d] := by simp [State.device, hl]
      rw [← hd, hg]
      exact List.getElem_mem hl

/-! ## Reads of one device -/

/-- `getUint8` on a RAM device: the byte where there is one, and nothing changes. -/
theorem deviceGet8_ram {s : State} {d a : Nat} {b : Byte} (h : s.ramCell? d a = some b) : deviceGet8 d a s = .ok (b, s) := by
  unfold State.ramCell? at h
  unfold deviceGet8
  split at h <;> simp_all

/-- Everything `getUint8` can answer. -/
theorem deviceGet8_ok {s t : State} {d a : Nat} {b : Byte} (h : deviceGet8 d a s = .ok (b, t)) :
    (s.ramCell? d a = some b ∧ t = s) ∨ (s.device d = .peripheral ∧ t = s.record (.read8 d a b)) := by
  unfold deviceGet8 at h
  split at h
  · rename_i size cells hd
    split at h
    · rename_i hlt
      cases h
      exact .inl ⟨by simp [State.ramCell?, hd, hlt], rfl⟩
    · cases h
  · rename_i hd
    cases h
    exact .inr ⟨hd, rfl⟩

/-- Everything `getUint8` can raise. -/
theorem deviceGet8_error {s : State} {d a : Nat} {e : FatalError} (h : deviceGet8 d a s = .error e) :
    e = .deviceRangeError a ∧ ∃ size cells, s.device d = .ram size cells ∧ size ≤ a := by
  unfold deviceGet8 at h
  split at h
  · rename_i size cells hd
    split at h
    · cases h
    · refine ⟨by cases h; rfl, size, cells, hd, by omega⟩
  · cases h

/-- Both bytes of a word of a RAM device. -/
theorem deviceGet16_ram {s : State} {d a : Nat} {hi lo : Byte} (hh : s.ramCell? d a = some hi)
    (hl : s.ramCell? d (a + 1) = some lo) : deviceGet16 d a s = .ok (wordOfBytes hi lo, s) := by
  unfold State.ramCell? at hh hl
  unfold deviceGet16
  split at hh <;> simp_all

/-- Everything `getUint16` can answer. -/
theorem deviceGet16_ok {s t : State} {d a : Nat} {w : Word} (h : deviceGet16 d a s = .ok (w, t)) :
    (∃ hi lo, s.ramCell? d a = some hi ∧ s.ramCell? d (a + 1) = some lo ∧ w = wordOfBytes hi lo ∧ t = s) ∨
      (s.device d = .peripheral ∧ t = s.record (.read16 d a w)) := by
  unfold deviceGet16 at h
  split at h
  · rename_i size cells hd
    split at h
    · rename_i hlt
      cases h
      exact .inl ⟨_, _, by simp [State.ramCell?, hd, Nat.lt_of_succ_lt hlt], by simp [State.ramCell?, hd, hlt], rfl, rfl⟩
    · cases h
  · rename_i hd
    cases h
    exact .inr ⟨hd, rfl⟩

/-- Everything `getUint16` can raise. -/
theorem deviceGet16_error {s : State} {d a : Nat} {e : FatalError} (h : deviceGet16 d a s = .error e) :
    e = .deviceRangeError a ∧ ∃ size cells, s.device d = .ram size cells ∧ size ≤ a + 1 := by
  unfold deviceGet16 at h
  split at h
  · rename_i size cells hd
    split at h
    · cases h
    · refine ⟨by cases h; rfl, size, cells, hd, by omega⟩
  · cases h

/-! ## Writes of one device -/

/-- Everything `setUint16` can answer. -/
theorem deviceSet16_ok {s t : State} {d a : Nat} {v : Word} (h : deviceSet16 d a v s = .ok t) :
    (∃ size cells, s.device d = .ram size cells ∧ a + 1 < size ∧
        t = s.setCells d size (Memory.write (Memory.write cells a (hiByte v)) (a + 1) (loByte v))) ∨
      (s.device d = .peripheral ∧ t = s.record (.write16 d a v)) := by
  unfold deviceSet16 at h
  split at h
  · rename_i size cells hd
    split at h
    · rename_i hlt
      cases h
      exact .inl ⟨size, cells, hd, hlt, rfl⟩
    · cases h
  · rename_i hd
    cases h
    exact .inr ⟨hd, rfl⟩

/-- Everything `setUint16` can raise. -/
theorem deviceSet16_error {s : State} {d a : Nat} {v : Word} {e : FatalError} (h : deviceSet16 d a v s = .error e) :
    e = .deviceRangeError a ∧ ∃ size cells, s.device d = .ram size cells ∧ size ≤ a + 1 := by
  unfold deviceSet16 at h
  split at h
  · rename_i size cells hd
    split at h
    · cases h
    · refine ⟨by cases h; rfl, size, cells, hd, by omega⟩
  · cases h

/-- What every byte of every RAM device reads as after the bytes of one are replaced. -/
theorem State.ramCell?_setCells {s : State} {d size : Nat} {cells : Memory} (hd : s.device d = .ram size cells)
    (new : Memory) (d' a : Nat) :
    (s.setCells d size new).ramCell? d' a =
      if d' = d then (if a < size then some (new.read a) else none) else s.ramCell? d' a := by
  unfold State.ramCell?
  rw [State.setCells_device]
  by_cases h : d' = d <;> simp [h, State.device_ram_lt hd]

/-- A word written to a RAM device: the two bytes, high byte first, and no other byte of any device. -/
theorem deviceSet16_ram {s : State} {d a size : Nat} {cells : Memory} (v : Word) (hd : s.device d = .ram size cells)
    (ha : a + 1 < size) :
    ∃ t, deviceSet16 d a v s = .ok t ∧ t.regs = s.regs ∧ t.sfs = s.sfs ∧ t.run = s.run ∧ t.regions = s.regions ∧
      t.nextToken = s.nextToken ∧ t.history = s.history ∧ t.ramCell? d a = some (hiByte v) ∧
      t.ramCell? d (a + 1) = some (loByte v) ∧ s.sameCellsBut t d a := by
  refine ⟨s.setCells d size (Memory.write (Memory.write cells a (hiByte v)) (a + 1) (loByte v)),
    by simp [deviceSet16, hd, ha], rfl, rfl, rfl, rfl, rfl, rfl, ?_, ?_, ?_⟩
  · simp [State.ramCell?_setCells hd, Nat.lt_of_succ_lt ha]
  · simp [State.ramCell?_setCells hd, ha]
  · intro d' b hb
    rw [State.ramCell?_setCells hd]
    by_cases h : d' = d
    · subst h
      have h1 : b ≠ a := fun e => hb ⟨rfl, .inl e⟩
      have h2 : b ≠ a + 1 := fun e => hb ⟨rfl, .inr e⟩
      simp [State.ramCell?, hd, h1, h2]
    · simp [h]

/-! ## The primitives -/

/-- `MemRead(a, 1)` where RAM holds the byte. -/
theorem memRead8_ram {s : State} {a : Nat} {b : Byte} (h : s.ramByte? a = some b) : memRead8 a s = .ok (b, s) := by
  unfold State.ramByte? at h
  unfold memRead8
  split at h
  · rename_i d x hl
    simp [hl, deviceGet8_ram h]
  · cases h

/-- `MemRead(a, 2)` where RAM holds the word. -/
theorem memRead16_ram {s : State} {a : Nat} {w : Word} (h : s.ramWord? a = some w) : memRead16 a s = .ok (w, s) := by
  unfold State.ramWord? at h
  unfold memRead16
  split at h
  · rename_i d x hl
    split at h
    · rename_i hh hlo
      cases h
      simp [hl, deviceGet16_ram hh hlo]
    · cases h
  · cases h

/-- A read changes at most the history. -/
theorem memRead8_keeps {s t : State} {a : Nat} {b : Byte} (h : memRead8 a s = .ok (b, t)) :
    Keeps s t ∧ t.regs = s.regs ∧ t.sfs = s.sfs ∧ t.devices = s.devices := by
  unfold memRead8 at h
  split at h
  · rcases deviceGet8_ok h with ⟨_, rfl⟩ | ⟨hp, rfl⟩
    · exact ⟨Keeps.refl _, rfl, rfl, rfl⟩
    · exact ⟨Keeps.record s _ hp, rfl, rfl, rfl⟩
  · cases h

/-- A read changes at most the history. -/
theorem memRead16_keeps {s t : State} {a : Nat} {w : Word} (h : memRead16 a s = .ok (w, t)) :
    Keeps s t ∧ t.regs = s.regs ∧ t.sfs = s.sfs ∧ t.devices = s.devices := by
  unfold memRead16 at h
  split at h
  · rcases deviceGet16_ok h with ⟨_, _, _, _, _, rfl⟩ | ⟨hp, rfl⟩
    · exact ⟨Keeps.refl _, rfl, rfl, rfl⟩
    · exact ⟨Keeps.record s _ hp, rfl, rfl, rfl⟩
  · cases h

/-- A write keeps registers, `sfs` and what every access keeps. -/
theorem memWrite16_keeps {s t : State} {a : Nat} {v : Word} (h : memWrite16 a v s = .ok t) :
    Keeps s t ∧ t.regs = s.regs ∧ t.sfs = s.sfs := by
  unfold memWrite16 at h
  split at h
  · rcases deviceSet16_ok h with ⟨size, cells, hd, ha, rfl⟩ | ⟨hp, rfl⟩
    · refine ⟨Keeps.setCells hd fun w => ?_, rfl, rfl⟩
      exact ⟨Memory.write_wf (Memory.write_wf w.1 _ _) _ _,
        Memory.write_within (Memory.write_within w.2 (Nat.lt_of_succ_lt ha) _) ha _⟩
    · exact ⟨Keeps.record s _ hp, rfl, rfl⟩
  · cases h

/-- A word access is served exactly when reading answers a word. -/
theorem memRead16_served {s : State} {a : Nat} : (∃ w t, memRead16 a s = .ok (w, t)) ↔ s.servesWord a = true := by
  unfold memRead16 State.servesWord deviceGet16
  cases s.locate a with
  | none => simp
  | some p =>
    obtain ⟨d, x⟩ := p
    cases hd : s.device d with
    | peripheral => simp [hd]
    | ram size cells =>
      by_cases hx : x + 1 < size <;> simp [hd, hx]

/-- A word access is served exactly when writing answers a state. -/
theorem memWrite16_served {s : State} {a : Nat} {v : Word} :
    (∃ t, memWrite16 a v s = .ok t) ↔ s.servesWord a = true := by
  unfold memWrite16 State.servesWord deviceSet16
  cases s.locate a with
  | none => simp
  | some p =>
    obtain ⟨d, x⟩ := p
    cases hd : s.device d with
    | peripheral => simp [hd]
    | ram size cells =>
      by_cases hx : x + 1 < size <;> simp [hd, hx]

/-- A word read that is not served raises the error of its address. -/
theorem memRead16_unserved {s : State} {a : Nat} (h : s.servesWord a = false) :
    memRead16 a s = .error (s.wordError a) := by
  unfold State.servesWord at h
  unfold memRead16 State.wordError deviceGet16
  cases hl : s.locate a with
  | none => rfl
  | some p =>
    obtain ⟨d, x⟩ := p
    cases hd : s.device d <;> simp_all

/-- A word write that is not served raises the error of its address. -/
theorem memWrite16_unserved {s : State} {a : Nat} {v : Word} (h : s.servesWord a = false) :
    memWrite16 a v s = .error (s.wordError a) := by
  unfold State.servesWord at h
  unfold memWrite16 State.wordError deviceSet16
  cases hl : s.locate a with
  | none => rfl
  | some p =>
    obtain ⟨d, x⟩ := p
    cases hd : s.device d <;> simp_all

/-- Where RAM holds a word, a word access is served. -/
theorem State.servesWord_of_ramWord? {s : State} {a : Nat} {w : Word} (h : s.ramWord? a = some w) :
    s.servesWord a = true :=
  memRead16_served.mp ⟨w, s, memRead16_ram h⟩

end Sys2Proof.Machine
end

