-- ==== Sys2Proof/Laws/Decode.lean ====
section
/-! SUPPORT. Bytes and words, register bytes, and the opcode map both ways. -/

namespace Sys2Proof

theorem toNat_wordOfBytes (h l : Byte) : (wordOfBytes h l).toNat = h.toNat * 256 + l.toNat := by
  have := h.isLt
  have := l.isLt
  simp only [wordOfBytes, BitVec.toNat_ofNat]
  omega

theorem toNat_hiByte (w : Word) : (hiByte w).toNat = w.toNat / 256 := by
  have := w.isLt
  simp only [hiByte, BitVec.toNat_ofNat]
  omega

theorem toNat_loByte (w : Word) : (loByte w).toNat = w.toNat % 256 := by
  simp [loByte]

@[simp] theorem hiByte_wordOfBytes (h l : Byte) : hiByte (wordOfBytes h l) = h := by
  apply BitVec.eq_of_toNat_eq
  have := l.isLt
  rw [toNat_hiByte, toNat_wordOfBytes]
  omega

@[simp] theorem loByte_wordOfBytes (h l : Byte) : loByte (wordOfBytes h l) = l := by
  apply BitVec.eq_of_toNat_eq
  have := l.isLt
  rw [toNat_loByte, toNat_wordOfBytes]
  omega

@[simp] theorem wordOfBytes_hi_lo (w : Word) : wordOfBytes (hiByte w) (loByte w) = w := by
  apply BitVec.eq_of_toNat_eq
  rw [toNat_wordOfBytes, toNat_hiByte, toNat_loByte]
  omega

@[simp] theorem regOfByte_regByte (r : Reg) : regOfByte (regByte r) = r := by
  cases r <;> rfl

theorem Reg.index_lt (r : Reg) : r.index < 12 := by
  cases r <;> decide

theorem Reg.index_ofIndex {n : Nat} (h : n < 12) : (Reg.ofIndex n).index = n := by
  interval_cases n <;> rfl

/-- The byte that a valid map gives an instruction leads back to the instruction. -/
theorem OpcodeMap.opOf?_mem {m : OpcodeMap} {b : Byte} {op : Op} (h : m.opOf? b = some op) : (op, b) ∈ m := by
  induction m with
  | nil => cases h
  | cons p m ih =>
    obtain ⟨op', b'⟩ := p
    unfold OpcodeMap.opOf? at h
    split at h
    · rename_i e
      cases h
      simp [e]
    · exact List.mem_cons_of_mem _ (ih h)

/-- A byte has no instruction exactly where the map assigns it to none. -/
theorem OpcodeMap.opOf?_eq_none {m : OpcodeMap} {b : Byte} : m.opOf? b = none ↔ m.unassigned b = true := by
  induction m with
  | nil => simp [OpcodeMap.opOf?, OpcodeMap.unassigned]
  | cons p m ih =>
    obtain ⟨op', b'⟩ := p
    by_cases e : b' = b
    · simp [OpcodeMap.opOf?, OpcodeMap.unassigned, e]
    · have e' : ¬b = b' := fun h => e h.symm
      simp only [OpcodeMap.unassigned, List.map_cons, List.contains_cons, Bool.not_or] at ih ⊢
      simp [OpcodeMap.opOf?, e, e', ih]

/-- An instruction that the map lists has its byte in the map. -/
theorem OpcodeMap.byteOf_mem {m : OpcodeMap} {op : Op} (h : op ∈ m.map Prod.fst) : (op, m.byteOf op) ∈ m := by
  induction m with
  | nil => simp at h
  | cons p m ih =>
    obtain ⟨op', b'⟩ := p
    unfold OpcodeMap.byteOf
    split
    · rename_i e
      simp [e]
    · rename_i e
      rw [List.map_cons, List.mem_cons] at h
      exact List.mem_cons_of_mem _ (ih (h.resolve_left fun k => e k.symm))

end Sys2Proof
end

