-- ==== Sys2Proof/Laws/Ops.lean ====
section
/-! SUPPORT. What the named operations can do: fetches, push and pop, the call and return conventions. -/

namespace Sys2Proof.Machine

/-! ## Fetches -/

/-- Everything `Fetch8` can answer: the byte read, with `ip` one higher. -/
theorem fetch8_ok {s t : State} {b : Byte} (h : fetch8 s = .ok (b, t)) :
    ∃ u, memRead8 (s.reg .ip).toNat s = .ok (b, u) ∧ t = u.setReg .ip (s.reg .ip + 1) := by
  unfold fetch8 at h
  obtain ⟨⟨b', u⟩, hr, hu⟩ := Access.bind_ok.mp h
  cases hu
  exact ⟨u, hr, rfl⟩

/-- Everything `Fetch16` can answer: the word read, with `ip` two higher. -/
theorem fetch16_ok {s t : State} {w : Word} (h : fetch16 s = .ok (w, t)) :
    ∃ u, memRead16 (s.reg .ip).toNat s = .ok (w, u) ∧ t = u.setReg .ip (s.reg .ip + 2) := by
  unfold fetch16 at h
  obtain ⟨⟨w', u⟩, hr, hu⟩ := Access.bind_ok.mp h
  cases hu
  exact ⟨u, hr, rfl⟩

/-- A fetch from RAM. -/
theorem fetch8_ram {s : State} {b : Byte} (h : s.ramByte? (s.reg .ip).toNat = some b) :
    fetch8 s = .ok (b, s.setReg .ip (s.reg .ip + 1)) := by
  simp [fetch8, memRead8_ram h]

/-- A fetch from RAM. -/
theorem fetch16_ram {s : State} {w : Word} (h : s.ramWord? (s.reg .ip).toNat = some w) :
    fetch16 s = .ok (w, s.setReg .ip (s.reg .ip + 2)) := by
  simp [fetch16, memRead16_ram h]

/-- What a fetch changes: `ip`, and at most the history. -/
structure Fetched (s t : State) : Prop where
  keeps : Keeps s t
  reg : ∀ r, r ≠ .ip → t.reg r = s.reg r
  sfs : t.sfs = s.sfs
  devices : t.devices = s.devices

theorem Fetched.refl (s : State) : Fetched s s := ⟨Keeps.refl s, fun _ _ => rfl, rfl, rfl⟩

theorem Fetched.trans {s t u : State} (h : Fetched s t) (k : Fetched t u) : Fetched s u :=
  ⟨h.keeps.trans k.keeps, fun r hr => (k.reg r hr).trans (h.reg r hr), k.sfs.trans h.sfs, k.devices.trans h.devices⟩

theorem fetch8_fetched {s t : State} {b : Byte} (h : fetch8 s = .ok (b, t)) : Fetched s t := by
  obtain ⟨u, hr, rfl⟩ := fetch8_ok h
  obtain ⟨hk, hg, hs, hd⟩ := memRead8_keeps hr
  exact ⟨hk.trans (Keeps.setReg _ _ _), fun r hne => by simp [hne, State.reg, hg], hs, hd⟩

theorem fetch16_fetched {s t : State} {w : Word} (h : fetch16 s = .ok (w, t)) : Fetched s t := by
  obtain ⟨u, hr, rfl⟩ := fetch16_ok h
  obtain ⟨hk, hg, hs, hd⟩ := memRead16_keeps hr
  exact ⟨hk.trans (Keeps.setReg _ _ _), fun r hne => by simp [hne, State.reg, hg], hs, hd⟩

/-- The operand fetches bring exactly the bytes their fields take. -/
theorem fetchFields_ok {fs : List Field} {s t : State} {bs : List Byte} (h : fetchFields fs s = .ok (bs, t)) :
    Fetched s t ∧ bs.length = (fs.map Field.size).sum := by
  induction fs generalizing s bs with
  | nil =>
    cases h
    exact ⟨Fetched.refl _, rfl⟩
  | cons f fs ih =>
    cases f with
    | reg =>
      obtain ⟨⟨b, u⟩, hf, h⟩ := Access.bind_ok.mp h
      obtain ⟨⟨cs, v⟩, hg, h⟩ := Access.bind_ok.mp h
      cases h
      obtain ⟨hk, hl⟩ := ih hg
      exact ⟨(fetch8_fetched hf).trans hk, by simp [hl, Field.size]; omega⟩
    | word =>
      obtain ⟨⟨w, u⟩, hf, h⟩ := Access.bind_ok.mp h
      obtain ⟨⟨cs, v⟩, hg, h⟩ := Access.bind_ok.mp h
      cases h
      obtain ⟨hk, hl⟩ := ih hg
      exact ⟨(fetch16_fetched hf).trans hk, by simp [hl, Field.size]; omega⟩

/-- The fetch of an instruction brings its opcode byte and exactly the operand bytes that byte asks for. -/
theorem fetchBytes_ok {s t : State} {bytes : List Byte} (h : fetchBytes s = .ok (bytes, t)) :
    Fetched s t ∧ ∃ b bs, bytes = b :: bs ∧ bytes.length = opcodeLength b := by
  unfold fetchBytes at h
  obtain ⟨⟨b, u⟩, hf, h⟩ := Access.bind_ok.mp h
  obtain ⟨⟨bs, v⟩, hg, h⟩ := Access.bind_ok.mp h
  cases h
  obtain ⟨hk, hl⟩ := fetchFields_ok hg
  exact ⟨(fetch8_fetched hf).trans hk, b, bs, rfl, by simp [opcodeLength, hl]; omega⟩

/-! ## The stack -/

/-- A push is its word write, then `sp` down and `sfs` up by 2. -/
theorem push_ok {v : Word} {s t : State} (h : push v s = .ok t) :
    ∃ u, memWrite16 (pushAddress s) v s = .ok u ∧ t = (u.setReg .sp (s.reg .sp - 2)).setSfs (s.sfs + 2) := by
  unfold push at h
  obtain ⟨u, hw, h⟩ := Access.bind_ok.mp h
  cases h
  obtain ⟨_, hg, hs⟩ := memWrite16_keeps hw
  exact ⟨u, hw, by simp [State.reg, hg, hs]⟩

/-- A pop is `sp` up and `sfs` down by 2 around its word read. -/
theorem pop_ok {s t : State} {v : Word} (h : pop s = .ok (v, t)) :
    Keeps s t ∧ t.reg .sp = s.reg .sp + 2 ∧ (∀ r, r ≠ .sp → t.reg r = s.reg r) ∧ t.sfs = s.sfs - 2 ∧
      t.devices = s.devices := by
  obtain ⟨hk, hg, hs, hd⟩ := memRead16_keeps h
  refine ⟨((Keeps.setReg s _ _).trans (Keeps.setSfs _ _)).trans hk, ?_, fun r hr => ?_, hs, hd⟩
  · simp only [State.reg, hg]
    exact State.reg_setReg_same s .sp _
  · simp only [State.reg, hg]
    exact State.reg_setReg_ne s _ hr

/-- A pop from RAM. -/
theorem pop_ram {s : State} {v : Word} (h : s.ramWord? (popAddress s) = some v) :
    pop s = .ok (v, (s.setReg .sp (s.reg .sp + 2)).setSfs (s.sfs - 2)) := by
  unfold pop
  exact memRead16_ram h

theorem push_keeps {v : Word} {s t : State} (h : push v s = .ok t) :
    Keeps s t ∧ t.reg .sp = s.reg .sp - 2 ∧ (∀ r, r ≠ .sp → t.reg r = s.reg r) ∧ t.sfs = s.sfs + 2 := by
  obtain ⟨u, hw, rfl⟩ := push_ok h
  obtain ⟨hk, hg, hs⟩ := memWrite16_keeps hw
  exact ⟨(hk.trans (Keeps.setReg _ _ _)).trans (Keeps.setSfs _ _), by simp,
    fun r hr => by simp [hr, State.reg, hg], by simp⟩

/-- A push completes where the word at `sp` is served. -/
theorem push_served {v : Word} {s : State} (h : s.servesWord (pushAddress s) = true) : ∃ t, push v s = .ok t := by
  obtain ⟨u, hu⟩ := memWrite16_served (v := v).mpr h
  exact ⟨_, by simp [push, hu]; rfl⟩

/-- What pushes and pops of registers keep. -/
theorem pushRegs_keeps {rs : List Reg} {s t : State} (hrs : .sp ∉ rs) (h : pushRegs rs s = .ok t) :
    Keeps s t ∧ t.reg .sp = s.reg .sp - BitVec.ofNat 16 (2 * rs.length) ∧ (∀ r, r ≠ .sp → t.reg r = s.reg r) ∧
      t.sfs = s.sfs + BitVec.ofNat 16 (2 * rs.length) := by
  induction rs generalizing s with
  | nil =>
    cases h
    exact ⟨Keeps.refl _, by simp, fun _ _ => rfl, by simp⟩
  | cons r rs ih =>
    obtain ⟨u, hp, h⟩ := Access.bind_ok.mp h
    obtain ⟨hk, hsp, hr, hs⟩ := push_keeps hp
    obtain ⟨hk', hsp', hr', hs'⟩ := ih (fun hm => hrs (List.mem_cons_of_mem _ hm)) h
    refine ⟨hk.trans hk', ?_, fun q hq => (hr' q hq).trans (hr q hq), ?_⟩
    · rw [hsp', hsp, List.length_cons, Nat.mul_add, BitVec.ofNat_add]
      bv_omega
    · rw [hs', hs, List.length_cons, Nat.mul_add, BitVec.ofNat_add]
      bv_omega

/-- What dropping words keeps. -/
theorem discardWords_ok {n : Nat} {s t : State} (h : discardWords n s = .ok t) :
    Keeps s t ∧ t.reg .sp = s.reg .sp + BitVec.ofNat 16 (2 * n) ∧ (∀ r, r ≠ .sp → t.reg r = s.reg r) ∧
      t.sfs = s.sfs - BitVec.ofNat 16 (2 * n) ∧ t.devices = s.devices := by
  induction n generalizing s with
  | zero =>
    cases h
    exact ⟨Keeps.refl _, by simp, fun _ _ => rfl, by simp, rfl⟩
  | succ n ih =>
    obtain ⟨⟨v, u⟩, hp, h⟩ := Access.bind_ok.mp h
    obtain ⟨hk, hsp, hr, hs, hd⟩ := pop_ok hp
    obtain ⟨hk', hsp', hr', hs', hd'⟩ := ih h
    refine ⟨hk.trans hk', ?_, fun q hq => (hr' q hq).trans (hr q hq), ?_, hd'.trans hd⟩
    · rw [hsp', hsp, Nat.mul_add, BitVec.ofNat_add]
      bv_omega
    · rw [hs', hs, Nat.mul_add, BitVec.ofNat_add]
      bv_omega

/-- What popping into registers keeps. -/
theorem popRegs_ok {rs : List Reg} {s t : State} (hrs : .sp ∉ rs) (h : popRegs rs s = .ok t) :
    Keeps s t ∧ t.reg .sp = s.reg .sp + BitVec.ofNat 16 (2 * rs.length) ∧
      (∀ r, r ≠ .sp → r ∉ rs → t.reg r = s.reg r) ∧ t.sfs = s.sfs - BitVec.ofNat 16 (2 * rs.length) ∧
      t.devices = s.devices := by
  induction rs generalizing s with
  | nil =>
    cases h
    exact ⟨Keeps.refl _, by simp, fun _ _ _ => rfl, by simp, rfl⟩
  | cons r rs ih =>
    obtain ⟨⟨v, u⟩, hp, h⟩ := Access.bind_ok.mp h
    obtain ⟨hk, hsp, hr, hs, hd⟩ := pop_ok hp
    obtain ⟨hk', hsp', hr', hs', hd'⟩ := ih (fun hm => hrs (List.mem_cons_of_mem _ hm)) h
    have hne : .sp ≠ r := fun e => hrs (e ▸ List.mem_cons_self)
    refine ⟨(hk.trans (Keeps.setReg _ _ _)).trans hk', ?_, fun q hq hm => ?_, ?_, hd'.trans hd⟩
    · rw [hsp', State.reg_setReg_ne _ _ hne, hsp, List.length_cons, Nat.mul_add, BitVec.ofNat_add]
      bv_omega
    · rw [List.mem_cons, not_or] at hm
      rw [hr' q hq hm.2, State.reg_setReg_ne _ _ hm.1, hr q hq]
    · rw [hs', State.setReg_sfs, hs, List.length_cons, Nat.mul_add, BitVec.ofNat_add]
      bv_omega

/-- Ten words pushed are 20 bytes. -/
theorem frame_words_down (x : Word) : x - 16 - 2 - 2 = x - 20 := by ring

/-- Eleven words popped are 22 bytes. -/
theorem frame_words_up (x y : Word) : x + 2 + 2 + 16 + 2 + y = x + 22 + y := by ring

/-- Ten words popped after the marker take 20 from the counter. -/
theorem frame_words_counted (x y : Word) : x - 2 - 16 - 2 - y = x - 20 - y := by ring

/-- What a call does to registers and `sfs` (45_subroutine.md R190), wherever it completes. -/
theorem pushFrame_ok {s t : State} (h : pushFrame s = .ok t) :
    Keeps s t ∧ t.reg .sp = s.reg .sp - 20 ∧ t.reg .fp = s.reg .sp - 20 ∧
      (∀ r, r ≠ .sp → r ≠ .fp → t.reg r = s.reg r) ∧ t.sfs = 0 := by
  unfold pushFrame at h
  obtain ⟨u, h1, h⟩ := Access.bind_ok.mp h
  obtain ⟨v, h2, h⟩ := Access.bind_ok.mp h
  obtain ⟨w, h3, h⟩ := Access.bind_ok.mp h
  cases h
  obtain ⟨k1, p1, r1, _⟩ := pushRegs_keeps (by decide) h1
  obtain ⟨k2, p2, r2, _⟩ := push_keeps h2
  obtain ⟨k3, p3, r3, _⟩ := push_keeps h3
  have hsp : w.reg .sp = s.reg .sp - 20 := by
    rw [p3, p2, p1, show BitVec.ofNat 16 (2 * savedRegs.length) = 16 from rfl]
    exact frame_words_down _
  refine ⟨(((k1.trans k2).trans k3).trans (Keeps.setReg _ _ _)).trans (Keeps.setSfs _ _), ?_, ?_, ?_, rfl⟩
  · simp [hsp]
  · simp [hsp]
  · intro r hs hf
    simp [hf, r3 r hs, r2 r hs, r1 r hs]

/-- What a return does to `sp`, `fp`, `sfs` and the registers it does not pop (45_subroutine.md R191), wherever it
completes. -/
theorem popFrame_ok {s t : State} (h : popFrame s = .ok t) :
    Keeps s t ∧ t.devices = s.devices ∧ t.reg .acc = s.reg .acc ∧
      ∃ marker nArgs : Word, t.reg .fp = s.reg .fp + marker ∧
        t.reg .sp = s.reg .fp + 22 + BitVec.ofNat 16 (2 * nArgs.toNat) ∧
        t.sfs = marker - 20 - BitVec.ofNat 16 (2 * nArgs.toNat) := by
  unfold popFrame at h
  obtain ⟨⟨marker, s1⟩, h1, h⟩ := Access.bind_ok.mp h
  obtain ⟨⟨ret, s2⟩, h2, h⟩ := Access.bind_ok.mp h
  obtain ⟨s3, h3, h⟩ := Access.bind_ok.mp h
  obtain ⟨⟨nArgs, s4⟩, h4, h⟩ := Access.bind_ok.mp h
  obtain ⟨s5, h5, h⟩ := Access.bind_ok.mp h
  cases h
  obtain ⟨k1, p1, r1, _, d1⟩ := pop_ok h1
  obtain ⟨k2, p2, r2, f2, d2⟩ := pop_ok h2
  obtain ⟨k3, p3, r3, f3, d3⟩ := popRegs_ok (by decide) h3
  obtain ⟨k4, p4, r4, f4, d4⟩ := pop_ok h4
  obtain ⟨k5, p5, r5, f5, d5⟩ := discardWords_ok h5
  refine ⟨?_, ?_, ?_, marker, nArgs, by simp, ?_, ?_⟩
  · exact ((((((((Keeps.setReg s _ _).trans k1).trans (Keeps.setSfs _ _)).trans k2).trans (Keeps.setReg _ _ _)).trans
      k3).trans k4).trans k5).trans (Keeps.setReg _ _ _)
  · simp [d5, d4, d3, d2, d1]
  · simp [r5 .acc (by decide), r4 .acc (by decide), r3 .acc (by decide) (by decide), r2 .acc (by decide),
      r1 .acc (by decide)]
  · rw [State.reg_setReg_ne _ _ (by decide), p5, p4, p3, State.reg_setReg_ne _ _ (by decide), p2, State.setSfs_reg, p1]
    rw [State.reg_setReg_same, show BitVec.ofNat 16 (2 * savedRegs.reverse.length) = 16 from rfl]
    exact frame_words_up _ _
  · rw [State.setReg_sfs, f5, f4, f3, State.setReg_sfs, f2, State.setSfs_sfs,
      show BitVec.ofNat 16 (2 * savedRegs.reverse.length) = 16 from rfl]
    exact frame_words_counted _ _

end Sys2Proof.Machine
end

