-- ==== Sys2Proof/Laws/Frames.lean ====
section
/-! SUPPORT. What a sequence of word writes and a sequence of word reads do to RAM and to the history in any map: the
pushes of a call, the pops of a return. -/

namespace Sys2Proof.Machine

/-! ## What a word access is routed to, and what depends on the map alone -/

theorem State.covers_eq_false {s : State} {p d a : Nat} (h : s.covers p d a = false) {x : Nat}
    (hl : s.locate p = some (d, x)) : a ≠ x ∧ a ≠ x + 1 := by
  simp [State.covers, hl] at h
  exact h

theorem State.covers_of_locate {s : State} {p d x : Nat} (h : s.locate p = some (d, x)) :
    s.covers p d x = true ∧ s.covers p d (x + 1) = true := by
  simp [State.covers, h]

theorem Keeps.covers {s t : State} (h : Keeps s t) (p d a : Nat) : t.covers p d a = s.covers p d a := by
  unfold State.covers
  rw [h.locate p]

theorem Keeps.wordEvent? {s t : State} (h : Keeps s t) (kind : Nat → Nat → Word → Event) (a : Nat) (w : Word) :
    t.wordEvent? kind a w = s.wordEvent? kind a w := by
  unfold State.wordEvent?
  rw [h.locate a]
  cases s.locate a with
  | none => rfl
  | some p =>
    have := h.size p.1
    cases ht : t.device p.1 <;> cases hs : s.device p.1 <;> simp_all [deviceSize?]

/-- What RAM holds depends on the devices and the map alone. -/
theorem State.ramCell?_congr {s t : State} (hd : t.devices = s.devices) (d a : Nat) : t.ramCell? d a = s.ramCell? d a := by
  simp [State.ramCell?, State.device, hd]

theorem State.ramWord?_congr {s t : State} (hg : t.regions = s.regions) (hd : t.devices = s.devices) (a : Nat) :
    t.ramWord? a = s.ramWord? a := by
  simp [State.ramWord?, State.locate, hg, State.ramCell?_congr hd]

/-- Where RAM holds a word, its first byte is routed to a RAM device. -/
theorem State.ramWord?_some {s : State} {a : Nat} {w : Word} (h : s.ramWord? a = some w) :
    ∃ d x, s.locate a = some (d, x) ∧ s.device d ≠ .peripheral ∧ s.ramCell? d x = some (hiByte w) ∧
      s.ramCell? d (x + 1) = some (loByte w) := by
  unfold State.ramWord? at h
  cases hl : s.locate a with
  | none => simp [hl] at h
  | some p =>
    obtain ⟨d, x⟩ := p
    refine ⟨d, x, rfl, fun hp => ?_, ?_⟩
    · simp [hl, State.ramCell?, hp] at h
    · cases hh : s.ramCell? d x <;> cases hlo : s.ramCell? d (x + 1) <;> simp [hl, hh, hlo] at h
      simp [← h]

/-- A word stays where RAM holds it when its two bytes do. -/
theorem State.ramWord?_of_cells {s : State} {a d x : Nat} {w : Word} (hl : s.locate a = some (d, x))
    (hh : s.ramCell? d x = some (hiByte w)) (hlo : s.ramCell? d (x + 1) = some (loByte w)) : s.ramWord? a = some w := by
  simp [State.ramWord?, hl, hh, hlo]

/-! ## One word access -/

/-- Everything a word write does to RAM and to the history. -/
theorem memWrite16_effect {s t : State} {a : Nat} {v : Word} (h : memWrite16 a v s = .ok t) :
    (∀ d x, s.locate a = some (d, x) → s.device d ≠ .peripheral →
      t.ramCell? d x = some (hiByte v) ∧ t.ramCell? d (x + 1) = some (loByte v)) ∧
    (∀ d b, s.covers a d b = false → t.ramCell? d b = s.ramCell? d b) ∧
    t.history = s.history ++ (s.wordEvent? .write16 a v).toList := by
  unfold memWrite16 at h
  cases hl : s.locate a with
  | none => simp [hl] at h
  | some p =>
    obtain ⟨d, x⟩ := p
    rw [hl] at h
    rcases deviceSet16_ok h with ⟨size, cells, hd, hx, rfl⟩ | ⟨hp, rfl⟩
    · obtain ⟨u, hu, _, _, _, _, _, hh, h1, h2, h3⟩ := deviceSet16_ram v hd hx
      obtain rfl : s.setCells d size _ = u := Except.ok.inj (h.symm.trans hu)
      refine ⟨fun d' x' e _ => ?_, fun d' b hc => h3 d' b ?_, by simp [State.wordEvent?, hl, hd]⟩
      · cases e
        exact ⟨h1, h2⟩
      · rintro ⟨rfl, hb⟩
        have := State.covers_eq_false hc hl
        omega
    · refine ⟨fun d' x' e hn => ?_, fun _ _ _ => rfl, by simp [State.wordEvent?, hl, hp]⟩
      cases e
      exact absurd hp hn

/-- Everything a word read answers and does to the history. -/
theorem memRead16_effect {s t : State} {a : Nat} {w : Word} (h : memRead16 a s = .ok (w, t)) :
    (∀ v, s.ramWord? a = some v → w = v) ∧ t.history = s.history ++ (s.wordEvent? .read16 a w).toList := by
  unfold memRead16 at h
  cases hl : s.locate a with
  | none => simp [hl] at h
  | some p =>
    obtain ⟨d, x⟩ := p
    rw [hl] at h
    rcases deviceGet16_ok h with ⟨hi, lo, hh, hlo, rfl, rfl⟩ | ⟨hp, rfl⟩
    · refine ⟨fun v hv => ?_, ?_⟩
      · simpa [State.ramWord?, hl, hh, hlo] using hv
      · unfold State.ramCell? at hh
        split at hh
        · rename_i hd
          simp [State.wordEvent?, hl, hd]
        · cases hh
    · exact ⟨fun v hv => by simp [State.ramWord?, hl, State.ramCell?, hp] at hv, by simp [State.wordEvent?, hl, hp]⟩

/-! ## A sequence of word writes -/

/-- `t` is `s` after words were written at addresses, in the order listed: the bytes of a word are its own unless a later
word is routed over them, every other byte is unchanged, and the words routed to peripherals are events. -/
structure WordsWritten (s t : State) (ws : List (Nat × Word)) : Prop where
  keeps : Keeps s t
  hi : ∀ before a v after, ws = before ++ (a, v) :: after → ∀ d x, s.locate a = some (d, x) → s.device d ≠ .peripheral →
    (∀ p ∈ after, s.covers p.1 d x = false) → t.ramCell? d x = some (hiByte v)
  lo : ∀ before a v after, ws = before ++ (a, v) :: after → ∀ d x, s.locate a = some (d, x) → s.device d ≠ .peripheral →
    (∀ p ∈ after, s.covers p.1 d (x + 1) = false) → t.ramCell? d (x + 1) = some (loByte v)
  frame : ∀ d b, (∀ p ∈ ws, s.covers p.1 d b = false) → t.ramCell? d b = s.ramCell? d b
  history : t.history = s.history ++ ws.filterMap fun p => s.wordEvent? .write16 p.1 p.2

theorem WordsWritten.nil (s : State) : WordsWritten s s [] :=
  ⟨Keeps.refl s, fun _ _ _ _ h => by simp at h, fun _ _ _ _ h => by simp at h, fun _ _ _ => rfl, by simp⟩

/-- A push, then the rest of a sequence. -/
theorem WordsWritten.push {s u t : State} {v : Word} {ws : List (Nat × Word)} (h : push v s = .ok u)
    (k : WordsWritten u t ws) : WordsWritten s t ((pushAddress s, v) :: ws) := by
  have hk := (push_keeps h).1
  obtain ⟨w, hw, rfl⟩ := push_ok h
  obtain ⟨hc, hf, hh⟩ := memWrite16_effect hw
  refine ⟨hk.trans k.keeps, fun before a v' after e d x hl hn ha => ?_, fun before a v' after e d x hl hn ha => ?_,
    fun d b hb => ?_, ?_⟩
  · cases before with
    | nil =>
      obtain ⟨⟨rfl, rfl⟩, rfl⟩ := by simpa using e
      exact (k.frame d x fun p hp => (hk.covers _ _ _).trans (ha p hp)).trans (hc d x hl hn).1
    | cons q before =>
      obtain ⟨_, rfl⟩ := by simpa using e
      exact k.hi before a v' after rfl d x ((hk.locate a).trans hl) (fun hp => hn ((hk.peripheral d).mp hp))
        fun p hp => (hk.covers _ _ _).trans (ha p hp)
  · cases before with
    | nil =>
      obtain ⟨⟨rfl, rfl⟩, rfl⟩ := by simpa using e
      exact (k.frame d (x + 1) fun p hp => (hk.covers _ _ _).trans (ha p hp)).trans (hc d x hl hn).2
    | cons q before =>
      obtain ⟨_, rfl⟩ := by simpa using e
      exact k.lo before a v' after rfl d x ((hk.locate a).trans hl) (fun hp => hn ((hk.peripheral d).mp hp))
        fun p hp => (hk.covers _ _ _).trans (ha p hp)
  · exact (k.frame d b fun p hp => (hk.covers _ _ _).trans (hb p (by simp [hp]))).trans (hf d b (hb (pushAddress s, v) (by simp)))
  · rw [k.history]
    simp only [hk.wordEvent?, State.setSfs_history, State.setReg_history, hh, List.append_assoc]
    cases he : s.wordEvent? .write16 (pushAddress s) v <;> simp [he]

/-- The writes of a sequence of pushes from `sp` = `a`: the `k`-th word at `a - 2 * k`. -/
def pushWrites (a : Word) : List Word → List (Nat × Word)
  | [] => []
  | w :: ws => (a.toNat, w) :: pushWrites (a - 2) ws

/-- What pushing registers writes. -/
theorem pushRegs_writes {rs : List Reg} {s t u : State} {ws : List (Nat × Word)} (hrs : .sp ∉ rs)
    (h : pushRegs rs s = .ok t) (k : WordsWritten t u ws) :
    WordsWritten s u (pushWrites (s.reg .sp) (rs.map s.reg) ++ ws) := by
  induction rs generalizing s with
  | nil =>
    cases h
    exact k
  | cons r rs ih =>
    obtain ⟨v, hp, h⟩ := Access.bind_ok.mp h
    rw [List.mem_cons, not_or] at hrs
    obtain ⟨_, hsp, hr, _⟩ := push_keeps hp
    have e := WordsWritten.push hp (ih hrs.2 h)
    rw [hsp, List.map_congr_left fun q hq => hr q fun e => hrs.2 (e ▸ hq)] at e
    exact e

/-- What a call writes (45_subroutine.md R190): its ten words at their ten addresses, in that order. -/
theorem pushFrame_writes {s t : State} (h : pushFrame s = .ok t) :
    WordsWritten s t ((List.range 10).map fun k => (s.frameAddress k, s.frameWord k)) := by
  unfold pushFrame at h
  obtain ⟨a, h1, h⟩ := Access.bind_ok.mp h
  obtain ⟨b, h2, h⟩ := Access.bind_ok.mp h
  obtain ⟨c, h3, h⟩ := Access.bind_ok.mp h
  cases h
  have hend : WordsWritten c ((c.setReg .fp (c.reg .sp)).setSfs 0) [] :=
    ⟨(Keeps.setReg _ _ _).trans (Keeps.setSfs _ _), fun _ _ _ _ e => by simp at e, fun _ _ _ _ e => by simp at e,
      fun _ _ _ => rfl, by simp⟩
  have e := pushRegs_writes (by decide) h1 (WordsWritten.push h2 (WordsWritten.push h3 hend))
  obtain ⟨_, sa, ra, fa⟩ := pushRegs_keeps (by decide) h1
  obtain ⟨_, sb, _, fb⟩ := push_keeps h2
  simp only [pushAddress, sb, sa, ra .ip (by decide), fb, fa] at e
  refine Eq.mp (congrArg _ ?_) e
  rw [show List.range 10 = [0, 1, 2, 3, 4, 5, 6, 7, 8, 9] from rfl]
  simp [pushWrites, savedRegs, State.frameAddress, State.frameWord, sub_sub, add_assoc]
  omega

/-! ## A sequence of word reads -/

/-- `t` is `s` after words were read at addresses, in the order listed: RAM answers what it holds, and what peripherals
answer are events. -/
structure WordsRead (s t : State) (rs : List (Nat × Word)) : Prop where
  keeps : Keeps s t
  devices : t.devices = s.devices
  ram : ∀ p ∈ rs, ∀ v, s.ramWord? p.1 = some v → p.2 = v
  history : t.history = s.history ++ rs.filterMap fun p => s.wordEvent? .read16 p.1 p.2

theorem WordsRead.nil {s t : State} (k : Keeps s t) (hd : t.devices = s.devices) (hh : t.history = s.history) :
    WordsRead s t [] :=
  ⟨k, hd, by simp, by simp [hh]⟩

theorem WordsRead.append {s t u : State} {rs qs : List (Nat × Word)} (h : WordsRead s t rs) (k : WordsRead t u qs) :
    WordsRead s u (rs ++ qs) := by
  refine ⟨h.keeps.trans k.keeps, k.devices.trans h.devices, fun p hp v hv => ?_, ?_⟩
  · rcases List.mem_append.mp hp with hp | hp
    · exact h.ram p hp v hv
    · exact k.ram p hp v ((State.ramWord?_congr h.keeps.regions h.devices p.1).trans hv)
  · rw [k.history, h.history]
    simp only [h.keeps.wordEvent?, List.filterMap_append, List.append_assoc]

theorem WordsRead.pop {s t : State} {w : Word} (h : pop s = .ok (w, t)) : WordsRead s t [(popAddress s, w)] := by
  obtain ⟨hk, _, _, _, hd⟩ := pop_ok h
  obtain ⟨hv, hh⟩ := memRead16_effect h
  refine ⟨hk, hd, fun p hp v hr => ?_, ?_⟩
  · obtain rfl : p = (popAddress s, w) := by simpa using hp
    exact hv v hr
  · have hh' : t.history = s.history ++ (s.wordEvent? .read16 (popAddress s) w).toList := hh
    rw [hh']
    cases he : s.wordEvent? .read16 (popAddress s) w <;> simp [he]

/-- A pop completes where its word is served. -/
theorem pop_served {s : State} (h : s.servesWord (popAddress s) = true) : ∃ w t, Machine.pop s = .ok (w, t) :=
  memRead16_served (s := (s.setReg .sp (s.reg .sp + 2)).setSfs (s.sfs - 2)).mpr h

/-- A pop faults where its word is not served. -/
theorem pop_unserved {s : State} (h : s.servesWord (popAddress s) = false) :
    Machine.pop s = .error (s.wordError (popAddress s)) :=
  memRead16_unserved (s := (s.setReg .sp (s.reg .sp + 2)).setSfs (s.sfs - 2)) h

/-- The reads of a sequence of pops from `sp` = `a`: the `k`-th word at `a + 2 + 2 * k`. -/
def popReads (a : Word) : List Word → List (Nat × Word)
  | [] => []
  | w :: ws => ((a + 2).toNat, w) :: popReads (a + 2) ws

theorem popReads_append (a : Word) (ws vs : List Word) :
    popReads a (ws ++ vs) = popReads a ws ++ popReads (a + BitVec.ofNat 16 (2 * ws.length)) vs := by
  induction ws generalizing a with
  | nil => simp [popReads]
  | cons w ws ih =>
    rw [List.cons_append, popReads, popReads, List.cons_append, ih, List.length_cons, Nat.mul_add, BitVec.ofNat_add,
      BitVec.add_assoc, BitVec.add_comm (BitVec.ofNat 16 (2 * ws.length)) (BitVec.ofNat 16 (2 * 1))]
    rfl

theorem popReads_eq_zipIdx (a : Word) (ws : List Word) (n : Nat) :
    popReads (a + BitVec.ofNat 16 (2 * n)) ws =
      (ws.zipIdx n).map fun p => ((a + BitVec.ofNat 16 (2 + 2 * p.2)).toNat, p.1) := by
  induction ws generalizing n with
  | nil => rfl
  | cons w ws ih =>
    have e : a + BitVec.ofNat 16 (2 * n) + 2 = a + BitVec.ofNat 16 (2 + 2 * n) := by
      rw [BitVec.ofNat_add, BitVec.add_assoc, BitVec.add_comm (BitVec.ofNat 16 (2 * n))]
      rfl
    rw [popReads, List.zipIdx_cons, List.map_cons, e, show 2 + 2 * n = 2 * (n + 1) by omega, ih]

/-- What popping into registers reads: with no register named twice, each holds the word popped into it. -/
theorem popRegs_reads {rs : List Reg} {s t : State} (hrs : .sp ∉ rs) (hn : rs.Nodup) (h : popRegs rs s = .ok t) :
    ∃ ws : List Word, ws = rs.map t.reg ∧ WordsRead s t (popReads (s.reg .sp) ws) := by
  induction rs generalizing s with
  | nil =>
    cases h
    exact ⟨[], rfl, WordsRead.nil (Keeps.refl _) rfl rfl⟩
  | cons r rs ih =>
    obtain ⟨⟨v, u⟩, hp, h⟩ := Access.bind_ok.mp h
    rw [List.mem_cons, not_or] at hrs
    rw [List.nodup_cons] at hn
    obtain ⟨ws, hg, hw⟩ := ih hrs.2 hn.2 h
    have hset : WordsRead u (u.setReg r v) [] := WordsRead.nil (Keeps.setReg _ _ _) rfl rfl
    have hr : t.reg r = v := by
      rw [(popRegs_ok hrs.2 h).2.2.1 r (fun e => hrs.1 e.symm) hn.1, State.reg_setReg_same]
    refine ⟨v :: ws, by rw [List.map_cons, hr, hg], ?_⟩
    have e := (WordsRead.pop hp).append (hset.append hw)
    rw [State.reg_setReg_ne _ _ hrs.1, (pop_ok hp).2.1] at e
    exact e

/-- What dropping words reads. -/
theorem discardWords_reads {n : Nat} {s t : State} (h : discardWords n s = .ok t) :
    ∃ ws : List Word, ws.length = n ∧ WordsRead s t (popReads (s.reg .sp) ws) := by
  induction n generalizing s with
  | zero =>
    cases h
    exact ⟨[], rfl, WordsRead.nil (Keeps.refl _) rfl rfl⟩
  | succ n ih =>
    obtain ⟨⟨v, u⟩, hp, h⟩ := Access.bind_ok.mp h
    obtain ⟨ws, hl, hw⟩ := ih h
    rw [(pop_ok hp).2.1] at hw
    exact ⟨v :: ws, by simp [hl], (WordsRead.pop hp).append hw⟩

/-- The pops of a return are at its return addresses. -/
theorem popReads_returnAddress (s : State) (ws : List Word) :
    popReads (s.reg .fp) ws = ws.zipIdx.map fun p => (s.returnAddress p.2, p.1) := by
  have e := popReads_eq_zipIdx (s.reg .fp) ws 0
  rw [Nat.mul_zero, show BitVec.ofNat 16 0 = 0 from rfl, show s.reg .fp + 0 = s.reg .fp by simp] at e
  exact e

/-- What a return reads and what it does with it (45_subroutine.md R191). -/
theorem popFrame_reads {s t : State} (h : popFrame s = .ok t) :
    ∃ (marker nArgs : Word) (dropped : List Word), dropped.length = nArgs.toNat ∧
      WordsRead s t (popReads (s.reg .fp)
        (marker :: t.reg .ip :: savedRegs.reverse.map t.reg ++ nArgs :: dropped)) ∧
      t.reg .fp = s.reg .fp + marker ∧ t.reg .sp = s.reg .fp + 22 + BitVec.ofNat 16 (2 * nArgs.toNat) ∧
      t.sfs = marker - 20 - BitVec.ofNat 16 (2 * nArgs.toNat) ∧ t.reg .acc = s.reg .acc := by
  unfold popFrame at h
  obtain ⟨⟨marker, s1⟩, h1, h⟩ := Access.bind_ok.mp h
  obtain ⟨⟨ret, s2⟩, h2, h⟩ := Access.bind_ok.mp h
  obtain ⟨s3, h3, h⟩ := Access.bind_ok.mp h
  obtain ⟨⟨nArgs, s4⟩, h4, h⟩ := Access.bind_ok.mp h
  obtain ⟨s5, h5, h⟩ := Access.bind_ok.mp h
  cases h
  obtain ⟨_, p1, r1, _, _⟩ := pop_ok h1
  obtain ⟨_, p2, r2, f2, _⟩ := pop_ok h2
  obtain ⟨_, p3, r3, f3, _⟩ := popRegs_ok (by decide) h3
  obtain ⟨_, p4, r4, f4, _⟩ := pop_ok h4
  obtain ⟨_, p5, r5, f5, _⟩ := discardWords_ok h5
  obtain ⟨mid, hm, w3⟩ := popRegs_reads (by decide) (by decide) h3
  obtain ⟨dropped, hl, w5⟩ := discardWords_reads h5
  have hsp1 : s1.reg .sp = s.reg .fp + 2 := by rw [p1]; simp
  have hsp2 : s2.reg .sp = s.reg .fp + 2 + 2 := by rw [p2]; simp [hsp1]
  have hsp3 : s3.reg .sp = s.reg .fp + 2 + 2 + 16 := by
    rw [p3, State.reg_setReg_ne _ _ (by decide), hsp2]
    rfl
  have hsp4 : s4.reg .sp = s.reg .fp + 2 + 2 + 16 + 2 := by rw [p4, hsp3]
  have hr : ∀ r, r ≠ .sp → s5.reg r = s3.reg r := fun r h => (r5 r h).trans (r4 r h)
  have hip : s3.reg .ip = ret := by rw [r3 _ (by decide) (by decide), State.reg_setReg_same]
  refine ⟨marker, nArgs, dropped, hl, ?_, by simp, ?_, ?_, ?_⟩
  · have a0 : WordsRead s (s.setReg .sp (s.reg .fp)) [] := WordsRead.nil (Keeps.setReg _ _ _) rfl rfl
    have a1 : WordsRead s1 (s1.setSfs marker) [] := WordsRead.nil (Keeps.setSfs _ _) rfl rfl
    have a2 : WordsRead s2 (s2.setReg .ip ret) [] := WordsRead.nil (Keeps.setReg _ _ _) rfl rfl
    have a5 : WordsRead s5 (s5.setReg .fp (s.reg .fp + marker)) [] := WordsRead.nil (Keeps.setReg _ _ _) rfl rfl
    have e := a0.append ((WordsRead.pop h1).append (a1.append ((WordsRead.pop h2).append (a2.append
      (w3.append ((WordsRead.pop h4).append (w5.append a5)))))))
    have hmid : savedRegs.reverse.map (s5.setReg .fp (s.reg .fp + marker)).reg = mid := by
      rw [hm]
      simp [savedRegs, hr]
    rw [State.reg_setReg_ne _ _ (by decide), hr .ip (by decide), hip, hmid, List.cons_append, List.cons_append]
    simp only [popReads, popReads_append, show mid.length = 8 by rw [hm]; rfl]
    simp only [popAddress, State.setSfs_reg, hsp1, State.reg_setReg_same, hsp3, hsp4,
      State.reg_setReg_ne _ _ (show Reg.sp ≠ Reg.ip by decide), hsp2, List.nil_append, List.append_nil,
      List.cons_append] at e
    exact e
  · rw [State.reg_setReg_ne _ _ (by decide), p5, hsp4]
    exact frame_words_up _ _
  · rw [State.setReg_sfs, f5, f4, f3, State.setReg_sfs, f2, State.setSfs_sfs,
      show BitVec.ofNat 16 (2 * savedRegs.reverse.length) = 16 from rfl]
    exact frame_words_counted _ _
  · rw [State.reg_setReg_ne _ _ (by decide), hr _ (by decide), r3 _ (by decide) (by decide),
      State.reg_setReg_ne _ _ (by decide), r2 _ (by decide), State.setSfs_reg, r1 _ (by decide),
      State.reg_setReg_ne _ _ (by decide)]

/-! ## Where the words of a sequence of reads are served -/

/-- The `k`-th word after a pop is the next one before it. -/
theorem pop_step (x : Word) (k : Nat) : x + 2 + BitVec.ofNat 16 (2 + 2 * k) = x + BitVec.ofNat 16 (2 + 2 * (k + 1)) := by
  rw [show 2 + 2 * (k + 1) = 2 + (2 + 2 * k) by omega, BitVec.ofNat_add 2 (2 + 2 * k), BitVec.add_assoc]
  rfl

/-- Popping into registers completes where its words are served. -/
theorem popRegs_served {rs : List Reg} {s : State} (hrs : .sp ∉ rs)
    (h : ∀ k, k < rs.length → s.servesWord (s.reg .sp + BitVec.ofNat 16 (2 + 2 * k)).toNat = true) :
    ∃ t, popRegs rs s = .ok t := by
  induction rs generalizing s with
  | nil => exact ⟨s, rfl⟩
  | cons r rs ih =>
    rw [List.mem_cons, not_or] at hrs
    obtain ⟨v, u, hp⟩ := pop_served (s := s) (h 0 (by simp))
    obtain ⟨hk, hsp, _, _, _⟩ := pop_ok hp
    obtain ⟨t, ht⟩ := ih (s := u.setReg r v) hrs.2 fun k hk' => by
      rw [State.setReg_servesWord, State.reg_setReg_ne _ _ hrs.1, hsp, hk.servesWord, pop_step]
      exact h (k + 1) (by simpa using hk')
    exact ⟨t, by simp [popRegs, hp, ht]⟩

/-- Dropping words completes where they are served. -/
theorem discardWords_served {n : Nat} {s : State}
    (h : ∀ k, k < n → s.servesWord (s.reg .sp + BitVec.ofNat 16 (2 + 2 * k)).toNat = true) :
    ∃ t, discardWords n s = .ok t := by
  induction n generalizing s with
  | zero => exact ⟨s, rfl⟩
  | succ n ih =>
    obtain ⟨v, u, hp⟩ := pop_served (s := s) (h 0 (by simp))
    obtain ⟨hk, hsp, _, _, _⟩ := pop_ok hp
    obtain ⟨t, ht⟩ := ih (s := u) fun k hk' => by
      rw [hsp, hk.servesWord, pop_step]
      exact h (k + 1) (by omega)
    exact ⟨t, by simp [discardWords, hp, ht]⟩

/-- Popping into registers faults at its first word that is not served. -/
theorem popRegs_unserved {rs : List Reg} {s : State} (hrs : .sp ∉ rs) {k : Nat} (hk : k < rs.length)
    (h : ∀ j, j < k → s.servesWord (s.reg .sp + BitVec.ofNat 16 (2 + 2 * j)).toNat = true)
    (hu : s.servesWord (s.reg .sp + BitVec.ofNat 16 (2 + 2 * k)).toNat = false) :
    popRegs rs s = .error (s.wordError (s.reg .sp + BitVec.ofNat 16 (2 + 2 * k)).toNat) := by
  induction rs generalizing s k with
  | nil => simp at hk
  | cons r rs ih =>
    rw [List.mem_cons, not_or] at hrs
    cases k with
    | zero =>
      simp only [popRegs, pop_unserved (s := s) hu]
      rfl
    | succ k =>
      obtain ⟨v, u, hp⟩ := pop_served (s := s) (h 0 (by simp))
      obtain ⟨kk, hsp, _, _, _⟩ := pop_ok hp
      have hsp' : (u.setReg r v).reg .sp = s.reg .sp + 2 := by rw [State.reg_setReg_ne _ _ hrs.1, hsp]
      have e := ih (s := u.setReg r v) (k := k) hrs.2 (by simpa using hk)
        (fun j hj => by
          rw [State.setReg_servesWord, hsp', kk.servesWord, pop_step]
          exact h (j + 1) (by omega))
        (by
          rw [State.setReg_servesWord, hsp', kk.servesWord, pop_step]
          exact hu)
      rw [State.setReg_wordError, hsp', kk.wordError, pop_step] at e
      simp only [popRegs, hp, Access.ok_bind, e]

/-- Dropping words faults at the first one that is not served. -/
theorem discardWords_unserved {n : Nat} {s : State} {k : Nat} (hk : k < n)
    (h : ∀ j, j < k → s.servesWord (s.reg .sp + BitVec.ofNat 16 (2 + 2 * j)).toNat = true)
    (hu : s.servesWord (s.reg .sp + BitVec.ofNat 16 (2 + 2 * k)).toNat = false) :
    discardWords n s = .error (s.wordError (s.reg .sp + BitVec.ofNat 16 (2 + 2 * k)).toNat) := by
  induction n generalizing s k with
  | zero => simp at hk
  | succ n ih =>
    cases k with
    | zero =>
      simp only [discardWords, pop_unserved (s := s) hu]
      rfl
    | succ k =>
      obtain ⟨v, u, hp⟩ := pop_served (s := s) (h 0 (by simp))
      obtain ⟨kk, hsp, _, _, _⟩ := pop_ok hp
      have e := ih (s := u) (k := k) (by simpa using hk)
        (fun j hj => by
          rw [hsp, kk.servesWord, pop_step]
          exact h (j + 1) (by omega))
        (by
          rw [hsp, kk.servesWord, pop_step]
          exact hu)
      rw [hsp, kk.wordError, pop_step] at e
      simp only [discardWords, hp, Access.ok_bind, e]

/-! ## The reference map -/

/-- In the reference map a word access below 0xFFFF is a word of RAM, at its own address in device 0. -/
theorem State.inReferenceMap.word {s : State} (h : s.inReferenceMap) {a : Nat} (ha : a < 0xFFFF) :
    s.locate a = some (0, a) ∧ (s.ramWord? a).isSome = true := by
  obtain ⟨hr, cells, hd⟩ := h
  have h1 : a ≤ 0xFFFF := by omega
  have hl : s.locate a = some (0, a) := by
    simp [State.locate, hr, resolve, referenceRegions, regionContains, localAddress, addrSpace, h1]
  refine ⟨hl, ?_⟩
  have h2 : a < addrSpace := by unfold addrSpace; omega
  have h3 : a + 1 < addrSpace := by unfold addrSpace; omega
  simp [State.ramWord?, hl, State.ramCell?, hd, h2, h3]

/-- In the reference map two words at addresses that differ by an even number and lie below 0xFFFF are apart. -/
theorem State.inReferenceMap.apart {s : State} (h : s.inReferenceMap) {a b : Nat} (ha : a < 0xFFFF) (hb : b < 0xFFFF)
    (hne : a ≠ b) (hpar : a % 2 = b % 2) : s.apart a b = true := by
  simp [State.apart, State.covers, (h.word ha).1, (h.word hb).1]
  omega

/-- In the reference map a call's frame lies in RAM wherever none of its words is at 0xFFFF. -/
theorem State.inReferenceMap.frameInRam {s : State} (h : s.inReferenceMap)
    (hk : ∀ k, k < 10 → s.frameAddress k ≠ 0xFFFF) : s.frameInRam := by
  have hlt : ∀ k, k < 10 → s.frameAddress k < 0xFFFF := fun k h' => by
    have := hk k h'
    have := (s.reg .sp - BitVec.ofNat 16 (2 * k)).isLt
    unfold State.frameAddress at *
    omega
  refine ⟨fun k h' => (h.word (hlt k h')).2, fun k h' j hj => h.apart (hlt j (by omega)) (hlt k h') ?_ ?_⟩
  all_goals
    have := (s.reg .sp).isLt
    simp only [State.frameAddress, BitVec.toNat_sub, BitVec.toNat_ofNat]
    omega

/-- In the reference map the caller's last word is in RAM and apart from the frame where `sp` is even. -/
theorem State.inReferenceMap.count_apart {s : State} (h : s.inReferenceMap) (he : (s.reg .sp).toNat % 2 = 0) :
    s.frameInRam ∧ (s.ramWord? (popAddress s)).isSome = true ∧
      ∀ k, k < 10 → s.apart (popAddress s) (s.frameAddress k) = true := by
  have hlt := (s.reg .sp).isLt
  have hp : popAddress s < 0xFFFF ∧ popAddress s % 2 = 0 := by
    simp only [popAddress, BitVec.toNat_add, show (2 : Word).toNat = 2 from rfl]
    omega
  have hf : ∀ k, k < 10 → s.frameAddress k < 0xFFFF ∧ s.frameAddress k % 2 = 0 ∧ popAddress s ≠ s.frameAddress k := by
    intro k hk
    simp only [popAddress, State.frameAddress, BitVec.toNat_add, BitVec.toNat_sub, BitVec.toNat_ofNat,
      show (2 : Word).toNat = 2 from rfl]
    omega
  exact ⟨h.frameInRam fun k hk => Nat.ne_of_lt (hf k hk).1, (h.word hp.1).2,
    fun k hk => h.apart hp.1 (hf k hk).1 (hf k hk).2.2 (hp.2.trans (hf k hk).2.1.symm)⟩

end Sys2Proof.Machine
end

