-- ==== Sys2Proof/Laws/Meanings.lean ====
section
/-! SUPPORT. What the operations that several meanings share can do: loads, the conditional jump, the shifts, and the
fetch of a whole instruction. -/

namespace Sys2Proof.Machine

/-! ## Loads and jumps -/

/-- Everything a load can answer: the word read, in the register. -/
theorem loadTo_ok {a : Nat} {rd : Reg} {s t : State} (h : loadTo a rd s = .ok t) :
    ∃ v u, memRead16 a s = .ok (v, u) ∧ t = u.setReg rd v := by
  unfold loadTo at h
  obtain ⟨⟨v, u⟩, hr, h⟩ := Access.bind_ok.mp h
  cases h
  exact ⟨v, u, hr, rfl⟩

/-- A load raises the error of its read and no other. -/
theorem loadTo_error {a : Nat} {rd : Reg} {s : State} {e : FatalError} :
    loadTo a rd s = .error e ↔ memRead16 a s = .error e := by
  unfold loadTo
  rw [Access.bind_error]
  simp

/-- A load from RAM. -/
theorem loadTo_ram {a : Nat} {rd : Reg} {s : State} {w : Word} (h : s.ramWord? a = some w) :
    loadTo a rd s = .ok (s.setReg rd w) := by
  simp [loadTo, memRead16_ram h]

/-- A conditional jump writes `ip` and nothing else. -/
theorem jumpIf_onlyRegWritten (rel : JumpRelation) (operand target : Word) (s : State) :
    s.onlyRegWritten (jumpIf rel operand target s) .ip
      (if relationHolds rel operand (s.reg .acc) then target else s.reg .ip) := by
  unfold jumpIf
  split
  · exact s.onlyRegWritten_setReg _ _
  · exact ⟨rfl, fun _ _ => rfl, rfl, rfl, rfl, rfl, rfl, rfl, fun _ _ => rfl, fun _ => rfl⟩

/-! ## Shifts -/

theorem toNat_leftShift (v amount : Word) :
    (leftShift v amount).toNat = (v.toNat * 2 ^ shiftAmount amount) % 65536 := by
  simp [leftShift, Nat.shiftLeft_eq]

theorem toNat_rightShift (v amount : Word) : (rightShift v amount).toNat = v.toNat / 2 ^ shiftAmount amount := by
  simp [rightShift, Nat.shiftRight_eq_div_pow]

/-! ## The fetch of an instruction -/

theorem advance_one (x : Word) (n : Nat) : x + 1 + BitVec.ofNat 16 n = x + BitVec.ofNat 16 (n + 1) := by
  rw [BitVec.ofNat_add]
  change x + 1 + _ = x + (_ + 1)
  ring

theorem advance_two (x : Word) (n : Nat) : x + 2 + BitVec.ofNat 16 n = x + BitVec.ofNat 16 (n + 1 + 1) := by
  rw [BitVec.ofNat_add, BitVec.ofNat_add]
  change x + 2 + _ = x + (_ + 1 + 1)
  ring

/-- The operand fetches move `ip` past the bytes they bring. -/
theorem fetchFields_ip {fs : List Field} {s t : State} {bs : List Byte} (h : fetchFields fs s = .ok (bs, t)) :
    t.reg .ip = s.reg .ip + BitVec.ofNat 16 bs.length := by
  induction fs generalizing s bs with
  | nil =>
    cases h
    simp
  | cons f fs ih =>
    cases f with
    | reg =>
      obtain ⟨⟨b, u⟩, hf, h⟩ := Access.bind_ok.mp h
      obtain ⟨⟨cs, v⟩, hg, h⟩ := Access.bind_ok.mp h
      cases h
      obtain ⟨w, _, rfl⟩ := fetch8_ok hf
      rw [ih hg, State.reg_setReg_same, advance_one, List.length_cons]
    | word =>
      obtain ⟨⟨w, u⟩, hf, h⟩ := Access.bind_ok.mp h
      obtain ⟨⟨cs, v⟩, hg, h⟩ := Access.bind_ok.mp h
      cases h
      obtain ⟨x, _, rfl⟩ := fetch16_ok hf
      rw [ih hg, State.reg_setReg_same, advance_two, List.length_cons, List.length_cons]

/-- The fetch of an instruction moves `ip` past it. -/
theorem fetchBytes_ip {s t : State} {bytes : List Byte} (h : fetchBytes s = .ok (bytes, t)) :
    t.reg .ip = s.reg .ip + BitVec.ofNat 16 bytes.length := by
  unfold fetchBytes at h
  obtain ⟨⟨b, u⟩, hf, h⟩ := Access.bind_ok.mp h
  obtain ⟨⟨bs, v⟩, hg, h⟩ := Access.bind_ok.mp h
  cases h
  obtain ⟨w, _, rfl⟩ := fetch8_ok hf
  rw [fetchFields_ip hg, State.reg_setReg_same, advance_one, List.length_cons]

@[simp] theorem State.setReg_setReg (s : State) (r : Reg) (v w : Word) : (s.setReg r v).setReg r w = s.setReg r w := by
  cases r <;> rfl

@[simp] theorem State.setReg_holdsFields (s : State) (r : Reg) (v : Word) (fs : List Field) (bs : List Byte) (a : Word) :
    (s.setReg r v).holdsFields fs bs a ↔ s.holdsFields fs bs a := by
  induction fs generalizing bs a with
  | nil => cases bs <;> exact Iff.rfl
  | cons f fs ih =>
    cases f with
    | reg =>
      rcases bs with _ | ⟨b, bs⟩
      · exact Iff.rfl
      · simp [State.holdsFields, ih]
    | word =>
      rcases bs with _ | ⟨h, _ | ⟨l, bs⟩⟩
      · exact Iff.rfl
      · exact Iff.rfl
      · simp [State.holdsFields, ih]

/-- The operand fetches where RAM holds the operands. -/
theorem fetchFields_ram {fs : List Field} {bs : List Byte} {s : State} (h : s.holdsFields fs bs (s.reg .ip)) :
    fetchFields fs s = .ok (bs, s.setReg .ip (s.reg .ip + BitVec.ofNat 16 bs.length)) := by
  induction fs generalizing s bs with
  | nil =>
    cases bs with
    | nil => simp [fetchFields, State.setReg, State.reg]
    | cons b bs => cases h
  | cons f fs ih =>
    cases f with
    | reg =>
      rcases bs with _ | ⟨b, bs⟩
      · cases h
      · obtain ⟨hb, h⟩ := h
        have h' := ih (s := s.setReg .ip (s.reg .ip + 1)) (bs := bs) (by simpa using h)
        rw [State.setReg_setReg, State.reg_setReg_same, advance_one] at h'
        simp only [fetchFields, fetch8_ram hb, Access.ok_bind, h']
        rfl
    | word =>
      rcases bs with _ | ⟨x, _ | ⟨y, bs⟩⟩
      · cases h
      · cases h
      · obtain ⟨hw, h⟩ := h
        have h' := ih (s := s.setReg .ip (s.reg .ip + 2)) (bs := bs) (by simpa using h)
        rw [State.setReg_setReg, State.reg_setReg_same, advance_two] at h'
        simp only [fetchFields, fetch16_ram hw, Access.ok_bind, h']
        simp

end Sys2Proof.Machine
end

