-- ==== Sys2Proof/Laws/PerInstr.lean ====
section
/-! SUPPORT. Statements about every instruction as syntax, one lemma per constructor of `Instr`. -/

namespace Sys2Proof.Laws.EncodedLength

/-- The encoder writes as many bytes as the first of them asks for (30_encoding.md R95, R100), where the instruction is
well formed. -/
def Statement (i : Instr) : Prop :=
  i.wellFormed = true → ∃ b bs, encode i = b :: bs ∧ (encode i).length = opcodeLength b

theorem movLitReg (a : Word) (b : Reg) : Statement (.movLitReg a b) :=
  fun _ => ⟨_, _, rfl, rfl⟩

theorem movRegReg (a : Reg) (b : Reg) : Statement (.movRegReg a b) :=
  fun _ => ⟨_, _, rfl, rfl⟩

theorem movRegMem (a : Reg) (b : Word) : Statement (.movRegMem a b) :=
  fun _ => ⟨_, _, rfl, rfl⟩

theorem movMemReg (a : Word) (b : Reg) : Statement (.movMemReg a b) :=
  fun _ => ⟨_, _, rfl, rfl⟩

theorem movLitMem (a : Word) (b : Word) : Statement (.movLitMem a b) :=
  fun _ => ⟨_, _, rfl, rfl⟩

theorem movRegPtrReg (a : Reg) (b : Reg) : Statement (.movRegPtrReg a b) :=
  fun _ => ⟨_, _, rfl, rfl⟩

theorem movLitOffReg (a : Word) (b : Reg) (c : Reg) : Statement (.movLitOffReg a b c) :=
  fun _ => ⟨_, _, rfl, rfl⟩

theorem addRegReg (a : Reg) (b : Reg) : Statement (.addRegReg a b) :=
  fun _ => ⟨_, _, rfl, rfl⟩

theorem addLitReg (a : Word) (b : Reg) : Statement (.addLitReg a b) :=
  fun _ => ⟨_, _, rfl, rfl⟩

theorem subRegReg (a : Reg) (b : Reg) : Statement (.subRegReg a b) :=
  fun _ => ⟨_, _, rfl, rfl⟩

theorem subLitReg (a : Word) (b : Reg) : Statement (.subLitReg a b) :=
  fun _ => ⟨_, _, rfl, rfl⟩

theorem mulRegReg (a : Reg) (b : Reg) : Statement (.mulRegReg a b) :=
  fun _ => ⟨_, _, rfl, rfl⟩

theorem mulLitReg (a : Word) (b : Reg) : Statement (.mulLitReg a b) :=
  fun _ => ⟨_, _, rfl, rfl⟩

theorem incReg (a : Reg) : Statement (.incReg a) :=
  fun _ => ⟨_, _, rfl, rfl⟩

theorem decReg (a : Reg) : Statement (.decReg a) :=
  fun _ => ⟨_, _, rfl, rfl⟩

theorem andRegLit (a : Reg) (b : Word) : Statement (.andRegLit a b) :=
  fun _ => ⟨_, _, rfl, rfl⟩

theorem andRegReg (a : Reg) (b : Reg) : Statement (.andRegReg a b) :=
  fun _ => ⟨_, _, rfl, rfl⟩

theorem orRegLit (a : Reg) (b : Word) : Statement (.orRegLit a b) :=
  fun _ => ⟨_, _, rfl, rfl⟩

theorem orRegReg (a : Reg) (b : Reg) : Statement (.orRegReg a b) :=
  fun _ => ⟨_, _, rfl, rfl⟩

theorem xorRegLit (a : Reg) (b : Word) : Statement (.xorRegLit a b) :=
  fun _ => ⟨_, _, rfl, rfl⟩

theorem xorRegReg (a : Reg) (b : Reg) : Statement (.xorRegReg a b) :=
  fun _ => ⟨_, _, rfl, rfl⟩

theorem notReg (a : Reg) : Statement (.notReg a) :=
  fun _ => ⟨_, _, rfl, rfl⟩

theorem lsfRegLit (a : Reg) (b : Word) : Statement (.lsfRegLit a b) :=
  fun _ => ⟨_, _, rfl, rfl⟩

theorem lsfRegReg (a : Reg) (b : Reg) : Statement (.lsfRegReg a b) :=
  fun _ => ⟨_, _, rfl, rfl⟩

theorem rsfRegLit (a : Reg) (b : Word) : Statement (.rsfRegLit a b) :=
  fun _ => ⟨_, _, rfl, rfl⟩

theorem rsfRegReg (a : Reg) (b : Reg) : Statement (.rsfRegReg a b) :=
  fun _ => ⟨_, _, rfl, rfl⟩

theorem jneLit (a : Word) (b : Word) : Statement (.jneLit a b) :=
  fun _ => ⟨_, _, rfl, rfl⟩

theorem jneReg (a : Reg) (b : Word) : Statement (.jneReg a b) :=
  fun _ => ⟨_, _, rfl, rfl⟩

theorem jeqLit (a : Word) (b : Word) : Statement (.jeqLit a b) :=
  fun _ => ⟨_, _, rfl, rfl⟩

theorem jeqReg (a : Reg) (b : Word) : Statement (.jeqReg a b) :=
  fun _ => ⟨_, _, rfl, rfl⟩

theorem jltLit (a : Word) (b : Word) : Statement (.jltLit a b) :=
  fun _ => ⟨_, _, rfl, rfl⟩

theorem jltReg (a : Reg) (b : Word) : Statement (.jltReg a b) :=
  fun _ => ⟨_, _, rfl, rfl⟩

theorem jgtLit (a : Word) (b : Word) : Statement (.jgtLit a b) :=
  fun _ => ⟨_, _, rfl, rfl⟩

theorem jgtReg (a : Reg) (b : Word) : Statement (.jgtReg a b) :=
  fun _ => ⟨_, _, rfl, rfl⟩

theorem jleLit (a : Word) (b : Word) : Statement (.jleLit a b) :=
  fun _ => ⟨_, _, rfl, rfl⟩

theorem jleReg (a : Reg) (b : Word) : Statement (.jleReg a b) :=
  fun _ => ⟨_, _, rfl, rfl⟩

theorem jgeLit (a : Word) (b : Word) : Statement (.jgeLit a b) :=
  fun _ => ⟨_, _, rfl, rfl⟩

theorem jgeReg (a : Reg) (b : Word) : Statement (.jgeReg a b) :=
  fun _ => ⟨_, _, rfl, rfl⟩

theorem pshLit (a : Word) : Statement (.pshLit a) :=
  fun _ => ⟨_, _, rfl, rfl⟩

theorem pshReg (a : Reg) : Statement (.pshReg a) :=
  fun _ => ⟨_, _, rfl, rfl⟩

theorem pop (a : Reg) : Statement (.pop a) :=
  fun _ => ⟨_, _, rfl, rfl⟩

theorem calLit (a : Word) : Statement (.calLit a) :=
  fun _ => ⟨_, _, rfl, rfl⟩

theorem calReg (a : Reg) : Statement (.calReg a) :=
  fun _ => ⟨_, _, rfl, rfl⟩

theorem ret : Statement (.ret) :=
  fun _ => ⟨_, _, rfl, rfl⟩

theorem hlt : Statement (.hlt) :=
  fun _ => ⟨_, _, rfl, rfl⟩

theorem unknownOpcode (a : Byte) : Statement (.unknownOpcode a) := by
  intro h
  have ho := OpcodeMap.opOf?_eq_none.mpr h
  exact ⟨a, [], rfl, by simp [encode, encodeWith, opcodeLength, OpcodeMap.fieldsOf, ho]⟩

end Sys2Proof.Laws.EncodedLength
end

