-- ==== Sys2Proof/Tests/Slice0.lean ====
section
/-! SUPPORT. Tests: well-formedness, decoding, single steps with the expected values of 95_test_vectors.md, the host's
operations, and for each statement with hypotheses a state that meets them. -/

open Sys2Proof Sys2Proof.Machine

namespace Sys2Proof.Tests

/-! ## Building states and looking at steps -/

/-- Bytes stored in device 0 from an address on. -/
def put (s : State) (p : Nat × List Byte) : State :=
  match loadImage 0 p.2 p.1 s with
  | .ok t => t
  | .error _ => s

/-- The reset state (95_test_vectors.md) with registers, `sfs` and bytes of RAM set. -/
def boot (regs : List (Reg × Word)) (sfs : Word) (mem : List (Nat × List Byte)) : State :=
  mem.foldl put ((regs.foldl (fun s p => s.setReg p.1 p.2) State.reset).setSfs sfs)

def allRegs : List Reg := [.ip, .acc, .r1, .r2, .r3, .r4, .r5, .r6, .r7, .r8, .sp, .fp]

/-- One step answers a next state with the listed registers and words of RAM, this `sfs` and run state, and every other
register as it was. -/
def ends (s : State) (regs : List (Reg × Word)) (sfs : Word) (words : List (Nat × Word)) (run : RunState) : Bool :=
  match step s with
  | .next t =>
    allRegs.all (fun r => t.reg r == ((regs.lookup r).getD (s.reg r))) && t.sfs == sfs && t.run == run &&
      words.all (fun p => t.ramWord? p.1 == some p.2)
  | .fault _ => false
  | .refused _ => false

/-- One step is this fatal error. -/
def faults (s : State) (e : FatalError) : Bool :=
  match step s with
  | .next _ => false
  | .fault f => f == .fatal e
  | .refused _ => false

/-- One step answers a next state. -/
def completes (s : State) : Bool :=
  match step s with
  | .next _ => true
  | .fault _ => false
  | .refused _ => false

theorem completes_next {s : State} (h : completes s = true) : ∃ t, step s = .next t := by
  unfold completes at h
  split at h
  · exact ⟨_, by assumption⟩
  · cases h
  · cases h

/-- The map of V-FLT-1: a RAM of 256 bytes over 0x0000 to 0x00FF and nothing else, with bytes of code. -/
def small (ip : Word) (mem : List (Nat × List Byte)) : State :=
  let s := { State.reset with
    regions := [{ token := 0, device := 0, start := 0, stop := 0xFF, remap := true }], devices := [.ram 256 []] }
  mem.foldl put (s.setReg .ip ip)

/-- A state whose newest region, 0x8000 to 0x8FFF, is a peripheral: device 1. -/
def withPeripheral (s : State) : State := (mapRegion 1 0x8000 0x8FFF true (addDevice .peripheral s).2).2

/-! ## Well-formedness: the one check, and the ill-formed term it refuses -/

theorem test_ill_formed_unknownOpcode : (Instr.unknownOpcode 0x10).wellFormed = false := by decide

theorem test_ill_formed_unknownOpcode_last : (Instr.unknownOpcode 0xFF).wellFormed = false := by decide

theorem test_well_formed_unknownOpcode : (Instr.unknownOpcode 0x00).wellFormed = true := by decide


/-! ## Every constructor is decoded: bytes written out from the formats and the opcode numbers of 30_encoding.md R95 to R97,
register bytes taken modulo 12 (R93) -/

theorem test_decode_movLitReg : decode [0x10, 0x12, 0x9A, 0x26] = .ok (.movLitReg 0x129A .r1, []) := by decide

theorem test_decode_movRegReg : decode [0x11, 0x29, 0x2C] = .ok (.movRegReg .r4 .r7, []) := by decide

theorem test_decode_movRegMem : decode [0x12, 0x2F, 0xAB, 0x65] = .ok (.movRegMem .fp 0xAB65, []) := by decide

theorem test_decode_movMemReg : decode [0x13, 0xB0, 0x74, 0x78] = .ok (.movMemReg 0xB074 .ip, []) := by decide

theorem test_decode_movLitMem : decode [0x1B, 0xDA, 0xF2, 0x14, 0x22] = .ok (.movLitMem 0xDAF2 0x1422, []) := by decide

theorem test_decode_movRegPtrReg : decode [0x1C, 0xC1, 0xC4] = .ok (.movRegPtrReg .acc .r3, []) := by decide

theorem test_decode_movLitOffReg : decode [0x1D, 0x2E, 0xEE, 0xEA, 0xED] = .ok (.movLitOffReg 0x2EEE .r5 .r8, []) := by decide

theorem test_decode_addRegReg : decode [0x14, 0xF0, 0xF3] = .ok (.addRegReg .ip .r2, []) := by decide

theorem test_decode_addLitReg : decode [0x3F, 0xC7, 0xB9, 0x19] = .ok (.addLitReg 0xC7B9 .acc, []) := by decide

theorem test_decode_subRegReg : decode [0x1F, 0x1C, 0x1F] = .ok (.subRegReg .r3 .r6, []) := by decide

theorem test_decode_subLitReg : decode [0x16, 0x3B, 0x15, 0x45] = .ok (.subLitReg 0x3B15 .r8, []) := by decide

theorem test_decode_mulRegReg : decode [0x21, 0x48, 0x4B] = .ok (.mulRegReg .ip .r2, []) := by decide

theorem test_decode_mulLitReg : decode [0x20, 0xAF, 0x71, 0x71] = .ok (.mulLitReg 0xAF71 .r4, []) := by decide

theorem test_decode_incReg : decode [0x35, 0x74] = .ok (.incReg .r7, []) := by decide

theorem test_decode_decReg : decode [0x36, 0x77] = .ok (.decReg .fp, []) := by decide

theorem test_decode_andRegLit : decode [0x2E, 0x7A, 0x48, 0x3C] = .ok (.andRegLit .r1 0x483C, []) := by decide

theorem test_decode_andRegReg : decode [0x2F, 0xA0, 0xA3] = .ok (.andRegReg .r3 .r6, []) := by decide

theorem test_decode_orRegLit : decode [0x30, 0xA6, 0xBC, 0x98] = .ok (.orRegLit .sp 0xBC98, []) := by decide

theorem test_decode_orRegReg : decode [0x31, 0xCC, 0xCF] = .ok (.orRegReg .ip .r2, []) := by decide

theorem test_decode_xorRegLit : decode [0x32, 0xD2, 0x30, 0xF4] = .ok (.xorRegLit .r5 0x30F4, []) := by decide

theorem test_decode_xorRegReg : decode [0x33, 0xF8, 0xFB] = .ok (.xorRegReg .r7 .fp, []) := by decide

theorem test_decode_notReg : decode [0x34, 0xFE] = .ok (.notReg .r1, []) := by decide

theorem test_decode_lsfRegLit : decode [0x26, 0x01, 0xC9, 0xBF] = .ok (.lsfRegLit .acc 0xC9BF, []) := by decide

theorem test_decode_lsfRegReg : decode [0x27, 0x27, 0x2A] = .ok (.lsfRegReg .r2 .r5, []) := by decide

theorem test_decode_rsfRegLit : decode [0x2A, 0x2D, 0x3D, 0x1B] = .ok (.rsfRegLit .r8 0x3D1B, []) := by decide

theorem test_decode_rsfRegReg : decode [0x2B, 0x53, 0x56] = .ok (.rsfRegReg .fp .r1, []) := by decide

theorem test_decode_jneLit : decode [0x15, 0x8C, 0x08, 0xC6, 0x38] = .ok (.jneLit 0x8C08 0xC638, []) := by decide

theorem test_decode_jneReg : decode [0x40, 0x9F, 0xBB, 0x95] = .ok (.jneReg .r2 0xBB95, []) := by decide

theorem test_decode_jeqLit : decode [0x41, 0xC0, 0xA4, 0xFA, 0xD4] = .ok (.jeqLit 0xC0A4 0xFAD4, []) := by decide

theorem test_decode_jeqReg : decode [0x3E, 0x0B, 0xEF, 0x31] = .ok (.jeqReg .fp 0xEF31, []) := by decide

theorem test_decode_jltLit : decode [0x43, 0xF4, 0x40, 0x2E, 0x70] = .ok (.jltLit 0xF440 0x2E70, []) := by decide

theorem test_decode_jltReg : decode [0x42, 0x77, 0x23, 0xCD] = .ok (.jltReg .fp 0x23CD, []) := by decide

theorem test_decode_jgtLit : decode [0x45, 0x28, 0xDC, 0x62, 0x0C] = .ok (.jgtLit 0x28DC 0x620C, []) := by decide

theorem test_decode_jgtReg : decode [0x44, 0xE3, 0x57, 0x69] = .ok (.jgtReg .fp 0x5769, []) := by decide

theorem test_decode_jleLit : decode [0x47, 0x5C, 0x78, 0x96, 0xA8] = .ok (.jleLit 0x5C78 0x96A8, []) := by decide

theorem test_decode_jleReg : decode [0x46, 0x4F, 0x8B, 0x05] = .ok (.jleReg .r6 0x8B05, []) := by decide

theorem test_decode_jgeLit : decode [0x49, 0x90, 0x14, 0xCA, 0x44] = .ok (.jgeLit 0x9014 0xCA44, []) := by decide

theorem test_decode_jgeReg : decode [0x48, 0xBB, 0xBF, 0xA1] = .ok (.jgeReg .r6 0xBFA1, []) := by decide

theorem test_decode_pshLit : decode [0x17, 0xC4, 0xB0] = .ok (.pshLit 0xC4B0, []) := by decide

theorem test_decode_pshReg : decode [0x18, 0x04] = .ok (.pshReg .r3, []) := by decide

theorem test_decode_pop : decode [0x1A, 0x07] = .ok (.pop .r6, []) := by decide

theorem test_decode_calLit : decode [0x5E, 0x13, 0x9D] = .ok (.calLit 0x139D, []) := by decide

theorem test_decode_calReg : decode [0x5F, 0x2D] = .ok (.calReg .r8, []) := by decide

theorem test_decode_ret : decode [0x60] = .ok (.ret, []) := by decide

theorem test_decode_hlt : decode [0xFF] = .ok (.hlt, []) := by decide

theorem test_decode_unknownOpcode : decode [0x61, 0x12] = .ok (.unknownOpcode 0x61, [0x12]) := by decide

/-! ## Single steps: the vectors of 95_test_vectors.md that the names give -/

theorem test_v_mov_1 :
    ends (boot [] 0 [(0x0000, [0x10, 0x12, 0x34, 0x02])]) [(.ip, 0x0004), (.r1, 0x1234)] 0 [] .running = true := by
      decide

theorem test_v_mov_4 :
    ends (boot [] 0 [(0x0000, [0x10, 0xBE, 0xEF, 0xFF])]) [(.ip, 0x0004), (.r2, 0xBEEF)] 0 [] .running = true := by
      decide

theorem test_v_mov_5 :
    ends (boot [(.r1, 0xCAFE)] 0 [(0x0000, [0x11, 0x02, 0x03])]) [(.ip, 0x0003), (.r2, 0xCAFE)] 0 [] .running = true
      := by decide

theorem test_v_mov_7 :
    ends (boot [(.r1, 0x0200)] 0 [(0x0000, [0x11, 0x02, 0x00])]) [(.ip, 0x0200)] 0 [] .running = true := by decide

theorem test_v_mov_9 :
    ends (boot [(.r1, 0xA1B2)] 0 [(0x0000, [0x12, 0x02, 0x01, 0x01])]) [(.ip, 0x0004)] 0 [(0x0101, 0xA1B2)] .running =
      true := by decide

theorem test_v_mov_10 :
    ends (boot [] 0 [(0x0000, [0x12, 0x00, 0x01, 0x00])]) [(.ip, 0x0004)] 0 [(0x0100, 0x0004)] .running = true := by
      decide

theorem test_v_mov_12 :
    ends (boot [] 0 [(0x0000, [0x13, 0x01, 0x01, 0x04]), (0x0100, [0x55, 0xAA, 0x77, 0xCC])]) [(.ip, 0x0004), (.r3,
      0xAA77)] 0 [] .running = true := by decide

theorem test_v_mov_14 :
    ends (boot [] 0 [(0x0000, [0x1B, 0xAB, 0xCD, 0x02, 0x00])]) [(.ip, 0x0005)] 0 [(0x0200, 0xABCD)] .running = true
      := by decide

theorem test_v_mov_15 :
    ends (boot [(.r1, 0x0300)] 0 [(0x0000, [0x1C, 0x02, 0x03]), (0x0300, [0x13, 0x57])]) [(.ip, 0x0003), (.r2,
      0x1357)] 0 [] .running = true := by decide

theorem test_v_mov_16 :
    ends (boot [(.r1, 0x0300)] 0 [(0x0000, [0x1C, 0x02, 0x02]), (0x0300, [0x13, 0x57])]) [(.ip, 0x0003), (.r1,
      0x1357)] 0 [] .running = true := by decide

theorem test_v_mov_18 :
    ends (boot [(.r1, 0x000E)] 0 [(0x0000, [0x1D, 0xFF, 0xF0, 0x02, 0x03]), (0xFFFE, [0x99, 0x99])]) [(.ip, 0x0005),
      (.r2, 0x9999)] 0 [] .running = true := by decide

theorem test_v_mov_19 :
    faults (boot [(.r1, 0x0020)] 0 [(0x0000, [0x1D, 0xFF, 0xF0, 0x02, 0x03])]) (.addressError 0x10010) = true := by
      decide

theorem test_v_mov_20 :
    faults (boot [] 0 [(0x0000, [0x13, 0xFF, 0xFF, 0x02])]) (.deviceRangeError 0xFFFF) = true := by decide

theorem test_v_add_2 :
    ends (boot [(.r1, 0xFFFF), (.r2, 0x0002)] 0 [(0x0000, [0x14, 0x02, 0x03])]) [(.ip, 0x0003), (.acc, 0x0001)] 0 []
      .running = true := by decide

theorem test_v_add_4 :
    ends (boot [(.acc, 0x0010), (.r1, 0x0001)] 0 [(0x0000, [0x14, 0x01, 0x02])]) [(.ip, 0x0003), (.acc, 0x0011)] 0 []
      .running = true := by decide

theorem test_v_add_5 :
    ends (boot [(.r1, 0xFFFF), (.acc, 0x5555)] 0 [(0x0000, [0x3F, 0x00, 0x01, 0x02])]) [(.ip, 0x0004), (.acc, 0x0000)]
      0 [] .running = true := by decide

theorem test_v_add_6 :
    ends (boot [(.r1, 0x1111)] 0 [(0x0000, [0x3F, 0x12, 0x34, 0x02])]) [(.ip, 0x0004), (.acc, 0x2345)] 0 [] .running =
      true := by decide

theorem test_v_sub_1 :
    ends (boot [(.r1, 0x0005), (.r2, 0x0007)] 0 [(0x0000, [0x1F, 0x02, 0x03])]) [(.ip, 0x0003), (.acc, 0xFFFE)] 0 []
      .running = true := by decide

theorem test_v_sub_2 :
    ends (boot [(.r1, 0x0007), (.r2, 0x0005)] 0 [(0x0000, [0x1F, 0x02, 0x03])]) [(.ip, 0x0003), (.acc, 0x0002)] 0 []
      .running = true := by decide

theorem test_v_sub_4 :
    ends (boot [(.r1, 0x000A)] 0 [(0x0000, [0x16, 0x00, 0x03, 0x02])]) [(.ip, 0x0004), (.acc, 0x0007)] 0 [] .running =
      true := by decide

theorem test_v_sub_5 :
    ends (boot [(.r1, 0x0000)] 0 [(0x0000, [0x16, 0x00, 0x01, 0x02])]) [(.ip, 0x0004), (.acc, 0xFFFF)] 0 [] .running =
      true := by decide

theorem test_v_mul_1 :
    ends (boot [(.r1, 0xFFFF), (.r2, 0xFFFF)] 0 [(0x0000, [0x21, 0x02, 0x03])]) [(.ip, 0x0003), (.acc, 0x0001)] 0 []
      .running = true := by decide

theorem test_v_mul_3 :
    ends (boot [(.r1, 0x00FF), (.r2, 0x0101)] 0 [(0x0000, [0x21, 0x02, 0x03])]) [(.ip, 0x0003), (.acc, 0xFFFF)] 0 []
      .running = true := by decide

theorem test_v_mul_5 :
    ends (boot [(.r1, 0x0007)] 0 [(0x0000, [0x20, 0x00, 0x03, 0x02])]) [(.ip, 0x0004), (.acc, 0x0015)] 0 [] .running =
      true := by decide

theorem test_v_mul_6 :
    ends (boot [(.r1, 0x0002)] 0 [(0x0000, [0x20, 0xFF, 0xFF, 0x02])]) [(.ip, 0x0004), (.acc, 0xFFFE)] 0 [] .running =
      true := by decide

theorem test_v_inc_1 :
    ends (boot [(.r1, 0xFFFF)] 0 [(0x0000, [0x35, 0x02])]) [(.ip, 0x0002), (.r1, 0x0000)] 0 [] .running = true := by
      decide

theorem test_v_inc_2 : ends (boot [] 0 [(0x0000, [0x35, 0x00])]) [(.ip, 0x0003)] 0 [] .running = true := by decide

theorem test_v_dec_1 :
    ends (boot [(.r1, 0x0000)] 0 [(0x0000, [0x36, 0x02])]) [(.ip, 0x0002), (.r1, 0xFFFF)] 0 [] .running = true := by
      decide

theorem test_v_dec_2 : ends (boot [] 0 [(0x0000, [0x36, 0x00])]) [(.ip, 0x0001)] 0 [] .running = true := by decide

theorem test_v_and_1 :
    ends (boot [(.r1, 0xABCD)] 0 [(0x0000, [0x2E, 0x02, 0x0F, 0xF0])]) [(.ip, 0x0004), (.r1, 0x0BC0)] 0 [] .running =
      true := by decide

theorem test_v_and_2 :
    ends (boot [(.r1, 0xF0F0), (.r2, 0x3C3C)] 0 [(0x0000, [0x2F, 0x02, 0x03])]) [(.ip, 0x0003), (.r1, 0x3030)] 0 []
      .running = true := by decide

theorem test_v_and_3 :
    ends (boot [(.r1, 0xABCD), (.acc, 0x7777)] 0 [(0x0000, [0x2E, 0x02, 0x0F, 0xF0])]) [(.ip, 0x0004), (.r1, 0x0BC0)]
      0 [] .running = true := by decide

theorem test_v_or_1 :
    ends (boot [(.r1, 0xA0A0)] 0 [(0x0000, [0x30, 0x02, 0x0F, 0x0F])]) [(.ip, 0x0004), (.r1, 0xAFAF)] 0 [] .running =
      true := by decide

theorem test_v_or_2 :
    ends (boot [(.r1, 0x8001), (.r2, 0x0110)] 0 [(0x0000, [0x31, 0x02, 0x03])]) [(.ip, 0x0003), (.r1, 0x8111)] 0 []
      .running = true := by decide

theorem test_v_xor_1 :
    ends (boot [(.r1, 0x1234)] 0 [(0x0000, [0x32, 0x02, 0xFF, 0xFF])]) [(.ip, 0x0004), (.r1, 0xEDCB)] 0 [] .running =
      true := by decide

theorem test_v_xor_2 :
    ends (boot [(.r1, 0xFF00), (.r2, 0x0FF0)] 0 [(0x0000, [0x33, 0x02, 0x03])]) [(.ip, 0x0003), (.r1, 0xF0F0)] 0 []
      .running = true := by decide

theorem test_v_xor_3 :
    ends (boot [(.r1, 0x1234)] 0 [(0x0000, [0x33, 0x02, 0x02])]) [(.ip, 0x0003), (.r1, 0x0000)] 0 [] .running = true
      := by decide

theorem test_v_not_1 :
    ends (boot [(.r1, 0x00FF)] 0 [(0x0000, [0x34, 0x02])]) [(.ip, 0x0002), (.r1, 0xFF00)] 0 [] .running = true := by
      decide

theorem test_v_not_2 :
    ends (boot [(.r1, 0x0000)] 0 [(0x0000, [0x34, 0x02])]) [(.ip, 0x0002), (.r1, 0xFFFF)] 0 [] .running = true := by
      decide

theorem test_v_lsf_3 :
    ends (boot [(.r1, 0x1235)] 0 [(0x0000, [0x26, 0x02, 0x00, 0x0F])]) [(.ip, 0x0004), (.r1, 0x8000)] 0 [] .running =
      true := by decide

theorem test_v_lsf_7 :
    ends (boot [(.r1, 0x1234)] 0 [(0x0000, [0x26, 0x02, 0x00, 0x21])]) [(.ip, 0x0004), (.r1, 0x2468)] 0 [] .running =
      true := by decide

theorem test_v_lsf_9 :
    ends (boot [(.r1, 0x0101), (.r2, 0x0003)] 0 [(0x0000, [0x27, 0x02, 0x03])]) [(.ip, 0x0003), (.r1, 0x0808)] 0 []
      .running = true := by decide

theorem test_v_lsf_10 :
    ends (boot [(.r1, 0x0003)] 0 [(0x0000, [0x27, 0x02, 0x02])]) [(.ip, 0x0003), (.r1, 0x0018)] 0 [] .running = true
      := by decide

theorem test_v_rsf_1 :
    ends (boot [(.r1, 0x8234)] 0 [(0x0000, [0x2A, 0x02, 0x00, 0x04])]) [(.ip, 0x0004), (.r1, 0x0823)] 0 [] .running =
      true := by decide

theorem test_v_rsf_4 :
    ends (boot [(.r1, 0x8234)] 0 [(0x0000, [0x2A, 0x02, 0x00, 0x20])]) [(.ip, 0x0004)] 0 [] .running = true := by
      decide

theorem test_v_rsf_5 :
    ends (boot [(.r1, 0xABCD), (.r2, 0x0008)] 0 [(0x0000, [0x2B, 0x02, 0x03])]) [(.ip, 0x0003), (.r1, 0x00AB)] 0 []
      .running = true := by decide

theorem test_v_rsf_6 :
    ends (boot [(.r1, 0xABCD), (.r2, 0x0028)] 0 [(0x0000, [0x2B, 0x02, 0x03])]) [(.ip, 0x0003), (.r1, 0x00AB)] 0 []
      .running = true := by decide

theorem test_v_jne_1 :
    ends (boot [(.acc, 0x0003)] 0 [(0x0000, [0x15, 0x00, 0x00, 0x00, 0x08])]) [(.ip, 0x0008)] 0 [] .running = true :=
      by decide

theorem test_v_jne_2 :
    ends (boot [(.acc, 0x0000)] 0 [(0x0000, [0x15, 0x00, 0x00, 0x00, 0x08])]) [(.ip, 0x0005)] 0 [] .running = true :=
      by decide

theorem test_v_jne_3 :
    ends (boot [(.r1, 0x000F), (.acc, 0x0010)] 0 [(0x0000, [0x40, 0x02, 0x01, 0x00])]) [(.ip, 0x0100)] 0 [] .running =
      true := by decide

theorem test_v_jne_4 :
    ends (boot [(.acc, 0x0010)] 0 [(0x0000, [0x40, 0x01, 0x01, 0x00])]) [(.ip, 0x0004)] 0 [] .running = true := by
      decide

theorem test_v_jeq_1 :
    ends (boot [(.acc, 0x0010)] 0 [(0x0000, [0x41, 0x00, 0x10, 0x01, 0x00])]) [(.ip, 0x0100)] 0 [] .running = true :=
      by decide

theorem test_v_jeq_2 :
    ends (boot [(.acc, 0x0011)] 0 [(0x0000, [0x41, 0x00, 0x10, 0x01, 0x00])]) [(.ip, 0x0005)] 0 [] .running = true :=
      by decide

theorem test_v_jeq_3 :
    ends (boot [(.acc, 0x0077)] 0 [(0x0000, [0x3E, 0x01, 0x01, 0x00])]) [(.ip, 0x0100)] 0 [] .running = true := by
      decide

theorem test_v_jlt_1 :
    ends (boot [(.acc, 0x0010)] 0 [(0x0000, [0x43, 0x00, 0x0F, 0x01, 0x00])]) [(.ip, 0x0100)] 0 [] .running = true :=
      by decide

theorem test_v_jlt_2 :
    ends (boot [(.acc, 0x0001)] 0 [(0x0000, [0x43, 0xFF, 0xFF, 0x01, 0x00])]) [(.ip, 0x0005)] 0 [] .running = true :=
      by decide

theorem test_v_jlt_3 :
    ends (boot [(.r1, 0x0010), (.acc, 0x0010)] 0 [(0x0000, [0x42, 0x02, 0x01, 0x00])]) [(.ip, 0x0004)] 0 [] .running =
      true := by decide

theorem test_v_jgt_1 :
    ends (boot [(.acc, 0x7FFF)] 0 [(0x0000, [0x45, 0xFF, 0xFF, 0x01, 0x00])]) [(.ip, 0x0100)] 0 [] .running = true :=
      by decide

theorem test_v_jgt_2 :
    ends (boot [(.r1, 0x8000), (.acc, 0x0010)] 0 [(0x0000, [0x44, 0x02, 0x01, 0x00])]) [(.ip, 0x0100)] 0 [] .running =
      true := by decide

theorem test_v_jle_1 :
    ends (boot [(.acc, 0x0010)] 0 [(0x0000, [0x47, 0x00, 0x10, 0x01, 0x00])]) [(.ip, 0x0100)] 0 [] .running = true :=
      by decide

theorem test_v_jle_2 :
    ends (boot [(.r1, 0x0011), (.acc, 0x0010)] 0 [(0x0000, [0x46, 0x02, 0x01, 0x00])]) [(.ip, 0x0004)] 0 [] .running =
      true := by decide

theorem test_v_jge_1 :
    ends (boot [(.acc, 0x0010)] 0 [(0x0000, [0x49, 0x00, 0x0F, 0x01, 0x00])]) [(.ip, 0x0005)] 0 [] .running = true :=
      by decide

theorem test_v_jge_2 :
    ends (boot [(.r1, 0x0010), (.acc, 0x0010)] 0 [(0x0000, [0x48, 0x02, 0x01, 0x00])]) [(.ip, 0x0100)] 0 [] .running =
      true := by decide

theorem test_v_psh_1 :
    ends (boot [] 0 [(0x0000, [0x17, 0x00, 0xAA])]) [(.ip, 0x0003), (.sp, 0xFFFC)] 0x0002 [(0xFFFE, 0x00AA)] .running
      = true := by decide

theorem test_v_psh_2 :
    ends (boot [(.r1, 0xBEEF)] 0 [(0x0000, [0x18, 0x02])]) [(.ip, 0x0002), (.sp, 0xFFFC)] 0x0002 [(0xFFFE, 0xBEEF)]
      .running = true := by decide

theorem test_v_psh_3 :
    ends (boot [] 0 [(0x0000, [0x18, 0x0A])]) [(.ip, 0x0002), (.sp, 0xFFFC)] 0x0002 [(0xFFFE, 0xFFFE)] .running = true
      := by decide

theorem test_v_psh_5 :
    ends (boot [(.sp, 0x0000)] 0 [(0x0000, [0x17, 0x12, 0x34])]) [(.ip, 0x0003), (.sp, 0xFFFE)] 0x0002 [(0x0000,
      0x1234)] .running = true := by decide

theorem test_v_pop_1 :
    ends (boot [(.sp, 0xFFF0)] 0 [(0x0000, [0x1A, 0x04]), (0xFFF2, [0x43, 0x21])]) [(.ip, 0x0002), (.r3, 0x4321),
      (.sp, 0xFFF2)] 0xFFFE [] .running = true := by decide

theorem test_v_pop_2 :
    ends (boot [(.sp, 0xFFF0)] 0 [(0x0000, [0x1A, 0x0A]), (0xFFF2, [0x43, 0x21])]) [(.ip, 0x0002), (.sp, 0x4321)]
      0xFFFE [] .running = true := by decide

theorem test_v_cal_1 :
    ends (boot [(.r1, 0x1111), (.r2, 0x2222), (.r3, 0x3333), (.r4, 0x4444), (.r5, 0x5555), (.r6, 0x6666), (.r7,
      0x7777), (.r8, 0x8888)] 0 [(0x0000, [0x5E, 0x03, 0x00])]) [(.ip, 0x0300), (.sp, 0xFFEA), (.fp, 0xFFEA)] 0
      [(0xFFFE, 0x1111), (0xFFFC, 0x2222), (0xFFFA, 0x3333), (0xFFF8, 0x4444), (0xFFF6, 0x5555), (0xFFF4, 0x6666),
      (0xFFF2, 0x7777), (0xFFF0, 0x8888), (0xFFEE, 0x0003), (0xFFEC, 0x0014)] .running = true := by decide

theorem test_v_cal_2 :
    ends (boot [(.r1, 0x0300), (.sp, 0xFFFA)] 0x0004 [(0x0000, [0x5F, 0x02])]) [(.ip, 0x0300), (.sp, 0xFFE6), (.fp,
      0xFFE6)] 0 [(0xFFFA, 0x0300), (0xFFF8, 0x0000), (0xFFF6, 0x0000), (0xFFF4, 0x0000), (0xFFF2, 0x0000), (0xFFF0,
      0x0000), (0xFFEE, 0x0000), (0xFFEC, 0x0000), (0xFFEA, 0x0002), (0xFFE8, 0x0018)] .running = true := by decide

theorem test_v_cal_4 :
    ends (boot [] 0 [(0x0000, [0x5F, 0x0A])]) [(.ip, 0xFFFE), (.sp, 0xFFEA), (.fp, 0xFFEA)] 0 [(0xFFFE, 0x0000),
      (0xFFFC, 0x0000), (0xFFFA, 0x0000), (0xFFF8, 0x0000), (0xFFF6, 0x0000), (0xFFF4, 0x0000), (0xFFF2, 0x0000),
      (0xFFF0, 0x0000), (0xFFEE, 0x0002), (0xFFEC, 0x0014)] .running = true := by decide

theorem test_v_ret_1 :
    ends (boot [(.ip, 0x0300), (.sp, 0xFFD0), (.fp, 0xFFE6), (.acc, 0x0099)] 0 [(0x0300, [0x60]), (0xFFE8, [0x00,
      0x18, 0x00, 0x02, 0x88, 0x88, 0x77, 0x77, 0x66, 0x66, 0x55, 0x55, 0x44, 0x44, 0x33, 0x33, 0x22, 0x22, 0x11, 0x11,
      0x00, 0x01, 0x00, 0x07])]) [(.ip, 0x0002), (.r1, 0x1111), (.r2, 0x2222), (.r3, 0x3333), (.r4, 0x4444), (.r5,
      0x5555), (.r6, 0x6666), (.r7, 0x7777), (.r8, 0x8888), (.sp, 0xFFFE), (.fp, 0xFFFE)] 0x0002 [] .running = true :=
      by decide

theorem test_v_hlt_2 :
    ends (boot [(.r1, 0x1234), (.acc, 0x0001), (.ip, 0x0123)] 0 [(0x0123, [0xFF])]) [(.ip, 0x0124)] 0 [] .halted =
      true := by decide

theorem test_v_unk_2 :
    ends (boot [] 0 [(0x0000, [0x1E, 0x12, 0x34])]) [(.ip, 0x0001)] 0 [] .running = true := by decide

theorem test_v_unk_4 :
    ends (boot [(.ip, 0xFFFF)] 0 [(0xFFFF, [0x61])]) [(.ip, 0x0000)] 0 [] .running = true := by decide

/-! ## Fetch faults: V-FLT-1 to V-FLT-7 -/

theorem test_v_flt_1 : faults (small 0 [(0, [0x13, 0x01, 0x00, 0x02])]) (.addressError 0x0100) = true := by decide

theorem test_v_flt_2 : faults (small 0x0100 []) (.addressError 0x0100) = true := by decide

theorem test_v_flt_3 : faults (small 0 [(0, [0x17, 0x00, 0x01])]) (.addressError 0xFFFE) = true := by decide

theorem test_v_flt_4 :
    ends (boot [(.ip, 0xFFFD)] 0 [(0xFFFD, [0x10, 0x12])]) [(.ip, 0x1200)] 0 [] .running = true := by decide

theorem test_v_flt_5 : faults (boot [(.ip, 0xFFFE)] 0 [(0xFFFE, [0x10])]) (.deviceRangeError 0xFFFF) = true := by decide

theorem test_v_flt_6 : faults (small 0x00FE [(0xFE, [0x12, 0x02])]) (.addressError 0x0100) = true := by decide

theorem test_v_flt_7 : faults (small 0 [(0, [0x13, 0x00, 0xFF, 0x02])]) (.deviceRangeError 0x00FF) = true := by decide

/-! ## The host's operations, and the two definitions that place and read one instruction -/

/-- S1: any integer, modulo 65536. -/
theorem test_s1_registers_by_name :
    (do let s ← setRegister "r1" 0x12345 State.reset
        let s ← setRegister "sp" (-2) s
        getRegister "r1" s) = .ok 0x2345 ∧
      (do let s ← setRegister "sp" (-2) State.reset
          getRegister "sp" s) = .ok 0xFFFE ∧
      getRegister "pc" State.reset = .error (.registerLookupError "pc") := by decide

/-- S2: the region's translation. -/
theorem test_s2_remap :
    (match memWrite16 0x0410 0x1234 (mapRegionDefault 1 0x0400 0x04FF (addDevice (.ram 256 []) State.reset).2).2 with
      | .ok t => decide (t.ramCell? 1 0x10 = some 0x12 ∧ t.ramCell? 1 0x11 = some 0x34 ∧ t.ramWord? 0x0410 = some 0x1234)
      | .error _ => false) = true := by decide

/-- The word 02 34 12 10 of the table's numbering is the bytes 10 12 34 02. -/
theorem test_decodeTableWord : decodeTableWord 32 0x02341210 = some (.movLitReg 0x1234 .r1) := by decide

/-- Bits that the table gives the row no place for are 0. -/
theorem test_decodeTableWord_short : decodeTableWord 8 0x15 = some (.jneLit 0 0) := by decide

theorem test_withFetchWord :
    ends (State.reset.withFetchWord 32 0x02341210) [(.ip, 0x0004), (.r1, 0x1234)] 0 [] .running = true := by decide

/-- An instruction at the top of memory goes on at address 0 (30_encoding.md R90). -/
theorem test_withFetchWord_wraps :
    ends ((State.reset.setReg .ip 0xFFFF).withFetchWord 16 0x0235) [(.ip, 0x0001), (.r1, 0x0001)] 0 [] .running = true :=
  by decide

/-! ## For each statement with hypotheses, inputs that meet them -/

theorem witness_DecodeAfterEncodeIsIdentity :
    config.opcodeMap.Valid ∧ (Instr.movLitOffReg 0x1234 .r1 .fp).wellFormedIn config.opcodeMap = true ∧
      (Instr.unknownOpcode 0x0F).wellFormedIn config.opcodeMap = true := by
  refine ⟨⟨fun op => ?_, by decide⟩, by decide, by decide⟩
  cases op <;> decide

theorem witness_EncodeAfterDecodeIsCanonical :
    decode [0x11, 0xFF, 0x0E, 0x60] = .ok (.movRegReg .r2 .r1, [0x60]) := by decide

theorem witness_EveryByteSequenceDecodes :
    opcodeLength 0x1D = 5 ∧ opcodeLength 0x1D ≤ [0x1D, 0x00, 0x00, 0x02, 0x03].length ∧
      opcodeLength 0xFE ≤ [0xFE].length ∧ config.opcodeMap.unassigned 0xFE = true := by decide

/-- MOV_LIT_REG at 0xFFFD: its last byte is at address 0. -/
def wrapping : State := boot [(.ip, 0xFFFD)] 0 [(0xFFFD, [0x10, 0x12, 0x34]), (0, [0x02])]

theorem witness_StepRunsTheDecodedInstruction :
    wrapping.run = .running ∧ wrapping.holdsCode [0x10, 0x12, 0x34, 0x02] ∧
      decode [0x10, 0x12, 0x34, 0x02] = .ok (.movLitReg 0x1234 .r1, []) := by
  refine ⟨rfl, ⟨by decide, by decide, by decide, trivial⟩, by decide⟩

theorem witness_StepFetchesThenExecutes :
    wrapping.run = .running ∧ (∃ t, fetchBytes wrapping = .ok ([0x10, 0x12, 0x34, 0x02], t)) ∧
      (small 0x0100 []).run = .running ∧ fetchBytes (small 0x0100 []) = .error (.addressError 0x0100) :=
  ⟨rfl, ⟨_, rfl⟩, rfl, rfl⟩

theorem witness_NoStepFromATerminalState :
    (State.reset.setRun .halted).run = .halted ∧
      (State.reset.setRun (.faulted (.addressError 0))).run = .faulted (.addressError 0) ∧
      ∃ t, step wrapping = .next t := ⟨rfl, rfl, completes_next (by decide)⟩

theorem witness_RunningFaultsAreBusErrors :
    (small 0x0100 []).run = .running ∧ step (small 0x0100 []) = .fault (.fatal (.addressError 0x0100)) ∧
      step (small 0 [(0, [0x13, 0x00, 0xFF, 0x02])]) = .fault (.fatal (.deviceRangeError 0xFF)) := ⟨rfl, rfl, rfl⟩

/-- V-MOV-19, with the least sum that is out of range. -/
def beyondTop : State := boot [(.r1, 0x0010)] 0 [(0, [0x1D, 0xFF, 0xF0, 0x02, 0x03])]

theorem witness_ReferenceMapAddressErrors :
    beyondTop.inReferenceMap ∧ beyondTop.run = .running ∧ step beyondTop = .fault (.fatal (.addressError 0x10000)) :=
  ⟨⟨rfl, _, rfl⟩, rfl, rfl⟩

/-- V-MOV-20. -/
def atTop : State := boot [] 0 [(0, [0x13, 0xFF, 0xFF, 0x02])]

theorem witness_ReferenceMapRangeErrors :
    atTop.inReferenceMap ∧ atTop.run = .running ∧ step atTop = .fault (.fatal (.deviceRangeError 0xFFFF)) :=
  ⟨⟨rfl, _, rfl⟩, rfl, rfl⟩

/-- A region of 512 bytes over a RAM of 256. -/
def tooSmall : State := (mapRegionDefault 0 0 0x1FF (small 0x0100 [])).2

theorem witness_OpcodeFetchFaults :
    (small 0x0100 []).run = .running ∧ resolve (small 0x0100 []).regions 0x0100 = none ∧ tooSmall.run = .running ∧
      tooSmall.locate (tooSmall.reg .ip).toNat = some (0, 256) ∧ ∃ cells, tooSmall.device 0 = .ram 256 cells :=
  ⟨rfl, rfl, rfl, by decide, _, rfl⟩

theorem witness_FetchPrimitives :
    memRead8 (wrapping.reg .ip).toNat wrapping = .ok (0x10, wrapping) ∧
      memRead16 (wrapping.reg .ip).toNat wrapping = .ok (0x1012, wrapping) ∧
      memRead8 ((small 0x0100 []).reg .ip).toNat (small 0x0100 []) = .error (.addressError 0x0100) ∧
      memRead16 ((small 0x00FF []).reg .ip).toNat (small 0x00FF []) = .error (.deviceRangeError 0x00FF) :=
  ⟨rfl, rfl, rfl, rfl⟩

/-- A state with two RAMs and a peripheral whose next step stores a word. -/
def storing : State :=
  withPeripheral (mapRegionDefault 1 0x0400 0x04FF (addDevice (.ram 256 [(3, 0x55)])
    (boot [] 0 [(0, [0x1B, 0xAB, 0xCD, 0x04, 0x10])])).2).2

theorem witness_StepKeepsTheInvariant : storing.Inv ∧ ∃ t, step storing = .next t := by
  refine ⟨⟨?_, by decide, by decide, by decide, fun e h => by cases h⟩, completes_next (by decide)⟩
  intro dev h
  have hd : storing.devices = [.ram 65536 [(0, 0x1B), (1, 0xAB), (2, 0xCD), (3, 0x04), (4, 0x10)],
      .ram 256 [(3, 0x55)], .peripheral] := by decide
  rw [hd] at h
  simp only [List.mem_cons, List.not_mem_nil, or_false] at h
  rcases h with rfl | rfl | rfl
  · exact ⟨by unfold Memory.wf; decide, by decide⟩
  · exact ⟨by unfold Memory.wf; decide, by decide⟩
  · trivial

/-- MOV_MEM_REG from a peripheral. -/
def reading : State := withPeripheral (boot [] 0 [(0, [0x13, 0x80, 0x00, 0x02])])

theorem witness_StepKeepsTheBus : ∃ t, step reading = .next t ∧ t.history.length = 1 := ⟨_, rfl, rfl⟩

theorem witness_HaltedOnlyByHlt :
    (∃ t, step (boot [] 0 [(0, [0xFF])]) = .next t ∧ t.run = .halted) ∧
      ∃ t, step (boot [] 0 [(0, [0xFE])]) = .next t ∧ t.run = .running := ⟨⟨_, rfl, rfl⟩, ⟨_, rfl, rfl⟩⟩

theorem witness_SfsChangesOnlyByTheStack :
    (Instr.incReg .sp).usesStack = false ∧ ∃ t, exec (.incReg .sp) State.reset = .next t := ⟨rfl, _, rfl⟩

theorem witness_MemoryChangesOnlyByStores :
    Instr.ret.stores = false ∧ (Instr.movMemReg 0x8000 .r1).stores = false ∧
      (∃ t, exec (.movMemReg 0x8000 .r1) reading = .next t) ∧ ∃ t, exec (.pop .ip) State.reset = .next t :=
  ⟨rfl, rfl, ⟨_, rfl⟩, ⟨_, rfl⟩⟩

theorem witness_OnlyTheListedRegistersAreWritten :
    Reg.r1 ∉ (Instr.pop .r2).writtenRegs ∧ ∃ t, exec (.pop .r2) State.reset = .next t := ⟨by decide, _, rfl⟩

theorem witness_RunStateAfterAStep :
    wrapping.run = .running ∧ completes wrapping = true ∧ (boot [] 0 [(0, [0xFF])]).run = .running ∧
      completes (boot [] 0 [(0, [0xFF])]) = true ∧ atTop.run = .running ∧ completes atTop = false := by decide

theorem witness_BoundedRunEndsInThreeWays :
    (boot [] 0 [(0, [0xFF])]).run = .running ∧ (∃ t, runFor 1 (boot [] 0 [(0, [0xFF])]) = .halted t) ∧
      runFor 1 atTop = .faulted (.fatal (.deviceRangeError 0xFFFF)) ∧ ∃ t, runFor 2 State.reset = .outOfFuel t :=
  ⟨rfl, ⟨_, rfl⟩, rfl, ⟨_, rfl⟩⟩

/-- The last address of the newest region, the first one of it, and one that no region contains. -/
theorem witness_AccessesAreRoutedToTheNewestRegion :
    (∀ r ∈ reading.regions, ¬(r.start ≤ 0x10000 ∧ 0x10000 ≤ r.stop)) ∧
      (∃ r older, reading.regions = [] ++ r :: older ∧ r.start ≤ 0x8000 ∧ 0x8FFF ≤ r.stop ∧ r.remap = true) ∧
      ∃ r newer, reading.regions = newer ++ r :: [] ∧ newer ≠ [] ∧
        (∀ q ∈ newer, ¬(q.start ≤ 0x7FFF ∧ 0x7FFF ≤ q.stop)) ∧ r.start ≤ 0x7FFF ∧ 0x7FFF ≤ r.stop := by
  refine ⟨by decide, ⟨_, _, rfl, by decide, by decide, rfl⟩, ⟨_, [_], rfl, by simp, by decide, by decide, by decide⟩⟩

theorem witness_MapPutsTheNewRegionFirst :
    storing.Inv ∧ 1 < storing.devices.length ∧
      ∃ t, mapRegion 1 0x100 0x1FF false storing = (3, t) ∧ t.locate 0x1FF = some (1, 0x1FF) :=
  ⟨witness_StepKeepsTheInvariant.1, by decide, _, rfl, by decide⟩

theorem witness_UnmapRemovesExactlyThatRegion :
    storing.Inv ∧ (∀ r ∈ storing.regions, r.token ≠ 3) ∧ (∃ r ∈ storing.regions, r.token = 1) ∧
      (unmapRegion 1 storing).regions.length = 2 :=
  ⟨witness_StepKeepsTheInvariant.1, by decide, by decide, by decide⟩

theorem witness_WordWriteThenReadGivesTheWord :
    State.reset.ramWord? 0xFFFE = some 0 ∧ storing.ramWord? 0x0402 = some 0x0055 := by decide

theorem witness_WordAccessIsServedByOneDevice :
    storing.locate 0x0402 = some (1, 2) ∧ storing.ramCell? 1 2 = some 0 ∧ storing.ramCell? 1 3 = some 0x55 ∧
      storing.locate 0x04FF = some (1, 255) ∧ storing.device 1 = .ram 256 [(3, 0x55)] := by decide

theorem witness_PeripheralAccessesAreEvents :
    reading.locate 0x8FFF = some (1, 0x0FFF) ∧ reading.device 1 = .peripheral := by decide

theorem witness_UnknownRegisterNamesAreErrors : ∀ r, "IP" ≠ regName r := by
  intro r
  cases r <;> decide

theorem witness_LoadedImageIsRead :
    (∃ cells, State.reset.device 0 = .ram 65536 cells) ∧ 0xFFFE + [(0x12 : Byte), 0x34].length ≤ 65536 :=
  ⟨⟨_, rfl⟩, by decide⟩

theorem witness_StoredCodeIsFetched : State.reset.ramWord? (0xFFFE : Word).toNat = some 0 := by decide

theorem witness_StoresToRam : storing.ramWord? (absoluteAddress 0x04FE) = some 0 := by decide

theorem witness_LoadsFromRam :
    State.reset.ramWord? (absoluteAddress 0x0100) = some 0 ∧ State.reset.ramWord? (pointerAddress .sp State.reset) = some 0 ∧
      State.reset.ramWord? ((0xFFFE : Word).toNat + (State.reset.reg .r1).toNat) = some 0 := by decide

theorem witness_LoadsAndStoresOfPeripherals :
    reading.device 1 = .peripheral ∧ reading.locate (absoluteAddress 0x8000) = some (1, 0) ∧
      (reading.setReg .r1 0x8FFF).locate (pointerAddress .r1 (reading.setReg .r1 0x8FFF)) = some (1, 0x0FFF) ∧
      (reading.setReg .r1 0x1000).locate (offsetAddress 0x7000 .r1 (reading.setReg .r1 0x1000)) = some (1, 0) := by decide

theorem witness_UnservedDataAccessesFault :
    State.reset.servesWord (absoluteAddress 0xFFFF) = false ∧
      (State.reset.setReg .r1 0xFFFF).servesWord (pointerAddress .r1 (State.reset.setReg .r1 0xFFFF)) = false ∧
      State.reset.servesWord (offsetAddress 2 .sp State.reset) = false ∧
      (small 0 []).servesWord (absoluteAddress 0x0100) = false ∧ (small 0 []).servesWord (pointerAddress .sp (small 0 [])) = false := by
  decide

theorem witness_PushesToRam :
    State.reset.ramWord? (pushAddress State.reset) = some 0 ∧
      (State.reset.setReg .sp 0).ramWord? (pushAddress (State.reset.setReg .sp 0)) = some 0 := by decide

theorem witness_StackAccessesElsewhere :
    (reading.setReg .sp 0x8000).locate (pushAddress (reading.setReg .sp 0x8000)) = some (1, 0) ∧
      (reading.setReg .sp 0x7FFE).locate (popAddress (reading.setReg .sp 0x7FFE)) = some (1, 0) ∧
      reading.device 1 = .peripheral ∧
      (State.reset.setReg .sp 0xFFFF).servesWord (pushAddress (State.reset.setReg .sp 0xFFFF)) = false ∧
      (State.reset.setReg .sp 0xFFFD).servesWord (popAddress (State.reset.setReg .sp 0xFFFD)) = false ∧
      (small 0 []).servesWord (pushAddress (small 0 [])) = false := by decide

theorem witness_PopsFromRam :
    State.reset.ramWord? (popAddress State.reset) = some 0 ∧
      (State.reset.setReg .sp 0x00FE).ramWord? (popAddress (State.reset.setReg .sp 0x00FE)) = some 0 := by decide

theorem witness_PushThenPopReturnsTheValue : State.reset.ramWord? (pushAddress State.reset) = some 0 := by decide

/-- The ten words in RAM, and the ten words in a peripheral. -/
theorem witness_CallCompletesWhereItsWordsAreServed :
    (∀ k, k < 10 → State.reset.servesWord (State.reset.frameAddress k) = true) ∧
      ∀ k, k < 10 → (reading.setReg .sp 0x8800).servesWord ((reading.setReg .sp 0x8800).frameAddress k) = true := by decide

/-- In the reference map with a peripheral over a part of it: a stack wholly in RAM, and one whose last four words are
in the peripheral. -/
theorem witness_CallWritesItsFrame :
    (∃ t, exec (.calLit 0x0300) reading = .next t) ∧ reading.locate (reading.frameAddress 9) = some (0, 0xFFEC) ∧
      (∃ t, exec (.calReg .r1) (reading.setReg .sp 0x900A) = .next t) ∧
      (reading.setReg .sp 0x900A).locate ((reading.setReg .sp 0x900A).frameAddress 5) = some (0, 0x9000) ∧
      (reading.setReg .sp 0x900A).callEvents =
        [.write16 1 0x0FFE 0, .write16 1 0x0FFC 0, .write16 1 0x0FFA 0, .write16 1 0x0FF8 20] :=
  ⟨⟨_, rfl⟩, by decide, ⟨_, rfl⟩, by decide, by decide⟩

/-- V-NEST's way of calling: a count of 1 on the stack, `sp` even. The callee here returns at once. -/
def calling : State := boot [(.sp, 0xFFF8), (.r1, 0x0300)] 6 [(0xFFFA, [0x00, 0x01, 0x00, 0x07])]

/-- The frame in RAM with a peripheral mapped elsewhere. -/
theorem witness_frameInRam : reading.frameInRam ∧ calling.frameInRam := by
  unfold State.frameInRam
  decide

/-- A map in which two of the ten words are routed to the same bytes: the later one is read back. -/
def overlapping : State := (mapRegion 0 0xFFFC 0xFFFD true (mapRegion 0 0xFFFE 0xFFFF true State.reset).2).2

theorem witness_CallWritesItsFrame_overlapping :
    overlapping.covers (overlapping.frameAddress 1) 0 0 = true ∧ (∃ t, exec (.calLit 0x0300) overlapping = .next t) ∧
      overlapping.locate (overlapping.frameAddress 0) = some (0, 0) ∧
      ∀ j, 1 < j → j < 10 → overlapping.covers (overlapping.frameAddress j) 0 0 = false := by
  refine ⟨by decide, ⟨_, rfl⟩, by decide, fun j h1 h2 => ?_⟩
  revert h1
  revert j
  decide

/-- The last of the ten words at 0xFFFF, and the first one there. -/
theorem witness_CallFaultsAtItsFirstFailingPush :
    (∀ j, j < 9 → (State.reset.setReg .sp 17).servesWord ((State.reset.setReg .sp 17).frameAddress j) = true) ∧
      (State.reset.setReg .sp 17).servesWord ((State.reset.setReg .sp 17).frameAddress 9) = false ∧
      (State.reset.setReg .sp 0xFFFF).servesWord ((State.reset.setReg .sp 0xFFFF).frameAddress 0) = false := by decide

/-- A frame of V-RET-1 with one word to drop. -/
def framed : State :=
  boot [(.fp, 0xFFE6)] 0 [(0xFFE8, [0x00, 0x18, 0x00, 0x02, 0x88, 0x88, 0x77, 0x77, 0x66, 0x66, 0x55, 0x55, 0x44, 0x44,
    0x33, 0x33, 0x22, 0x22, 0x11, 0x11, 0x00, 0x01, 0x00, 0x07])]

theorem witness_ReturnFromRam :
    framed.ramWord? (framed.returnAddress 0) = some 0x18 ∧ framed.ramWord? (framed.returnAddress 1) = some 2 ∧
      framed.ramWord? (framed.returnAddress 2) = some 0x8888 ∧ framed.ramWord? (framed.returnAddress 3) = some 0x7777 ∧
      framed.ramWord? (framed.returnAddress 4) = some 0x6666 ∧ framed.ramWord? (framed.returnAddress 5) = some 0x5555 ∧
      framed.ramWord? (framed.returnAddress 6) = some 0x4444 ∧ framed.ramWord? (framed.returnAddress 7) = some 0x3333 ∧
      framed.ramWord? (framed.returnAddress 8) = some 0x2222 ∧ framed.ramWord? (framed.returnAddress 9) = some 0x1111 ∧
      framed.ramWord? (framed.returnAddress 10) = some 1 ∧
      ∀ j, j < (1 : Word).toNat → ∃ w, framed.ramWord? (framed.returnAddress (11 + j)) = some w := by
  refine ⟨by decide, by decide, by decide, by decide, by decide, by decide, by decide, by decide, by decide, by decide,
    by decide, fun j hj => ?_⟩
  obtain rfl : j = 0 := by simpa using hj
  exact ⟨7, by decide⟩

/-- The reference map with fp even; the stack in a peripheral of a map that has RAM too, where the count is free and every
word at an even address is served. -/
theorem witness_ReturnOverAnyDevices :
    (∀ k, framed.servesWord (framed.returnAddress k) = true) ∧
      (∀ k, (reading.setReg .fp 0x8800).servesWord ((reading.setReg .fp 0x8800).returnAddress k) = true) ∧
      (reading.setReg .fp 0x8800).locate ((reading.setReg .fp 0x8800).returnAddress 10) = some (1, 0x0816) := by
  have even : ∀ x : Nat, x % 2 = 0 → ∀ k, (x + (2 + 2 * k)) % 65536 ≤ 65534 := by omega
  refine ⟨fun k => ?_, fun k => ?_, by decide⟩
  · obtain ⟨_, h⟩ := State.inReferenceMap.word (s := framed) ⟨rfl, _, rfl⟩ (a := framed.returnAddress k) (by
      have := even 0xFFE6 (by decide) k
      have hf : (framed.reg .fp).toNat = 0xFFE6 := by decide
      simp only [State.returnAddress, BitVec.toNat_add, BitVec.toNat_ofNat, hf]
      omega)
    obtain ⟨w, hw⟩ := Option.isSome_iff_exists.mp h
    exact State.servesWord_of_ramWord? hw
  · have h := even 0x8800 (by decide) k
    have hf : ((reading.setReg .fp 0x8800).returnAddress k) = (0x8800 + (2 + 2 * k)) % 65536 := by
      simp [State.returnAddress]
    have hr : reading.regions = { token := 1, device := 1, start := 0x8000, stop := 0x8FFF, remap := true } :: referenceRegions :=
      rfl
    rw [hf]
    generalize (0x8800 + (2 + 2 * k)) % 65536 = a at h
    have ha : a ≤ 65535 := by omega
    have hx : a + 1 < 65536 := by omega
    by_cases hc : 0x8000 ≤ a ∧ a ≤ 0x8FFF
    · have hl : reading.locate a = some (1, a - 0x8000) := by
        simp [State.locate, resolve, hr, regionContains, hc.1, hc.2, localAddress]
      simp [State.servesWord, hl, show reading.device 1 = .peripheral from rfl]
    · have hl : reading.locate a = some (0, a) := by
        have : (decide (0x8000 ≤ a) && decide (a ≤ 0x8FFF)) = false := by simpa using hc
        simp [State.locate, resolve, hr, regionContains, this, referenceRegions, addrSpace, ha, localAddress]
      obtain ⟨cells, hd⟩ : ∃ cells, reading.device 0 = .ram 65536 cells := ⟨_, rfl⟩
      simp [State.servesWord, hl, hd, hx]

/-- The first pop at 0xFFFF, and the eleventh one there. -/
theorem witness_ReturnFaultsAtItsFirstFailingPop :
    (State.reset.setReg .fp 0xFFFD).servesWord ((State.reset.setReg .fp 0xFFFD).returnAddress 0) = false ∧
      (State.reset.setReg .fp 0xFFE9).servesWord ((State.reset.setReg .fp 0xFFE9).returnAddress 10) = false ∧
      ∀ j, j < 10 → (State.reset.setReg .fp 0xFFE9).servesWord ((State.reset.setReg .fp 0xFFE9).returnAddress j) = true := by
  decide

/-- One word to drop, at 0xFFFF. -/
def dropping : State := boot [(.fp, 0xFFE7)] 0 [(0xFFFD, [0x00, 0x01])]

theorem witness_ReturnFaultsAtADroppedWord :
    dropping.servesWord (dropping.returnAddress 11) = false ∧
      (∀ j, j < 11 → dropping.servesWord (dropping.returnAddress j) = true) ∧
      ∃ n, dropping.ramWord? (dropping.returnAddress 10) = some n ∧ 11 < 11 + n.toNat :=
  ⟨by decide, by decide, 1, by decide, by decide⟩

/-- In the reference map, and with a peripheral mapped over a part of it; the callee's state may be the one the call
leaves. -/
theorem witness_CalledFrameReturnsToItsCaller :
    calling.frameInRam ∧ calling.ramWord? (popAddress calling) = some 1 ∧
      (∀ k, k < 10 → calling.apart (popAddress calling) (calling.frameAddress k) = true) ∧
      calling.sfs = calling.reg .fp - calling.reg .sp ∧
      (∃ t, exec (.calLit 0x0300) calling = .next t ∧ t.servesWord (t.returnAddress 11) = true) ∧
      (withPeripheral calling).frameInRam ∧ (withPeripheral calling).ramWord? (popAddress (withPeripheral calling)) = some 1 ∧
      ∀ k, k < 10 →
        (withPeripheral calling).apart (popAddress (withPeripheral calling)) ((withPeripheral calling).frameAddress k) = true := by
  unfold State.frameInRam
  exact ⟨by decide, by decide, by decide, by decide, ⟨_, rfl, by decide⟩, by decide, by decide, by decide⟩

theorem witness_UnknownOpcodeIsAOneByteNoOp :
    State.reset.run = .running ∧ fetch8 State.reset = .ok (0, State.reset.setReg .ip 1) ∧
      config.opcodeMap.unassigned 0 = true ∧ State.reset.ramByte? (State.reset.reg .ip).toNat = some 0 := by
  refine ⟨rfl, rfl, by decide, by decide⟩

end Sys2Proof.Tests
end

section
/-! PROOFS for 00_scope.md: an instruction's bytes are enough for the decoder (30_encoding.md R100), every instruction
but HLT keeps the run state or faults (10_state.md R31), and from these the three outcomes of a running step. -/

namespace Sys2Proof

/-! ## The decoder answers as soon as the operand bytes are there

One lemma for each format with operands: it reads its own bytes and leaves the rest. -/

theorem takeR_drop {op : Op} {k : Reg → Instr} {bs : List Byte} (h : 1 ≤ bs.length) :
    ∃ i, takeR op k bs = .ok (i, bs.drop 1) :=
  match bs, h with
  | _ :: _, _ => ⟨_, rfl⟩

theorem takeL_drop {op : Op} {k : Word → Instr} {bs : List Byte} (h : 2 ≤ bs.length) :
    ∃ i, takeL op k bs = .ok (i, bs.drop 2) :=
  match bs, h with
  | _ :: _ :: _, _ => ⟨_, rfl⟩

theorem takeRR_drop {op : Op} {k : Reg → Reg → Instr} {bs : List Byte} (h : 2 ≤ bs.length) :
    ∃ i, takeRR op k bs = .ok (i, bs.drop 2) :=
  match bs, h with
  | _ :: _ :: _, _ => ⟨_, rfl⟩

theorem takeLR_drop {op : Op} {k : Word → Reg → Instr} {bs : List Byte} (h : 3 ≤ bs.length) :
    ∃ i, takeLR op k bs = .ok (i, bs.drop 3) :=
  match bs, h with
  | _ :: _ :: _ :: _, _ => ⟨_, rfl⟩

theorem takeRL_drop {op : Op} {k : Reg → Word → Instr} {bs : List Byte} (h : 3 ≤ bs.length) :
    ∃ i, takeRL op k bs = .ok (i, bs.drop 3) :=
  match bs, h with
  | _ :: _ :: _ :: _, _ => ⟨_, rfl⟩

theorem takeLL_drop {op : Op} {k : Word → Word → Instr} {bs : List Byte} (h : 4 ≤ bs.length) :
    ∃ i, takeLL op k bs = .ok (i, bs.drop 4) :=
  match bs, h with
  | _ :: _ :: _ :: _ :: _, _ => ⟨_, rfl⟩

theorem takeLRR_drop {op : Op} {k : Word → Reg → Reg → Instr} {bs : List Byte} (h : 4 ≤ bs.length) :
    ∃ i, takeLRR op k bs = .ok (i, bs.drop 4) :=
  match bs, h with
  | _ :: _ :: _ :: _ :: _, _ => ⟨_, rfl⟩

/-- Where the operand bytes of an instruction's format are there, its operands are read and the rest is left. -/
theorem decodeOperands_drop {op : Op} {bs : List Byte} (h : (op.format.fields.map Field.size).sum ≤ bs.length) :
    ∃ i, decodeOperands op bs = .ok (i, bs.drop (op.format.fields.map Field.size).sum) := by
  cases op with
  | ret | hlt => exact ⟨_, rfl⟩
  | incReg | decReg | notReg | pshReg | pop | calReg => exact takeR_drop h
  | pshLit | calLit => exact takeL_drop h
  | movRegReg | movRegPtrReg | addRegReg | subRegReg | mulRegReg | andRegReg | orRegReg | xorRegReg | lsfRegReg
  | rsfRegReg => exact takeRR_drop h
  | movLitReg | movMemReg | addLitReg | subLitReg | mulLitReg => exact takeLR_drop h
  | movRegMem | andRegLit | orRegLit | xorRegLit | lsfRegLit | rsfRegLit | jneReg | jeqReg | jltReg | jgtReg | jleReg
  | jgeReg => exact takeRL_drop h
  | movLitMem | jneLit | jeqLit | jltLit | jgtLit | jleLit | jgeLit => exact takeLL_drop h
  | movLitOffReg => exact takeLRR_drop h

theorem decode_of_op {b : Byte} {op : Op} (h : config.opcodeMap.opOf? b = some op) (bs : List Byte) :
    decode (b :: bs) = decodeOperands op bs := by
  simp [decode, decodeWith, h]

theorem decode_of_unknown {b : Byte} (h : config.opcodeMap.opOf? b = none) (bs : List Byte) :
    decode (b :: bs) = .ok (.unknownOpcode b, bs) := by
  simp [decode, decodeWith, h]

theorem opcodeLength_of_op {b : Byte} {op : Op} (h : config.opcodeMap.opOf? b = some op) :
    opcodeLength b = (op.format.fields.map Field.size).sum + 1 := by
  simp [opcodeLength, OpcodeMap.fieldsOf, h, Nat.add_comm]

theorem opcodeLength_of_unknown {b : Byte} (h : config.opcodeMap.opOf? b = none) : opcodeLength b = 1 := by
  simp [opcodeLength, OpcodeMap.fieldsOf, h]

/-- The decoder uses up exactly the bytes that the opcode byte asks for (30_encoding.md R100). -/
theorem decode_drop {b : Byte} {bs : List Byte} (h : opcodeLength b ≤ (b :: bs).length) :
    ∃ i, decode (b :: bs) = .ok (i, (b :: bs).drop (opcodeLength b)) := by
  cases hop : config.opcodeMap.opOf? b with
  | none =>
    rw [opcodeLength_of_unknown hop, decode_of_unknown hop]
    exact ⟨.unknownOpcode b, rfl⟩
  | some op =>
    rw [opcodeLength_of_op hop] at h ⊢
    rw [decode_of_op hop, List.drop_succ_cons]
    exact decodeOperands_drop (Nat.le_of_succ_le_succ h)

namespace Machine

/-- The fetched bytes decode to one instruction and nothing is left of them. -/
theorem fetchBytes_decodes {s t : State} {bytes : List Byte} (h : fetchBytes s = .ok (bytes, t)) :
    ∃ i, decode bytes = .ok (i, []) := by
  obtain ⟨_, b, bs, rfl, hlen⟩ := fetchBytes_ok h
  obtain ⟨i, hi⟩ := decode_drop hlen.ge
  exact ⟨i, by rw [hi, ← hlen, List.drop_length]⟩

/-! ## How an instruction ends -/

/-- The outcome from `s` is a next state that has what every access keeps (the run state among it), or a fatal error. -/
def KeepsOrFaults (s : State) (o : Outcome State Fault Refusal) : Prop :=
  (∃ t, o = .next t ∧ Keeps s t) ∨ ∃ e, o = .fault (.fatal e)

theorem KeepsOrFaults.next {s t : State} (h : Keeps s t) : KeepsOrFaults s (.next t) := .inl ⟨t, rfl, h⟩

theorem KeepsOrFaults.setReg (s : State) (r : Reg) (v : Word) : KeepsOrFaults s (.next (s.setReg r v)) :=
  .next (Keeps.setReg s r v)

/-- An instruction that ends its accesses keeps what they keep. -/
theorem KeepsOrFaults.complete {s : State} {x : Access State} (h : ∀ t, x = .ok t → Keeps s t) :
    KeepsOrFaults s (complete x) := by
  cases x with
  | ok t => exact .next (h t rfl)
  | error e => exact .inr ⟨e, rfl⟩

theorem jumpIf_keeps (rel : JumpRelation) (operand target : Word) (s : State) :
    Keeps s (jumpIf rel operand target s) := by
  unfold jumpIf
  split
  · exact Keeps.setReg s .ip target
  · exact Keeps.refl s

theorem loadTo_keeps {a : Nat} {rd : Reg} {s t : State} (h : loadTo a rd s = .ok t) : Keeps s t := by
  obtain ⟨v, u, hr, rfl⟩ := loadTo_ok h
  exact (memRead16_keeps hr).1.trans (Keeps.setReg u rd v)

theorem storeAt_keeps {a : Nat} {v : Word} {s t : State} (h : storeAt a v s = .ok t) : Keeps s t :=
  (memWrite16_keeps h).1

/-- A sequence of accesses, then a write of one register. -/
theorem bind_setReg_keeps {α : Type} {x : Access α} {s t : State} {state : α → State} {r : Reg} {v : α → Word}
    (hx : ∀ p, x = .ok p → Keeps s (state p)) (h : (x >>= fun p => pure ((state p).setReg r (v p))) = .ok t) :
    Keeps s t := by
  obtain ⟨p, hp, ht⟩ := Access.bind_ok.mp h
  cases ht
  exact (hx p hp).trans (Keeps.setReg _ _ _)

/-- Every instruction but HLT keeps the run state and the bus, or faults with a fatal error. -/
theorem exec_keepsOrFaults {i : Instr} (s : State) (hi : i ≠ .hlt) : KeepsOrFaults s (exec i s) := by
  cases i with
  | movLitReg | movRegReg => exact .setReg s _ _
  | addRegReg | addLitReg | subRegReg | subLitReg | mulRegReg | mulLitReg => exact .setReg s .acc _
  | incReg | decReg | notReg => exact .setReg s _ _
  | andRegLit | andRegReg | orRegLit | orRegReg | xorRegLit | xorRegReg => exact .setReg s _ _
  | lsfRegLit | lsfRegReg | rsfRegLit | rsfRegReg => exact .setReg s _ _
  | jneLit | jneReg | jeqLit | jeqReg | jltLit | jltReg | jgtLit | jgtReg | jleLit | jleReg | jgeLit | jgeReg =>
    exact .next (jumpIf_keeps _ _ _ s)
  | movMemReg | movRegPtrReg | movLitOffReg => exact .complete fun _ => loadTo_keeps
  | movRegMem | movLitMem => exact .complete fun _ => storeAt_keeps
  | pshLit | pshReg => exact .complete fun _ h => (push_keeps h).1
  | pop => exact .complete fun _ => bind_setReg_keeps fun _ h => (pop_ok h).1
  | calLit | calReg => exact .complete fun _ => bind_setReg_keeps fun _ h => (pushFrame_ok h).1
  | ret => exact .complete fun _ h => (popFrame_ok h).1
  | unknownOpcode => exact .next (Keeps.refl s)
  | hlt => exact absurd rfl hi

theorem exec_hlt (s : State) : exec .hlt s = .next (s.setRun .halted) := rfl

/-! ## How a running step ends -/

theorem step_fetch_error {s : State} {e : FatalError} (hr : s.run = .running) (hf : fetchBytes s = .error e) :
    step s = .fault (.fatal e) := by
  simp [step, hr, hf, raiseFatal]

theorem step_fetched {s u : State} {bytes rest : List Byte} {i : Instr} (hr : s.run = .running)
    (hf : fetchBytes s = .ok (bytes, u)) (hd : decode bytes = .ok (i, rest)) : step s = exec i u := by
  simp [step, hr, hf, hd]

/-- Everything a running step can do: its fetches fail, or it executes the instruction that they bring. -/
theorem step_cases {s : State} (hr : s.run = .running) :
    (∃ e, fetchBytes s = .error e ∧ step s = .fault (.fatal e)) ∨
      ∃ bytes u i, fetchBytes s = .ok (bytes, u) ∧ decode bytes = .ok (i, []) ∧ step s = exec i u := by
  cases hf : fetchBytes s with
  | error e => exact .inl ⟨e, rfl, step_fetch_error hr hf⟩
  | ok p =>
    obtain ⟨bytes, u⟩ := p
    obtain ⟨i, hd⟩ := fetchBytes_decodes hf
    exact .inr ⟨bytes, u, i, rfl, hd, step_fetched hr hf hd⟩

/-- The three outcomes of a running step, told by the run state of the next one. -/
theorem step_outcome {s : State} (hr : s.run = .running) :
    (∃ t, step s = .next t ∧ t.run = .running) ∨ (∃ t, step s = .next t ∧ t.run = .halted) ∨
      ∃ e, step s = .fault (.fatal e) := by
  obtain ⟨e, _, hs⟩ | ⟨bytes, u, i, hf, _, hs⟩ := step_cases hr
  · exact .inr (.inr ⟨e, hs⟩)
  · have hu : u.run = .running := (fetchBytes_ok hf).1.keeps.run.trans hr
    by_cases hi : i = .hlt
    · subst hi
      exact .inr (.inl ⟨_, hs.trans (exec_hlt u), u.setRun_run .halted⟩)
    · obtain ⟨t, ht, hk⟩ | ⟨e, he⟩ := exec_keepsOrFaults u hi
      · exact .inl ⟨t, hs.trans ht, hk.run.trans hu⟩
      · exact .inr (.inr ⟨e, hs.trans he⟩)

@[simp] theorem stepReturns_next (t : State) : stepReturns (.next t) = some (.ok (decide (t.run = .halted))) := rfl

@[simp] theorem stepReturns_fatal (e : FatalError) : stepReturns (.fault (.fatal e)) = some (.error e) := rfl

@[simp] theorem runStateAfter_fatal (before : RunState) (e : FatalError) :
    runStateAfter before (.fault (.fatal e)) = .faulted e := rfl

/-- Settles O25: what step() returns and the run state after it, for each of the three outcomes. -/
theorem runStateAfterAStep : Obligations.RunStateAfterAStep := by
  intro s hr
  obtain ⟨t, hs, ht⟩ | ⟨t, hs, ht⟩ | ⟨e, hs⟩ := step_outcome hr
  · exact .inl ⟨t, hs, ht, by simp [hs, ht]⟩
  · exact .inr (.inl ⟨t, hs, ht, by simp [hs, ht]⟩)
  · exact .inr (.inr ⟨e, hs, by simp [hs], by simp [hs]⟩)

end Machine

end Sys2Proof
end

section
/-! PROOFS for 10_state.md: what a completed step can do (one inversion lemma, with HLT told apart by its one byte) and
what an instruction can write, and from these the invariant, the bus, the halt, the frames of `sfs` and of the
registers; then registers by name and the state after reset. -/

namespace Sys2Proof

/-! ## HLT is the one byte 0xFF

One lemma for each format with operands: what is decoded is the instruction of that format. -/

theorem takeR_ok {op : Op} {k : Reg → Instr} {bs rest : List Byte} {i : Instr} (h : takeR op k bs = .ok (i, rest)) :
    ∃ r, i = k r :=
  match bs, h with
  | _ :: _, rfl => ⟨_, rfl⟩

theorem takeL_ok {op : Op} {k : Word → Instr} {bs rest : List Byte} {i : Instr} (h : takeL op k bs = .ok (i, rest)) :
    ∃ w, i = k w :=
  match bs, h with
  | _ :: _ :: _, rfl => ⟨_, rfl⟩

theorem takeRR_ok {op : Op} {k : Reg → Reg → Instr} {bs rest : List Byte} {i : Instr}
    (h : takeRR op k bs = .ok (i, rest)) : ∃ r r', i = k r r' :=
  match bs, h with
  | _ :: _ :: _, rfl => ⟨_, _, rfl⟩

theorem takeLR_ok {op : Op} {k : Word → Reg → Instr} {bs rest : List Byte} {i : Instr}
    (h : takeLR op k bs = .ok (i, rest)) : ∃ w r, i = k w r :=
  match bs, h with
  | _ :: _ :: _ :: _, rfl => ⟨_, _, rfl⟩

theorem takeRL_ok {op : Op} {k : Reg → Word → Instr} {bs rest : List Byte} {i : Instr}
    (h : takeRL op k bs = .ok (i, rest)) : ∃ r w, i = k r w :=
  match bs, h with
  | _ :: _ :: _ :: _, rfl => ⟨_, _, rfl⟩

theorem takeLL_ok {op : Op} {k : Word → Word → Instr} {bs rest : List Byte} {i : Instr}
    (h : takeLL op k bs = .ok (i, rest)) : ∃ w w', i = k w w' :=
  match bs, h with
  | _ :: _ :: _ :: _ :: _, rfl => ⟨_, _, rfl⟩

theorem takeLRR_ok {op : Op} {k : Word → Reg → Reg → Instr} {bs rest : List Byte} {i : Instr}
    (h : takeLRR op k bs = .ok (i, rest)) : ∃ w r r', i = k w r r' :=
  match bs, h with
  | _ :: _ :: _ :: _ :: _, rfl => ⟨_, _, _, rfl⟩

/-- The operands of no other instruction decode to HLT, and HLT has none. -/
theorem decodeOperands_hlt {op : Op} {bs rest : List Byte} (h : decodeOperands op bs = .ok (.hlt, rest)) :
    op = .hlt ∧ bs = rest := by
  cases op with
  | hlt => cases h; exact ⟨rfl, rfl⟩
  | ret => cases h
  | incReg | decReg | notReg | pshReg | pop | calReg => obtain ⟨_, e⟩ := takeR_ok h; cases e
  | pshLit | calLit => obtain ⟨_, e⟩ := takeL_ok h; cases e
  | movRegReg | movRegPtrReg | addRegReg | subRegReg | mulRegReg | andRegReg | orRegReg | xorRegReg | lsfRegReg
  | rsfRegReg => obtain ⟨_, _, e⟩ := takeRR_ok h; cases e
  | movLitReg | movMemReg | addLitReg | subLitReg | mulLitReg => obtain ⟨_, _, e⟩ := takeLR_ok h; cases e
  | movRegMem | andRegLit | orRegLit | xorRegLit | lsfRegLit | rsfRegLit | jneReg | jeqReg | jltReg | jgtReg | jleReg
  | jgeReg => obtain ⟨_, _, e⟩ := takeRL_ok h; cases e
  | movLitMem | jneLit | jeqLit | jltLit | jgtLit | jleLit | jgeLit => obtain ⟨_, _, e⟩ := takeLL_ok h; cases e
  | movLitOffReg => obtain ⟨_, _, _, e⟩ := takeLRR_ok h; cases e

/-- The opcode map gives HLT the byte 0xFF and no other (30_encoding.md R97). -/
theorem opOf?_hlt {b : Byte} : config.opcodeMap.opOf? b = some .hlt ↔ b = 0xFF := by
  refine ⟨fun h => ?_, fun h => h ▸ rfl⟩
  have hm : (Op.hlt, b) ∈ opcodeMap := OpcodeMap.opOf?_mem h
  simpa [opcodeMap, moveOpcodes, arithmeticOpcodes, incrementOpcodes, logicShiftOpcodes, jumpOpcodes, stackOpcodes,
    subroutineOpcodes, haltOpcodes] using hm

/-- Bytes are HLT and nothing more exactly when they are the byte 0xFF (46_halt_and_unknown.md R200). -/
theorem decode_hlt {bytes : List Byte} : decode bytes = .ok (.hlt, []) ↔ bytes = [0xFF] := by
  refine ⟨fun h => ?_, fun h => h ▸ rfl⟩
  cases bytes with
  | nil => cases h
  | cons b bs =>
    cases hop : config.opcodeMap.opOf? b with
    | none =>
      rw [decode_of_unknown hop] at h
      cases h
    | some op =>
      rw [decode_of_op hop] at h
      obtain ⟨rfl, rfl⟩ := decodeOperands_hlt h
      rw [opOf?_hlt.mp hop]

namespace Machine

/-! ## What a completed step can do -/

/-- A step completes only from a running state (70_reset_and_hazards.md R236). -/
theorem step_next_running {s t : State} (h : step s = .next t) : s.run = .running := by
  unfold step at h
  cases hr : s.run with
  | running => rfl
  | halted | faulted => simp [hr] at h

/-- An instruction other than HLT that completes keeps what every access keeps. -/
theorem exec_next_keeps {i : Instr} {s t : State} (hi : i ≠ .hlt) (h : exec i s = .next t) : Keeps s t := by
  obtain ⟨u, hu, hk⟩ | ⟨e, he⟩ := exec_keepsOrFaults s hi
  · cases hu.symm.trans h
    exact hk
  · cases he.symm.trans h

/-- Everything a completed step can do: it fetched the byte 0xFF and halted after the fetch, or it fetched other bytes
and keeps what every access keeps, the run state among it. -/
theorem step_next {s t : State} (h : step s = .next t) :
    ∃ bytes u, fetchBytes s = .ok (bytes, u) ∧
      ((bytes = [0xFF] ∧ Keeps s u ∧ t = u.setRun .halted) ∨ (bytes ≠ [0xFF] ∧ Keeps s t)) := by
  obtain ⟨e, _, hs⟩ | ⟨bytes, u, i, hf, hd, hs⟩ := step_cases (step_next_running h)
  · rw [hs] at h
    cases h
  · have hu : Keeps s u := (fetchBytes_ok hf).1.keeps
    rw [hs] at h
    refine ⟨bytes, u, hf, ?_⟩
    by_cases hi : i = .hlt
    · subst hi
      cases h
      exact .inl ⟨decode_hlt.mp hd, hu, rfl⟩
    · refine .inr ⟨fun hb => hi ?_, hu.trans (exec_next_keeps hi h)⟩
      cases hd.symm.trans (decode_hlt.mpr hb)
      rfl

/-- A completed step keeps what every access keeps, but for a halt after it. -/
theorem step_next_keeps {s t : State} (h : step s = .next t) : ∃ u, Keeps s u ∧ (t = u ∨ t = u.setRun .halted) := by
  obtain ⟨_, u, _, ⟨_, hk, rfl⟩ | ⟨_, hk⟩⟩ := step_next h
  · exact ⟨u, hk, .inr rfl⟩
  · exact ⟨t, hk, .inl rfl⟩

/-! ## The invariant, the bus and the halt -/

/-- What every access keeps is enough for the invariant. -/
theorem Keeps.inv {s t : State} (k : Keeps s t) (h : s.Inv) : t.Inv := by
  obtain ⟨hwf, hnodup, hbelow, hexist, hrun⟩ := h
  unfold State.Inv
  rw [k.regions, k.nextToken, k.count, k.run]
  exact ⟨k.wf hwf, hnodup, hbelow, hexist, hrun⟩

/-- Of the run state the invariant asks only that it is not Faulted. -/
theorem State.Inv.setRun {s : State} (h : s.Inv) {r : RunState} (hr : ∀ e, r ≠ .faulted e) : (s.setRun r).Inv := by
  obtain ⟨hwf, hnodup, hbelow, hexist, _⟩ := h
  exact ⟨hwf, hnodup, hbelow, hexist, hr⟩

/-- Settles O17: a step keeps what its accesses keep, and a halt is no fault. -/
theorem stepKeepsTheInvariant : Obligations.StepKeepsTheInvariant := by
  intro s t hs h
  obtain ⟨u, hk, rfl | rfl⟩ := step_next_keeps h
  · exact hk.inv hs
  · exact (hk.inv hs).setRun fun e he => by cases he

/-- Settles O20: the bus and the history after a step are those its accesses leave, halted or not. -/
theorem stepKeepsTheBus : Obligations.StepKeepsTheBus := by
  intro s t h
  obtain ⟨u, hk, rfl | rfl⟩ := step_next_keeps h
  · exact ⟨hk.regions, hk.nextToken, hk.count, hk.size, hk.history⟩
  · exact ⟨hk.regions, hk.nextToken, hk.count, hk.size, hk.history⟩

/-- Settles O21: the step of the byte 0xFF halts, every other completed step keeps the run state, which was Running. -/
theorem haltedOnlyByHlt : Obligations.HaltedOnlyByHlt := by
  intro s t h
  obtain ⟨bytes, u, hf, ⟨rfl, _, rfl⟩ | ⟨hb, hk⟩⟩ := step_next h
  · exact ⟨.inl rfl, fun _ => ⟨u, hf⟩, fun _ => rfl⟩
  · have ht : t.run = .running := hk.run.trans (step_next_running h)
    refine ⟨.inr ht, fun hh => ?_, fun ⟨v, hv⟩ => ?_⟩
    · cases ht.symm.trans hh
    · cases hf.symm.trans hv
      exact absurd rfl hb

/-! ## What an instruction can write -/

/-- No register outside `rs` differs, and `sfs` differs only where `stack` says so. -/
structure WritesAtMost (rs : List Reg) (stack : Bool) (s t : State) : Prop where
  reg : ∀ r, r ∉ rs → t.reg r = s.reg r
  sfs : stack = false → t.sfs = s.sfs

section
variable {s t : State} {rs : List Reg} {r : Reg} {stack : Bool}

theorem WritesAtMost.refl (s : State) : WritesAtMost rs stack s s := ⟨fun _ _ => rfl, fun _ => rfl⟩

/-- Registers and `sfs` unchanged: nothing is written. -/
theorem WritesAtMost.of_regs (hg : t.regs = s.regs) (hs : t.sfs = s.sfs) : WritesAtMost rs stack s t :=
  ⟨fun _ _ => by simp [State.reg, hg], fun _ => hs⟩

/-- Where the stack is used, only the registers are at issue. -/
theorem WritesAtMost.of_stack (h : ∀ r, r ∉ rs → t.reg r = s.reg r) : WritesAtMost rs true s t :=
  ⟨h, fun hf => by cases hf⟩

/-- A write of one more register, which `rs` lists. -/
theorem WritesAtMost.setReg (h : WritesAtMost rs stack s t) (hr : r ∈ rs) (v : Word) :
    WritesAtMost rs stack s (t.setReg r v) :=
  ⟨fun q hq => by rw [State.reg_setReg_ne t v (ne_of_mem_of_not_mem hr hq).symm, h.reg q hq], h.sfs⟩

/-- An instruction that is one register write. -/
theorem WritesAtMost.of_next_setReg {v : Word} (h : (.next (s.setReg r v) : Outcome State Fault Refusal) = .next t) :
    WritesAtMost [r] stack s t := by
  cases h
  exact (WritesAtMost.refl s).setReg (by simp) v

theorem WritesAtMost.of_jumpIf {rel : JumpRelation} {operand target : Word}
    (h : (.next (jumpIf rel operand target s) : Outcome State Fault Refusal) = .next t) :
    WritesAtMost [.ip] stack s t := by
  cases h
  obtain ⟨_, hr, hs⟩ := jumpIf_onlyRegWritten rel operand target s
  exact ⟨fun r hm => hr r (by simpa using hm), fun _ => hs.1⟩

theorem WritesAtMost.of_load {a : Nat} (h : complete (loadTo a r s) = .next t) : WritesAtMost [r] stack s t := by
  obtain ⟨v, u, hm, rfl⟩ := loadTo_ok (complete_next.mp h)
  obtain ⟨_, hg, hs, _⟩ := memRead16_keeps hm
  exact (WritesAtMost.of_regs hg hs).setReg (by simp) v

theorem WritesAtMost.of_store {a : Nat} {v : Word} (h : complete (storeAt a v s) = .next t) :
    WritesAtMost rs stack s t := by
  obtain ⟨_, hg, hs⟩ := memWrite16_keeps (complete_next.mp h)
  exact .of_regs hg hs

theorem WritesAtMost.of_push {v : Word} (h : complete (push v s) = .next t) : WritesAtMost [.sp] true s t := by
  obtain ⟨_, _, hr, _⟩ := push_keeps (complete_next.mp h)
  exact .of_stack fun r hm => hr r (by simpa using hm)

theorem WritesAtMost.of_pop (h : execPop r s = .next t) : WritesAtMost [.sp, r] true s t := by
  obtain ⟨⟨v, u⟩, hp, ht⟩ := Access.bind_ok.mp (complete_next.mp h)
  cases ht
  obtain ⟨_, _, hr, _⟩ := pop_ok hp
  have hu : WritesAtMost [.sp, r] true s u := .of_stack fun q hm => hr q fun e => hm (by simp [e])
  exact hu.setReg (by simp) v

/-- A call by either form: the frame, then the target. -/
theorem WritesAtMost.of_call {target : Word}
    (h : complete (pushFrame s >>= fun u => pure (u.setReg .ip target)) = .next t) :
    WritesAtMost [.sp, .fp, .ip] true s t := by
  obtain ⟨u, hp, ht⟩ := Access.bind_ok.mp (complete_next.mp h)
  cases ht
  obtain ⟨_, _, _, hr, _⟩ := pushFrame_ok hp
  have hu : WritesAtMost [.sp, .fp, .ip] true s u :=
    .of_stack fun q hm => hr q (fun e => hm (by simp [e])) fun e => hm (by simp [e])
  exact hu.setReg (by simp) target

/-- A return loads every register but `acc` (45_subroutine.md R191). -/
theorem eq_acc_of_not_mem_ret (h : r ∉ Instr.ret.writtenRegs) : r = .acc := by
  cases r with
  | acc => rfl
  | ip | r1 | r2 | r3 | r4 | r5 | r6 | r7 | r8 | sp | fp => exact absurd (by simp [Instr.writtenRegs]) h

theorem WritesAtMost.of_ret (h : execRet s = .next t) : WritesAtMost Instr.ret.writtenRegs true s t := by
  obtain ⟨_, _, hacc, _⟩ := popFrame_ok (complete_next.mp h)
  exact .of_stack fun r hm => eq_acc_of_not_mem_ret hm ▸ hacc

end

/-- An instruction writes the registers of its list at most, and `sfs` only if it uses the stack (10_state.md R29). -/
theorem exec_writesAtMost {i : Instr} {s t : State} (h : exec i s = .next t) :
    WritesAtMost i.writtenRegs i.usesStack s t := by
  cases i with
  | movLitReg | movRegReg => exact .of_next_setReg h
  | addRegReg | addLitReg | subRegReg | subLitReg | mulRegReg | mulLitReg => exact .of_next_setReg h
  | incReg | decReg | notReg => exact .of_next_setReg h
  | andRegLit | andRegReg | orRegLit | orRegReg | xorRegLit | xorRegReg => exact .of_next_setReg h
  | lsfRegLit | lsfRegReg | rsfRegLit | rsfRegReg => exact .of_next_setReg h
  | jneLit | jneReg | jeqLit | jeqReg | jltLit | jltReg | jgtLit | jgtReg | jleLit | jleReg | jgeLit | jgeReg =>
    exact .of_jumpIf h
  | movMemReg | movRegPtrReg | movLitOffReg => exact .of_load h
  | movRegMem | movLitMem => exact .of_store h
  | pshLit | pshReg => exact .of_push h
  | pop => exact .of_pop h
  | calLit | calReg => exact .of_call h
  | ret => exact .of_ret h
  | hlt => cases h; exact .of_regs rfl rfl
  | unknownOpcode => cases h; exact .refl s

/-- Settles O22: `sfs` is written by the stack instructions alone. -/
theorem sfsChangesOnlyByTheStack : Obligations.SfsChangesOnlyByTheStack :=
  fun _ _ _ hi h => (exec_writesAtMost h).sfs hi

/-- Settles O24: an instruction writes the registers of its list at most. -/
theorem onlyTheListedRegistersAreWritten : Obligations.OnlyTheListedRegistersAreWritten :=
  fun _ _ _ r hr h => (exec_writesAtMost h).reg r hr

/-! ## Registers by name -/

@[simp] theorem regOfName_regName (r : Reg) : regOfName (regName r) = some r := by
  cases r <;> rfl

/-- An integer stored in a register is read modulo 65536 (10_state.md R21). -/
theorem toNat_ofInt_word (v : Int) : ((BitVec.ofInt 16 v).toNat : Int) = v % 65536 := by
  rw [BitVec.toNat_ofInt]
  exact Int.toNat_of_nonneg (Int.emod_nonneg v (by decide))

/-- Settles O33: a name selects its register, and a `Word` is the integer modulo 65536. -/
theorem registersByNameKeepValuesModulo65536 : Obligations.RegistersByNameKeepValuesModulo65536 := by
  intro s r v
  refine ⟨s.setReg r (BitVec.ofInt 16 v), BitVec.ofInt 16 v, ?_, ?_, toNat_ofInt_word v, s.onlyRegWritten_setReg r _⟩
  · simp [setRegister]
  · simp [getRegister]

/-! ## The state after reset -/

/-- The one device after reset lists no byte. -/
theorem deviceWf_of_mem_reset {dev : Device} (h : dev ∈ State.reset.devices) : deviceWf dev := by
  obtain rfl : dev = .ram addrSpace [] := List.mem_singleton.mp h
  exact ⟨Memory.wf_nil, by simp⟩

/-- Settles O18: the reference map has one region, of token 0, over device 0. -/
theorem resetMeetsTheInvariant : Obligations.ResetMeetsTheInvariant := by
  refine ⟨fun _ => deviceWf_of_mem_reset, by decide, by decide, by decide, fun e he => ?_⟩
  cases he

/-- The registers after reset (10_state.md R40, D13). -/
theorem State.reset_reg (r : Reg) : State.reset.reg r = if r = .sp ∨ r = .fp then 0xFFFE else 0 := by
  cases r with
  | sp | fp => rfl
  | ip | acc | r1 | r2 | r3 | r4 | r5 | r6 | r7 | r8 => rfl

/-- Settles O19: the table of 10_state.md R40, in the reference map. -/
theorem resetValues : Obligations.ResetValues :=
  ⟨State.reset_reg, rfl, rfl, ⟨rfl, [], rfl⟩, rfl⟩

end Machine

end Sys2Proof
end

section
/-! PROOFS for 20_memory.md: where the bus routes an access, what `map` and `unmap` do to the region list, what one
access answers in RAM and at a peripheral, which instructions leave the devices alone, and which errors the bus raises. -/

namespace Sys2Proof.Machine

/-! ## Routing (R54, R55) -/

theorem regionContains_iff {r : Region} {a : Nat} : regionContains r a = true ↔ r.start ≤ a ∧ a ≤ r.stop := by
  simp [regionContains]

theorem State.locate_eq_none_iff {s : State} {a : Nat} : s.locate a = none ↔ resolve s.regions a = none := by
  unfold State.locate
  cases resolve s.regions a <;> simp

/-- An address that no region contains is routed nowhere. -/
theorem State.locate_outside {s : State} {a : Nat} (h : ∀ r ∈ s.regions, ¬(r.start ≤ a ∧ a ≤ r.stop)) :
    s.locate a = none := by
  refine State.locate_eq_none_iff.mpr (List.find?_eq_none.mpr fun r hr hc => h r hr ?_)
  exact regionContains_iff.mp hc

/-- An address is routed to the first region of the list that contains it. -/
theorem State.locate_first {s : State} {a : Nat} {newer older : List Region} {r : Region}
    (hs : s.regions = newer ++ r :: older) (hn : ∀ q ∈ newer, ¬(q.start ≤ a ∧ a ≤ q.stop))
    (hr : r.start ≤ a ∧ a ≤ r.stop) : s.locate a = some (r.device, localAddress r a) := by
  have hf : resolve s.regions a = some r := by
    refine List.find?_eq_some_iff_append.mpr ⟨regionContains_iff.mpr hr, newer, older, hs, fun q hq => ?_⟩
    simpa [← regionContains_iff] using hn q hq
  simp [State.locate, hf]

section
variable {s : State} {a d x : Nat}

theorem memRead8_routed (h : s.locate a = some (d, x)) : memRead8 a s = deviceGet8 d x s := by
  simp [memRead8, h]

theorem memRead16_routed (h : s.locate a = some (d, x)) : memRead16 a s = deviceGet16 d x s := by
  simp [memRead16, h]

theorem memWrite8_routed (h : s.locate a = some (d, x)) (v : Byte) : memWrite8 a v s = deviceSet8 d x v s := by
  simp [memWrite8, h]

theorem memWrite16_routed (h : s.locate a = some (d, x)) (v : Word) : memWrite16 a v s = deviceSet16 d x v s := by
  simp [memWrite16, h]

theorem memRead8_unmapped (h : s.locate a = none) : memRead8 a s = .error (.addressError a) := by
  simp [memRead8, h]

theorem memRead16_unmapped (h : s.locate a = none) : memRead16 a s = .error (.addressError a) := by
  simp [memRead16, h]

theorem memWrite8_unmapped (h : s.locate a = none) (v : Byte) : memWrite8 a v s = .error (.addressError a) := by
  simp [memWrite8, h]

theorem memWrite16_unmapped (h : s.locate a = none) (v : Word) : memWrite16 a v s = .error (.addressError a) := by
  simp [memWrite16, h]

end

/-- Settles O27: all four operations go where `locate` says, which is the first region of the list that contains the
address. -/
theorem accessesAreRoutedToTheNewestRegion : Obligations.AccessesAreRoutedToTheNewestRegion := by
  refine fun s a => ⟨fun h => ?_, fun newer r older hs hn hlo hhi x hx => ?_⟩
  · have hl : s.locate a = none := State.locate_outside h
    exact ⟨memRead8_unmapped hl, memRead16_unmapped hl, memWrite8_unmapped hl, memWrite16_unmapped hl⟩
  · subst hx
    have hl : s.locate a = some (r.device, localAddress r a) := State.locate_first hs hn ⟨hlo, hhi⟩
    exact ⟨memRead8_routed hl, memRead16_routed hl, memWrite8_routed hl, memWrite16_routed hl⟩

/-! ## `map` and `unmap` (R52, R53) -/

/-- The region that `map` puts in front. -/
def newRegion (d start stop : Nat) (remap : Bool) (s : State) : Region :=
  { token := s.nextToken, device := d, start := start, stop := stop, remap := remap }

@[simp] theorem mapRegion_regions (d start stop : Nat) (remap : Bool) (s : State) :
    (mapRegion d start stop remap s).2.regions = newRegion d start stop remap s :: s.regions := rfl

section
variable {s : State} {d start stop a : Nat} {remap : Bool}

theorem mapRegion_locate_inside (h : start ≤ a ∧ a ≤ stop) :
    (mapRegion d start stop remap s).2.locate a = some (d, if remap = true then a - start else a) :=
  State.locate_first (newer := []) (mapRegion_regions d start stop remap s) (by simp) h

theorem mapRegion_locate_outside (h : ¬(start ≤ a ∧ a ≤ stop)) :
    (mapRegion d start stop remap s).2.locate a = s.locate a := by
  have hc : regionContains (newRegion d start stop remap s) a = false :=
    Bool.eq_false_iff.mpr fun hc => h (regionContains_iff.mp hc)
  simp [State.locate, resolve, hc]

/-- The next token is the token of no region. -/
theorem State.Inv.token_ne_next (h : s.Inv) : ∀ r ∈ s.regions, r.token ≠ s.nextToken := by
  obtain ⟨_, _, hbelow, _, _⟩ := h
  exact fun r hr => Nat.ne_of_lt (hbelow r hr)

theorem mapRegion_inv (h : s.Inv) (hd : d < s.devices.length) : (mapRegion d start stop remap s).2.Inv := by
  have hnew := h.token_ne_next
  obtain ⟨hwf, hnodup, hbelow, hexist, hrun⟩ := h
  refine ⟨hwf, ?_, ?_, ?_, hrun⟩
  · rw [mapRegion_regions, List.map_cons, List.nodup_cons]
    refine ⟨fun hm => ?_, hnodup⟩
    obtain ⟨r, hr, ht⟩ := List.mem_map.mp hm
    exact hnew r hr ht
  · rw [mapRegion_regions, List.forall_mem_cons]
    exact ⟨Nat.lt_succ_self s.nextToken, fun r hr => Nat.lt_succ_of_lt (hbelow r hr)⟩
  · rw [mapRegion_regions, List.forall_mem_cons]
    exact ⟨hd, hexist⟩

end

/-- Settles O28: the new region contains its range and stands first, and the next token is new by the invariant. -/
theorem mapPutsTheNewRegionFirst : Obligations.MapPutsTheNewRegionFirst := by
  intro s t d a b tok remap h
  cases h
  exact ⟨fun x ha hb => mapRegion_locate_inside ⟨ha, hb⟩, fun x hx => mapRegion_locate_outside hx,
    ⟨newRegion d a b remap s, rfl, rfl, rfl, rfl, rfl, rfl⟩, State.Inv.token_ne_next, mapRegion_inv,
    rfl, rfl, rfl, rfl, rfl, rfl, rfl, rfl⟩

section
variable {s : State} {tok : Nat}

theorem unmapRegion_sublist (tok : Nat) (s : State) : (unmapRegion tok s).regions.Sublist s.regions :=
  List.filter_sublist

theorem mem_unmapRegion {r : Region} : r ∈ (unmapRegion tok s).regions ↔ r ∈ s.regions ∧ r.token ≠ tok := by
  simp [unmapRegion]

/-- Where no region has the token, `unmap` keeps the region list. -/
theorem unmapRegion_regions_unused (h : ∀ r ∈ s.regions, r.token ≠ tok) : (unmapRegion tok s).regions = s.regions :=
  List.filter_eq_self.mpr fun r hr => by simpa using h r hr

theorem unmapRegion_unused (h : ∀ r ∈ s.regions, r.token ≠ tok) : unmapRegion tok s = s :=
  State.ext_fields rfl rfl rfl (unmapRegion_regions_unused h) rfl rfl rfl

/-- Distinct tokens: a region other than the one of the token has another token, so it stays. -/
theorem mem_unmapRegion_of_ne {r q : Region} (h : s.Inv) (hr : r ∈ s.regions) (ht : r.token = tok)
    (hq : q ∈ s.regions) (hne : q ≠ r) : q ∈ (unmapRegion tok s).regions := by
  obtain ⟨_, hnodup, _, _, _⟩ := h
  exact mem_unmapRegion.mpr ⟨hq, fun e => hne (List.inj_on_of_nodup_map hnodup hq hr (e.trans ht.symm))⟩

/-- `unmap` of the token that `map` just handed out takes the new region away and no other. -/
theorem unmapRegion_mapRegion (h : s.Inv) (d start stop : Nat) (remap : Bool) :
    (unmapRegion s.nextToken (mapRegion d start stop remap s).2).regions = s.regions := by
  have hfirst : (unmapRegion s.nextToken (mapRegion d start stop remap s).2).regions =
      (unmapRegion s.nextToken s).regions := by
    simp [unmapRegion, newRegion]
  exact hfirst.trans (unmapRegion_regions_unused h.token_ne_next)

theorem unmapRegion_inv (h : s.Inv) : (unmapRegion tok s).Inv := by
  obtain ⟨hwf, hnodup, hbelow, hexist, hrun⟩ := h
  have hsub := unmapRegion_sublist tok s
  exact ⟨hwf, hnodup.sublist (hsub.map Region.token), fun r hr => hbelow r (hsub.subset hr),
    fun r hr => hexist r (hsub.subset hr), hrun⟩

end

/-- Settles O29: `unmap` filters the region list by token, and by the invariant tokens are distinct. -/
theorem unmapRemovesExactlyThatRegion : Obligations.UnmapRemovesExactlyThatRegion :=
  fun s tok => ⟨unmapRegion_sublist tok s, fun _ => mem_unmapRegion, unmapRegion_unused,
    fun h _ hr ht _ hq hne => mem_unmapRegion_of_ne h hr ht hq hne, unmapRegion_mapRegion, unmapRegion_inv,
    rfl, rfl, rfl, rfl, rfl, rfl⟩

/-! ## A word of RAM written and read back (R57, R58, R74) -/

/-- A word written where RAM holds one: it is stored there, and no register and no `sfs` differs. -/
theorem memWrite16_ram {s : State} {a : Nat} {w : Word} (v : Word) (h : s.ramWord? a = some w) :
    ∃ t, memWrite16 a v s = .ok t ∧ s.wordStored t a v ∧ t.regs = s.regs ∧ t.sfs = s.sfs := by
  obtain ⟨t, ht⟩ := memWrite16_served (v := v).mpr (State.servesWord_of_ramWord? h)
  obtain ⟨d, x, hl, hd, _, _⟩ := State.ramWord?_some h
  obtain ⟨hstored, hframe, hhist⟩ := memWrite16_effect ht
  obtain ⟨hk, hregs, hsfs⟩ := memWrite16_keeps ht
  obtain ⟨hhi, hlo⟩ := hstored d x hl hd
  refine ⟨t, ht, ⟨d, x, hl, hhi, hlo, fun d' b hb => hframe d' b ?_, hk.regions, hk.nextToken, ?_, hk.run⟩, hregs, hsfs⟩
  · simpa [State.covers, hl, eq_comm (a := d')] using hb
  · cases hdev : s.device d with
    | ram size cells => simpa [State.wordEvent?, hl, hdev] using hhist
    | peripheral => exact absurd hdev hd

/-- A stored word is what RAM holds at its address. -/
theorem State.wordStored.ramWord? {s t : State} {a : Nat} {v : Word} (h : s.wordStored t a v) :
    t.ramWord? a = some v := by
  obtain ⟨d, x, hl, hhi, hlo, _, hregions, _⟩ := h
  exact State.ramWord?_of_cells (by simpa [State.locate, hregions] using hl) hhi hlo

/-- Where RAM holds a word, a byte access at its address meets its high byte. -/
theorem State.ramByte?_of_ramWord? {s : State} {a : Nat} {w : Word} (h : s.ramWord? a = some w) :
    s.ramByte? a = some (hiByte w) := by
  obtain ⟨d, x, hl, _, hhi, _⟩ := State.ramWord?_some h
  simp [State.ramByte?, hl, hhi]

/-- Settles O30: the write stores the word, and the read meets the stored word. -/
theorem wordWriteThenReadGivesTheWord : Obligations.WordWriteThenReadGivesTheWord := by
  intro s a v w h
  obtain ⟨t, ht, hstored, hregs, hsfs⟩ := memWrite16_ram v h
  exact ⟨t, ht, hstored, fun r => by simp [State.reg, hregs], hsfs, memRead16_ram hstored.ramWord?⟩

/-- Settles O36: a fetch is a read at `ip`, and meets the stored word or its high byte. -/
theorem storedCodeIsFetched : Obligations.StoredCodeIsFetched := by
  intro s a v w h
  obtain ⟨t, ht, hstored, _, _⟩ := memWrite16_ram v h
  have hword : (t.setReg .ip a).ramWord? ((t.setReg .ip a).reg .ip).toNat = some v := by
    simpa using hstored.ramWord?
  refine ⟨t, ht, ?_, ?_⟩
  · simpa using fetch16_ram hword
  · simpa using fetch8_ram (State.ramByte?_of_ramWord? hword)

/-- Settles O31: the device of the first byte answers with its own next byte, or lacks it and raises the range error. -/
theorem wordAccessIsServedByOneDevice : Obligations.WordAccessIsServedByOneDevice := by
  refine fun s a d x hl => ⟨fun hi lo hhi hlo => ?_, fun size cells hd hsize => ?_⟩
  · exact ⟨wordOfBytes hi lo, (memRead16_routed hl).trans (deviceGet16_ram hhi hlo), toNat_wordOfBytes hi lo⟩
  · have hserved : s.servesWord a = false := by simpa [State.servesWord, hl, hd] using hsize
    have herror : s.wordError a = .deviceRangeError x := by simp [State.wordError, hl]
    rw [← herror]
    exact ⟨memRead16_unserved hserved, fun v => memWrite16_unserved hserved⟩

/-! ## Accesses to peripherals (R62)

Each of a peripheral's four operations appends its event; a read answers the free value. -/

section
variable {s : State} {a d x : Nat}

theorem deviceGet8_peripheral (hd : s.device d = .peripheral) :
    ∃ b, deviceGet8 d x s = .ok (b, s.record (.read8 d x b)) := by
  simp [deviceGet8, hd]

theorem deviceGet16_peripheral (hd : s.device d = .peripheral) :
    ∃ w, deviceGet16 d x s = .ok (w, s.record (.read16 d x w)) := by
  simp [deviceGet16, hd]

theorem deviceSet8_peripheral (hd : s.device d = .peripheral) (v : Byte) :
    deviceSet8 d x v s = .ok (s.record (.write8 d x v)) := by
  simp [deviceSet8, hd]

theorem deviceSet16_peripheral (hd : s.device d = .peripheral) (v : Word) :
    deviceSet16 d x v s = .ok (s.record (.write16 d x v)) := by
  simp [deviceSet16, hd]

/-- A load from a peripheral takes whatever it answers. -/
theorem loadTo_peripheral (hl : s.locate a = some (d, x)) (hd : s.device d = .peripheral) (rd : Reg) :
    ∃ v, loadTo a rd s = .ok ((s.record (.read16 d x v)).setReg rd v) := by
  obtain ⟨v, hv⟩ := deviceGet16_peripheral (x := x) hd
  exact ⟨v, by simp [loadTo, memRead16_routed hl, hv]⟩

/-- A store to a peripheral is its event. -/
theorem storeAt_peripheral (hl : s.locate a = some (d, x)) (hd : s.device d = .peripheral) (v : Word) :
    storeAt a v s = .ok (s.record (.write16 d x v)) :=
  (memWrite16_routed hl v).trans (deviceSet16_peripheral hd v)

end

/-- Settles O32: the bus hands each operation to the peripheral. -/
theorem peripheralAccessesAreEvents : Obligations.PeripheralAccessesAreEvents := by
  intro s a d x hl hd
  rw [memRead8_routed hl, memRead16_routed hl]
  exact ⟨deviceGet8_peripheral hd, deviceGet16_peripheral hd,
    fun b => (memWrite8_routed hl b).trans (deviceSet8_peripheral hd b), storeAt_peripheral hl hd⟩

/-- Settles O40: the data moves are one store or one load. -/
theorem loadsAndStoresOfPeripherals : Obligations.LoadsAndStoresOfPeripherals := by
  intro s rd rp lit addr d x hd
  have hstore : ∀ {a : Nat} (v : Word), s.locate a = some (d, x) →
      complete (storeAt a v s) = .next (s.record (.write16 d x v)) :=
    fun v hl => complete_next.mpr (storeAt_peripheral hl hd v)
  have hload : ∀ {a : Nat}, s.locate a = some (d, x) →
      ∃ v, complete (loadTo a rd s) = .next ((s.record (.read16 d x v)).setReg rd v) :=
    fun hl => (loadTo_peripheral hl hd rd).imp fun _ => complete_next.mpr
  exact ⟨fun hl => ⟨hstore (s.reg rp) hl, hstore lit hl, hload hl⟩, hload, hload⟩

/-! ## Instructions that store nothing (R64) -/

theorem jumpIf_devices (rel : JumpRelation) (operand target : Word) (s : State) :
    (jumpIf rel operand target s).devices = s.devices := by
  unfold jumpIf
  split <;> rfl

theorem loadTo_devices {a : Nat} {rd : Reg} {s t : State} (h : loadTo a rd s = .ok t) : t.devices = s.devices := by
  obtain ⟨v, u, hr, rfl⟩ := loadTo_ok h
  obtain ⟨_, _, _, hd⟩ := memRead16_keeps hr
  exact hd

theorem execPop_devices {rd : Reg} {s t : State} (h : execPop rd s = .next t) : t.devices = s.devices := by
  obtain ⟨⟨v, u⟩, hp, ht⟩ := Access.bind_ok.mp (complete_next.mp h)
  cases ht
  obtain ⟨_, _, _, _, hd⟩ := pop_ok hp
  exact hd

theorem execRet_devices {s t : State} (h : execRet s = .next t) : t.devices = s.devices := by
  obtain ⟨_, hd, _⟩ := popFrame_ok (complete_next.mp h)
  exact hd

/-- An instruction that stores nothing leaves every device as it is. -/
theorem exec_next_devices {i : Instr} {s t : State} (hi : i.stores = false) (h : exec i s = .next t) :
    t.devices = s.devices := by
  cases i with
  | movRegMem | movLitMem | pshLit | pshReg | calLit | calReg => cases hi
  | movLitReg | movRegReg => cases h; rfl
  | addRegReg | addLitReg | subRegReg | subLitReg | mulRegReg | mulLitReg => cases h; rfl
  | incReg | decReg | notReg => cases h; rfl
  | andRegLit | andRegReg | orRegLit | orRegReg | xorRegLit | xorRegReg => cases h; rfl
  | lsfRegLit | lsfRegReg | rsfRegLit | rsfRegReg => cases h; rfl
  | jneLit | jneReg | jeqLit | jeqReg | jltLit | jltReg | jgtLit | jgtReg | jleLit | jleReg | jgeLit | jgeReg =>
    cases h; exact jumpIf_devices _ _ _ s
  | movMemReg | movRegPtrReg | movLitOffReg => exact loadTo_devices (complete_next.mp h)
  | pop => exact execPop_devices h
  | ret => exact execRet_devices h
  | hlt | unknownOpcode => cases h; rfl

/-- No instruction changes the region list. -/
theorem exec_next_regions {i : Instr} {s t : State} (h : exec i s = .next t) : t.regions = s.regions := by
  by_cases hi : i = .hlt
  · subst hi
    cases h
    rfl
  · exact (exec_next_keeps hi h).regions

theorem State.ramByte?_congr {s t : State} (hg : t.regions = s.regions) (hd : t.devices = s.devices) (a : Nat) :
    t.ramByte? a = s.ramByte? a := by
  simp [State.ramByte?, State.locate, hg, State.ramCell?_congr hd]

/-- Settles O23: what RAM reads as depends on the devices and the regions alone, which such an instruction keeps. -/
theorem memoryChangesOnlyByStores : Obligations.MemoryChangesOnlyByStores := by
  intro i s t hi h
  have hd : t.devices = s.devices := exec_next_devices hi h
  exact ⟨State.ramCell?_congr hd, State.ramByte?_congr (exec_next_regions h) hd⟩

/-! ## The errors of the bus (R54, R61)

Whatever fails in a step fails for the map and the device sizes that the step began with. -/

/-- An access that fails in the map of `s`: at an address that no region contains, or at a local address of a RAM device
that has no byte there or none at the next place. -/
inductive BusError (s : State) : FatalError → Prop
  | unmapped {a : Nat} (h : s.locate a = none) : BusError s (.addressError a)
  | beyond {a d x size : Nat} (h : s.locate a = some (d, x)) (hd : deviceSize? (s.device d) = some size)
      (hx : size ≤ x + 1) : BusError s (.deviceRangeError x)

/-- Accesses change neither the map nor the sizes. -/
theorem BusError.of_keeps {s t : State} {e : FatalError} (k : Keeps s t) (h : BusError t e) : BusError s e := by
  cases h with
  | unmapped h => exact .unmapped (k.locate _ ▸ h)
  | beyond h hd hx => exact .beyond (k.locate _ ▸ h) (k.size _ ▸ hd) hx

/-- Whatever error a sequence of accesses raises is one of the bus in the map of `s`. -/
def RaisesBusErrors {α : Type} (s : State) (x : Access α) : Prop := ∀ e, x = .error e → BusError s e

section
variable {α β : Type} {s t : State}

theorem RaisesBusErrors.ok (a : α) : RaisesBusErrors s (.ok a) := fun _ h => by cases h

theorem RaisesBusErrors.of_keeps {x : Access α} (k : Keeps s t) (h : RaisesBusErrors t x) : RaisesBusErrors s x :=
  fun e he => (h e he).of_keeps k

/-- A sequence whose second part starts in a state that keeps the map and the sizes. -/
theorem RaisesBusErrors.bind {x : Access α} {f : α → Access β} (state : α → State) (hx : RaisesBusErrors s x)
    (hk : ∀ a, x = .ok a → Keeps s (state a)) (hf : ∀ a, RaisesBusErrors (state a) (f a)) :
    RaisesBusErrors s (x >>= f) := by
  intro e he
  obtain he | ⟨a, ha, he⟩ := Access.bind_error.mp he
  · exact hx e he
  · exact ((hf a) e he).of_keeps (hk a ha)

/-- Accesses, then what cannot fail. -/
theorem RaisesBusErrors.bind_pure {x : Access α} {f : α → β} (hx : RaisesBusErrors s x) :
    RaisesBusErrors s (x >>= fun a => pure (f a)) := by
  intro e he
  obtain he | ⟨a, _, he⟩ := Access.bind_error.mp he
  · exact hx e he
  · cases he

end

/-! ### The accesses and what is made of them -/

theorem memRead8_raises (a : Nat) (s : State) : RaisesBusErrors s (memRead8 a s) := by
  intro e he
  cases hl : s.locate a with
  | none =>
    cases (memRead8_unmapped hl).symm.trans he
    exact .unmapped hl
  | some p =>
    obtain ⟨rfl, size, cells, hd, hx⟩ := deviceGet8_error ((memRead8_routed hl).symm.trans he)
    exact .beyond hl (by rw [hd]; rfl) (Nat.le_succ_of_le hx)

theorem memRead16_raises (a : Nat) (s : State) : RaisesBusErrors s (memRead16 a s) := by
  intro e he
  cases hl : s.locate a with
  | none =>
    cases (memRead16_unmapped hl).symm.trans he
    exact .unmapped hl
  | some p =>
    obtain ⟨rfl, size, cells, hd, hx⟩ := deviceGet16_error ((memRead16_routed hl).symm.trans he)
    exact .beyond hl (by rw [hd]; rfl) hx

theorem memWrite16_raises (a : Nat) (v : Word) (s : State) : RaisesBusErrors s (memWrite16 a v s) := by
  intro e he
  cases hl : s.locate a with
  | none =>
    cases (memWrite16_unmapped hl v).symm.trans he
    exact .unmapped hl
  | some p =>
    obtain ⟨rfl, size, cells, hd, hx⟩ := deviceSet16_error ((memWrite16_routed hl v).symm.trans he)
    exact .beyond hl (by rw [hd]; rfl) hx

theorem fetch8_raises (s : State) : RaisesBusErrors s (fetch8 s) := .bind_pure (memRead8_raises _ s)

theorem fetch16_raises (s : State) : RaisesBusErrors s (fetch16 s) := .bind_pure (memRead16_raises _ s)

theorem fetchFields_raises (fs : List Field) (s : State) : RaisesBusErrors s (fetchFields fs s) := by
  induction fs generalizing s with
  | nil => exact .ok _
  | cons f fs ih =>
    cases f with
    | reg => exact .bind Prod.snd (fetch8_raises s) (fun _ h => (fetch8_fetched h).keeps) fun p => .bind_pure (ih p.2)
    | word => exact .bind Prod.snd (fetch16_raises s) (fun _ h => (fetch16_fetched h).keeps) fun p => .bind_pure (ih p.2)

theorem fetchBytes_raises (s : State) : RaisesBusErrors s (fetchBytes s) :=
  .bind Prod.snd (fetch8_raises s) (fun _ h => (fetch8_fetched h).keeps) fun p => .bind_pure (fetchFields_raises _ p.2)

theorem push_raises (v : Word) (s : State) : RaisesBusErrors s (push v s) := .bind_pure (memWrite16_raises _ v s)

theorem pop_raises (s : State) : RaisesBusErrors s (pop s) :=
  (memRead16_raises _ _).of_keeps ((Keeps.setReg s _ _).trans (Keeps.setSfs _ _))

theorem pushRegs_raises (rs : List Reg) (s : State) : RaisesBusErrors s (pushRegs rs s) := by
  induction rs generalizing s with
  | nil => exact .ok _
  | cons r rs ih => exact .bind id (push_raises _ s) (fun _ h => (push_keeps h).1) ih

theorem popRegs_raises (rs : List Reg) (s : State) : RaisesBusErrors s (popRegs rs s) := by
  induction rs generalizing s with
  | nil => exact .ok _
  | cons r rs ih =>
    exact .bind Prod.snd (pop_raises s) (fun _ h => (pop_ok h).1) fun p => (ih _).of_keeps (Keeps.setReg p.2 r p.1)

theorem discardWords_raises (n : Nat) (s : State) : RaisesBusErrors s (discardWords n s) := by
  induction n generalizing s with
  | zero => exact .ok _
  | succ n ih => exact .bind Prod.snd (pop_raises s) (fun _ h => (pop_ok h).1) fun p => ih p.2

theorem pushFrame_raises (s : State) : RaisesBusErrors s (pushFrame s) := by
  refine .bind id (pushRegs_raises _ s) (fun _ h => (pushRegs_keeps (by decide) h).1) fun s₁ => ?_
  refine .bind id (push_raises _ s₁) (fun _ h => (push_keeps h).1) fun s₂ => ?_
  exact .bind_pure (push_raises _ s₂)

theorem popFrame_raises (s : State) : RaisesBusErrors s (popFrame s) := by
  refine .of_keeps (Keeps.setReg s .sp (s.reg .fp)) ?_
  refine .bind Prod.snd (pop_raises _) (fun _ h => (pop_ok h).1) fun ⟨marker, s₁⟩ => ?_
  refine .of_keeps (Keeps.setSfs s₁ marker) ?_
  refine .bind Prod.snd (pop_raises _) (fun _ h => (pop_ok h).1) fun ⟨ret, s₂⟩ => ?_
  refine .of_keeps (Keeps.setReg s₂ .ip ret) ?_
  refine .bind id (popRegs_raises _ _) (fun _ h => (popRegs_ok (by decide) h).1) fun s₃ => ?_
  refine .bind Prod.snd (pop_raises s₃) (fun _ h => (pop_ok h).1) fun ⟨nArgs, s₄⟩ => ?_
  exact .bind_pure (discardWords_raises _ s₄)

theorem loadTo_raises (a : Nat) (rd : Reg) (s : State) : RaisesBusErrors s (loadTo a rd s) :=
  .bind_pure (memRead16_raises a s)

/-! ### The fault of an instruction and of a step -/

/-- If the outcome is a fault, it is an error of the bus in the map of `s`. -/
def FaultsByBus (s : State) (o : Outcome State Fault Refusal) : Prop :=
  ∀ f, o = .fault f → ∃ e, f = .fatal e ∧ BusError s e

theorem FaultsByBus.next (s t : State) : FaultsByBus s (.next t) := fun _ h => by cases h

theorem FaultsByBus.complete {s : State} {x : Access State} (h : RaisesBusErrors s x) :
    FaultsByBus s (complete x) := by
  intro f hf
  obtain ⟨e, he, rfl⟩ := complete_fault.mp hf
  exact ⟨e, rfl, h e he⟩

/-- An instruction faults by its accesses alone. -/
theorem exec_faultsByBus (i : Instr) (s : State) : FaultsByBus s (exec i s) := by
  cases i with
  | movLitReg | movRegReg => exact .next s _
  | addRegReg | addLitReg | subRegReg | subLitReg | mulRegReg | mulLitReg => exact .next s _
  | incReg | decReg | notReg => exact .next s _
  | andRegLit | andRegReg | orRegLit | orRegReg | xorRegLit | xorRegReg => exact .next s _
  | lsfRegLit | lsfRegReg | rsfRegLit | rsfRegReg => exact .next s _
  | jneLit | jneReg | jeqLit | jeqReg | jltLit | jltReg | jgtLit | jgtReg | jleLit | jleReg | jgeLit | jgeReg =>
    exact .next s _
  | movMemReg | movRegPtrReg | movLitOffReg => exact .complete (loadTo_raises _ _ s)
  | movRegMem | movLitMem => exact .complete (memWrite16_raises _ _ s)
  | pshLit | pshReg => exact .complete (push_raises _ s)
  | pop => exact .complete (.bind_pure (pop_raises s))
  | calLit | calReg => exact .complete (.bind_pure (pushFrame_raises s))
  | ret => exact .complete (popFrame_raises s)
  | hlt | unknownOpcode => exact .next s _

/-- A running step faults by its fetches or by the instruction's accesses, in the map it began with. -/
theorem step_faultsByBus {s : State} (hr : s.run = .running) : FaultsByBus s (step s) := by
  intro f hf
  obtain ⟨e, he, hs⟩ | ⟨bytes, u, i, hfetch, _, hs⟩ := step_cases hr
  · cases hs.symm.trans hf
    exact ⟨e, rfl, fetchBytes_raises s e he⟩
  · obtain ⟨e, rfl, he⟩ := exec_faultsByBus i u f (hs.symm.trans hf)
    exact ⟨e, rfl, he.of_keeps (fetchBytes_ok hfetch).1.keeps⟩

/-! ### The reference map (R72) -/

/-- The whole routing of the reference map. -/
theorem State.inReferenceMap.locate_eq {s : State} (h : s.inReferenceMap) (a : Nat) :
    s.locate a = if a ≤ 0xFFFF then some (0, a) else none := by
  obtain ⟨hr, _⟩ := h
  by_cases ha : a ≤ 0xFFFF
  · simp [State.locate, hr, resolve, referenceRegions, regionContains, localAddress, addrSpace, ha]
  · simp [State.locate, hr, resolve, referenceRegions, regionContains, addrSpace, ha]

/-- In the reference map an address that is routed at all is routed to itself in device 0. -/
theorem State.inReferenceMap.locate_some {s : State} (h : s.inReferenceMap) {a d x : Nat}
    (hl : s.locate a = some (d, x)) : d = 0 ∧ x = a ∧ a ≤ 0xFFFF := by
  rw [h.locate_eq a] at hl
  split at hl
  · rename_i ha
    cases hl
    exact ⟨rfl, rfl, ha⟩
  · cases hl

/-- The one address of the reference map whose next byte its RAM lacks is the last. -/
theorem State.inReferenceMap.range_error {s : State} (h : s.inReferenceMap) {x : Nat}
    (he : BusError s (.deviceRangeError x)) : x = 0xFFFF := by
  cases he with
  | beyond hl hd hx =>
    obtain ⟨rfl, rfl, hle⟩ := h.locate_some hl
    obtain ⟨_, cells, hram⟩ := h
    rw [hram] at hd
    cases hd
    unfold addrSpace at hx
    omega

/-- Settles O14: a range error of a running step is one of the bus, and in the reference map that leaves one address. -/
theorem referenceMapRangeErrors : Obligations.ReferenceMapRangeErrors := by
  intro s x hs hr h
  obtain ⟨e, hf, he⟩ := step_faultsByBus hr _ h
  cases hf
  exact hs.range_error he

end Sys2Proof.Machine
end

section
/-! PROOFS for 30_encoding.md: the opcode map both ways (R97, R99), what each format reads from the bytes it writes and
writes for the bytes it reads (R93 to R96), the lengths of instructions (R100), and the fetches of a step (R101 to
R103). -/

namespace Sys2Proof

/-! ## The opcode map both ways (R97) -/

section
variable {m : OpcodeMap} {op : Op} {b : Byte}

/-- In a map that gives no byte to two instructions, a byte leads to the instruction it is listed with. -/
theorem OpcodeMap.opOf?_of_mem (hm : (m.map Prod.snd).Nodup) (h : (op, b) ∈ m) : m.opOf? b = some op := by
  induction m with
  | nil => cases h
  | cons p m ih =>
    obtain ⟨op', b'⟩ := p
    obtain ⟨hnew, hm⟩ := List.nodup_cons.mp hm
    rcases List.mem_cons.mp h with e | h
    · cases e
      simp [OpcodeMap.opOf?]
    · have hne : b' ≠ b := fun e => hnew (List.mem_map.mpr ⟨_, h, e.symm⟩)
      simpa [OpcodeMap.opOf?, hne] using ih hm h

/-- In a map that lists no instruction twice, an instruction leads to the byte it is listed with. -/
theorem OpcodeMap.byteOf_of_mem (hm : (m.map Prod.fst).Nodup) (h : (op, b) ∈ m) : m.byteOf op = b := by
  induction m with
  | nil => cases h
  | cons p m ih =>
    obtain ⟨op', b'⟩ := p
    obtain ⟨hnew, hm⟩ := List.nodup_cons.mp hm
    rcases List.mem_cons.mp h with e | h
    · cases e
      simp [OpcodeMap.byteOf]
    · have hne : op' ≠ op := fun e => hnew (List.mem_map.mpr ⟨_, h, e.symm⟩)
      simpa [OpcodeMap.byteOf, hne] using ih hm h

/-- Under a valid map the byte of an instruction leads back to the instruction. -/
theorem OpcodeMap.Valid.opOf?_byteOf (h : m.Valid) (op : Op) : m.opOf? (m.byteOf op) = some op := by
  obtain ⟨hall, hnodup⟩ := h
  exact OpcodeMap.opOf?_of_mem hnodup (OpcodeMap.byteOf_mem (hall op))

theorem decodeWith_of_op (h : m.opOf? b = some op) (bs : List Byte) :
    decodeWith m (b :: bs) = decodeOperands op bs := by
  simp [decodeWith, h]

theorem decodeWith_of_unknown (h : m.opOf? b = none) (bs : List Byte) :
    decodeWith m (b :: bs) = .ok (.unknownOpcode b, bs) := by
  simp [decodeWith, h]

theorem OpcodeMap.fieldsOf_of_op (h : m.opOf? b = some op) : m.fieldsOf b = op.format.fields := by
  simp [OpcodeMap.fieldsOf, h]

theorem OpcodeMap.fieldsOf_of_unknown (h : m.opOf? b = none) : m.fieldsOf b = [] := by
  simp [OpcodeMap.fieldsOf, h]

/-- A byte is one that the map assigns to no instruction when its number is none of the map's. -/
theorem OpcodeMap.unassigned_iff : m.unassigned b = true ↔ b.toNat ∉ m.map fun p => p.2.toNat := by
  simp [OpcodeMap.unassigned, BitVec.toNat_inj]

end

/-! ## Decoding what the encoder writes (R95, R96, R100)

One lemma for each format with operands: it reads its operands back from their bytes and leaves what follows. -/

section
variable {op : Op} {w w' : Word} {r r' : Reg}

theorem takeR_encoded {k : Reg → Instr} (rest : List Byte) : takeR op k ([regByte r] ++ rest) = .ok (k r, rest) := by
  simp [takeR]

theorem takeL_encoded {k : Word → Instr} (rest : List Byte) : takeL op k (wordBytes w ++ rest) = .ok (k w, rest) := by
  simp [takeL, wordBytes]

theorem takeRR_encoded {k : Reg → Reg → Instr} (rest : List Byte) :
    takeRR op k ([regByte r] ++ [regByte r'] ++ rest) = .ok (k r r', rest) := by
  simp [takeRR]

theorem takeLR_encoded {k : Word → Reg → Instr} (rest : List Byte) :
    takeLR op k (wordBytes w ++ [regByte r] ++ rest) = .ok (k w r, rest) := by
  simp [takeLR, wordBytes]

theorem takeRL_encoded {k : Reg → Word → Instr} (rest : List Byte) :
    takeRL op k ([regByte r] ++ wordBytes w ++ rest) = .ok (k r w, rest) := by
  simp [takeRL, wordBytes]

theorem takeLL_encoded {k : Word → Word → Instr} (rest : List Byte) :
    takeLL op k (wordBytes w ++ wordBytes w' ++ rest) = .ok (k w w', rest) := by
  simp [takeLL, wordBytes]

theorem takeLRR_encoded {k : Word → Reg → Reg → Instr} (rest : List Byte) :
    takeLRR op k (wordBytes w ++ [regByte r] ++ [regByte r'] ++ rest) = .ok (k w r r', rest) := by
  simp [takeLRR, wordBytes]

end

/-- The encoder writes an instruction as the byte of its operation and operand bytes that decode to it, or as the one
byte of an unknown opcode. -/
theorem encodeWith_cases (m : OpcodeMap) (i : Instr) :
    (∃ op bs, encodeWith m i = m.byteOf op :: bs ∧ ∀ rest, decodeOperands op (bs ++ rest) = .ok (i, rest)) ∨
      ∃ b, i = .unknownOpcode b := by
  cases i with
  | ret | hlt => exact .inl ⟨_, _, rfl, fun _ => rfl⟩
  | incReg | decReg | notReg | pshReg | pop | calReg =>
    exact .inl ⟨_, _, rfl, fun _ => by rw [decodeOperands, takeR_encoded]⟩
  | pshLit | calLit =>
    exact .inl ⟨_, _, rfl, fun _ => by rw [decodeOperands, takeL_encoded]⟩
  | movRegReg | movRegPtrReg | addRegReg | subRegReg | mulRegReg | andRegReg | orRegReg | xorRegReg | lsfRegReg
  | rsfRegReg =>
    exact .inl ⟨_, _, rfl, fun _ => by rw [decodeOperands, takeRR_encoded]⟩
  | movLitReg | movMemReg | addLitReg | subLitReg | mulLitReg =>
    exact .inl ⟨_, _, rfl, fun _ => by rw [decodeOperands, takeLR_encoded]⟩
  | movRegMem | andRegLit | orRegLit | xorRegLit | lsfRegLit | rsfRegLit | jneReg | jeqReg | jltReg | jgtReg | jleReg
  | jgeReg =>
    exact .inl ⟨_, _, rfl, fun _ => by rw [decodeOperands, takeRL_encoded]⟩
  | movLitMem | jneLit | jeqLit | jltLit | jgtLit | jleLit | jgeLit =>
    exact .inl ⟨_, _, rfl, fun _ => by rw [decodeOperands, takeLL_encoded]⟩
  | movLitOffReg =>
    exact .inl ⟨_, _, rfl, fun _ => by rw [decodeOperands, takeLRR_encoded]⟩
  | unknownOpcode b => exact .inr ⟨b, rfl⟩

/-- Settles O1: the opcode byte leads back to the operation, and each format reads its operands back. -/
theorem decodeAfterEncodeIsIdentity : Obligations.DecodeAfterEncodeIsIdentity := by
  intro m i rest hm hi
  obtain ⟨op, bs, henc, hdec⟩ | ⟨b, rfl⟩ := encodeWith_cases m i
  · rw [henc, List.cons_append, decodeWith_of_op (hm.opOf?_byteOf op), hdec]
  · exact decodeWith_of_unknown (OpcodeMap.opOf?_eq_none.mpr hi) rest

/-! ## Encoding what the decoder reads (R93, R94)

One lemma for each format with operands: the bytes it uses up, made canonical, are those of the operands it reads. -/

/-- The register that a byte selects has the index of the byte modulo 12. -/
theorem index_regOfByte (b : Byte) : (regOfByte b).index = b.toNat % 12 :=
  Reg.index_ofIndex (Nat.mod_lt _ (by decide))

/-- The canonical byte of the register that a byte selects. -/
theorem regByte_regOfByte (b : Byte) : regByte (regOfByte b) = BitVec.ofNat 8 (b.toNat % 12) := by
  rw [regByte, index_regOfByte]

section
variable {op : Op} {bs rest : List Byte} {i : Instr}

theorem takeR_used {k : Reg → Instr} (h : takeR op k bs = .ok (i, rest)) :
    ∃ used r, bs = used ++ rest ∧ i = k r ∧ canonicalFields [.reg] used = [regByte r] :=
  match bs, h with
  | x :: _, rfl => ⟨[x], _, rfl, rfl, by simp [canonicalFields, regByte_regOfByte]⟩

theorem takeL_used {k : Word → Instr} (h : takeL op k bs = .ok (i, rest)) :
    ∃ used w, bs = used ++ rest ∧ i = k w ∧ canonicalFields [.word] used = wordBytes w :=
  match bs, h with
  | x :: y :: _, rfl => ⟨[x, y], _, rfl, rfl, by simp [canonicalFields, wordBytes]⟩

theorem takeRR_used {k : Reg → Reg → Instr} (h : takeRR op k bs = .ok (i, rest)) :
    ∃ used r r', bs = used ++ rest ∧ i = k r r' ∧
      canonicalFields [.reg, .reg] used = [regByte r] ++ [regByte r'] :=
  match bs, h with
  | x :: y :: _, rfl => ⟨[x, y], _, _, rfl, rfl, by simp [canonicalFields, regByte_regOfByte]⟩

theorem takeLR_used {k : Word → Reg → Instr} (h : takeLR op k bs = .ok (i, rest)) :
    ∃ used w r, bs = used ++ rest ∧ i = k w r ∧
      canonicalFields [.word, .reg] used = wordBytes w ++ [regByte r] :=
  match bs, h with
  | x :: y :: z :: _, rfl => ⟨[x, y, z], _, _, rfl, rfl, by simp [canonicalFields, regByte_regOfByte, wordBytes]⟩

theorem takeRL_used {k : Reg → Word → Instr} (h : takeRL op k bs = .ok (i, rest)) :
    ∃ used r w, bs = used ++ rest ∧ i = k r w ∧
      canonicalFields [.reg, .word] used = [regByte r] ++ wordBytes w :=
  match bs, h with
  | x :: y :: z :: _, rfl => ⟨[x, y, z], _, _, rfl, rfl, by simp [canonicalFields, regByte_regOfByte, wordBytes]⟩

theorem takeLL_used {k : Word → Word → Instr} (h : takeLL op k bs = .ok (i, rest)) :
    ∃ used w w', bs = used ++ rest ∧ i = k w w' ∧
      canonicalFields [.word, .word] used = wordBytes w ++ wordBytes w' :=
  match bs, h with
  | x :: y :: z :: u :: _, rfl => ⟨[x, y, z, u], _, _, rfl, rfl, by simp [canonicalFields, wordBytes]⟩

theorem takeLRR_used {k : Word → Reg → Reg → Instr} (h : takeLRR op k bs = .ok (i, rest)) :
    ∃ used w r r', bs = used ++ rest ∧ i = k w r r' ∧
      canonicalFields [.word, .reg, .reg] used = wordBytes w ++ [regByte r] ++ [regByte r'] :=
  match bs, h with
  | x :: y :: z :: u :: _, rfl =>
    ⟨[x, y, z, u], _, _, _, rfl, rfl, by simp [canonicalFields, regByte_regOfByte, wordBytes]⟩

/-- The instruction read from operand bytes is well formed, and its encoding is the byte of its operation and the
canonical form of the operand bytes used up. -/
theorem decodeOperands_used (m : OpcodeMap) (h : decodeOperands op bs = .ok (i, rest)) :
    i.wellFormedIn m = true ∧ ∃ used, bs = used ++ rest ∧
      encodeWith m i = m.byteOf op :: canonicalFields op.format.fields used := by
  cases op with
  | ret | hlt => cases h; exact ⟨rfl, [], rfl, rfl⟩
  | incReg | decReg | notReg | pshReg | pop | calReg =>
    obtain ⟨used, r, hbs, rfl, hc⟩ := takeR_used h
    exact ⟨rfl, used, hbs, congrArg (_ :: ·) hc.symm⟩
  | pshLit | calLit =>
    obtain ⟨used, w, hbs, rfl, hc⟩ := takeL_used h
    exact ⟨rfl, used, hbs, congrArg (_ :: ·) hc.symm⟩
  | movRegReg | movRegPtrReg | addRegReg | subRegReg | mulRegReg | andRegReg | orRegReg | xorRegReg | lsfRegReg
  | rsfRegReg =>
    obtain ⟨used, r, r', hbs, rfl, hc⟩ := takeRR_used h
    exact ⟨rfl, used, hbs, congrArg (_ :: ·) hc.symm⟩
  | movLitReg | movMemReg | addLitReg | subLitReg | mulLitReg =>
    obtain ⟨used, w, r, hbs, rfl, hc⟩ := takeLR_used h
    exact ⟨rfl, used, hbs, congrArg (_ :: ·) hc.symm⟩
  | movRegMem | andRegLit | orRegLit | xorRegLit | lsfRegLit | rsfRegLit | jneReg | jeqReg | jltReg | jgtReg | jleReg
  | jgeReg =>
    obtain ⟨used, r, w, hbs, rfl, hc⟩ := takeRL_used h
    exact ⟨rfl, used, hbs, congrArg (_ :: ·) hc.symm⟩
  | movLitMem | jneLit | jeqLit | jltLit | jgtLit | jleLit | jgeLit =>
    obtain ⟨used, w, w', hbs, rfl, hc⟩ := takeLL_used h
    exact ⟨rfl, used, hbs, congrArg (_ :: ·) hc.symm⟩
  | movLitOffReg =>
    obtain ⟨used, w, r, r', hbs, rfl, hc⟩ := takeLRR_used h
    exact ⟨rfl, used, hbs, congrArg (_ :: ·) hc.symm⟩

end

/-- The opcode map of this hardware lists no instruction twice. -/
theorem opcodeMap_ops_nodup : (config.opcodeMap.map Prod.fst).Nodup := by
  decide

/-- The byte that led to an instruction is the byte the encoder writes for it. -/
theorem byteOf_of_opOf? {b : Byte} {op : Op} (h : config.opcodeMap.opOf? b = some op) :
    config.opcodeMap.byteOf op = b :=
  OpcodeMap.byteOf_of_mem opcodeMap_ops_nodup (OpcodeMap.opOf?_mem h)

/-- Settles O2: the opcode byte is the encoder's own, and each format's operand bytes are used up and made canonical. -/
theorem encodeAfterDecodeIsCanonical : Obligations.EncodeAfterDecodeIsCanonical := by
  intro bs i rest h
  cases bs with
  | nil => cases h
  | cons b bs =>
    cases hop : config.opcodeMap.opOf? b with
    | none =>
      cases (decode_of_unknown hop bs).symm.trans h
      refine ⟨OpcodeMap.opOf?_eq_none.mp hop, [b], rfl, ?_⟩
      rw [canonicalBytes, OpcodeMap.fieldsOf_of_unknown hop]
      rfl
    | some op =>
      obtain ⟨hwf, used, rfl, henc⟩ := decodeOperands_used config.opcodeMap ((decode_of_op hop bs).symm.trans h)
      refine ⟨hwf, b :: used, rfl, ?_⟩
      rw [encode, henc, byteOf_of_opOf? hop, canonicalBytes, OpcodeMap.fieldsOf_of_op hop]

/-- What is decoded is well formed. -/
theorem wellFormed_of_decode {bs rest : List Byte} {i : Instr} (h : decode bs = .ok (i, rest)) :
    i.wellFormed = true :=
  (encodeAfterDecodeIsCanonical bs i rest h).1

/-! ## Lengths (R90, R95, R100) -/

/-- No format has more than four operand bytes. -/
theorem Format.operandBytes_le (f : Format) : (f.fields.map Field.size).sum ≤ 4 := by
  cases f <;> decide

theorem opcodeLength_pos (b : Byte) : 1 ≤ opcodeLength b := Nat.le_add_right 1 _

theorem opcodeLength_le (b : Byte) : opcodeLength b ≤ 5 := by
  cases hop : config.opcodeMap.opOf? b with
  | none => simp [opcodeLength_of_unknown hop]
  | some op =>
    rw [opcodeLength_of_op hop]
    exact Nat.succ_le_succ op.format.operandBytes_le

/-- Settles O4: the decoder drops as many bytes as the opcode byte asks for. -/
theorem everyByteSequenceDecodes : Obligations.EveryByteSequenceDecodes := by
  intro b bs h
  obtain ⟨i, hi⟩ := decode_drop h
  refine ⟨⟨i, _, hi, ?_⟩, opcodeLength_pos b, opcodeLength_le b, fun hu => ?_⟩
  · rw [List.length_drop]
    omega
  · exact opcodeLength_of_unknown (OpcodeMap.opOf?_eq_none.mpr hu)

/-! ## The opcode map of this hardware (R93, R96, R97, R99) -/

/-- Settles O3: the register is the one of the index, and INC_REG takes every register byte. -/
theorem registerByteSelectsModuloTwelve : Obligations.RegisterByteSelectsModuloTwelve :=
  fun b => ⟨index_regOfByte b, fun rest => decode_of_op (op := .incReg) rfl (b :: rest)⟩

/-- The opcode map gives each of the 45 instructions a byte and no byte to two of them. -/
theorem opcodeMap_valid : config.opcodeMap.Valid := by
  refine ⟨fun op => ?_, by decide⟩
  cases op <;> decide

/-- The numbers of the opcode map, family by family (30_encoding.md R97). -/
theorem opcodeMap_numbers : config.opcodeMap.map (fun p => p.2.toNat) =
    [0x10, 0x11, 0x12, 0x13, 0x1B, 0x1C, 0x1D, 0x14, 0x3F, 0x1F, 0x16, 0x21, 0x20, 0x35, 0x36,
      0x2E, 0x2F, 0x30, 0x31, 0x32, 0x33, 0x34, 0x26, 0x27, 0x2A, 0x2B,
      0x15, 0x40, 0x41, 0x3E, 0x43, 0x42, 0x45, 0x44, 0x47, 0x46, 0x49, 0x48,
      0x17, 0x18, 0x1A, 0x5E, 0x5F, 0x60, 0xFF] := rfl

/-- Settles O5: the map lists 45 bytes, and what is left of 0x00 to 0xFF are the listed ranges. -/
theorem unknownOpcodesAreTheListed211 : Obligations.UnknownOpcodesAreTheListed211 := by
  refine ⟨opcodeMap_valid, rfl, fun b => ?_⟩
  have hb := b.isLt
  simp only [OpcodeMap.unassigned_iff, opcodeMap_numbers, List.mem_cons, List.not_mem_nil, not_or,
    not_false_eq_true, and_true]
  omega

/-- Settles O6: each opcode byte leads to its operation, whose format takes the operands in stream order. -/
theorem opcodeTableDecodes : Obligations.OpcodeTableDecodes := by
  intro a b h l h' l' rest
  and_intros <;> exact (decode_of_op rfl _).trans rfl

/-- Settles O7: the words are decoded by evaluation. -/
theorem writtenOutWordsDecode : Obligations.WrittenOutWordsDecode :=
  ⟨rfl, rfl, rfl, rfl, rfl, rfl, rfl, rfl, rfl⟩

namespace Machine

/-! ## Fetches (R101) -/

section
variable {s t : State}

theorem fetch8_of_read {b : Byte} (h : memRead8 (s.reg .ip).toNat s = .ok (b, t)) :
    fetch8 s = .ok (b, t.setReg .ip (s.reg .ip + 1)) := by
  simp [fetch8, h]

theorem fetch16_of_read {w : Word} (h : memRead16 (s.reg .ip).toNat s = .ok (w, t)) :
    fetch16 s = .ok (w, t.setReg .ip (s.reg .ip + 2)) := by
  simp [fetch16, h]

theorem fetch8_of_error {e : FatalError} (h : memRead8 (s.reg .ip).toNat s = .error e) : fetch8 s = .error e := by
  simp [fetch8, h]

theorem fetch16_of_error {e : FatalError} (h : memRead16 (s.reg .ip).toNat s = .error e) :
    fetch16 s = .error e := by
  simp [fetch16, h]

/-- The fetch of an instruction where RAM holds its bytes: it brings them and moves `ip` past them. -/
theorem fetchBytes_ram {bytes : List Byte} (h : s.holdsCode bytes) :
    fetchBytes s = .ok (bytes, s.setReg .ip (s.reg .ip + BitVec.ofNat 16 bytes.length)) := by
  cases bytes with
  | nil => cases h
  | cons b bs =>
    obtain ⟨hop, hfields⟩ := h
    have hrest := fetchFields_ram (s := s.setReg .ip (s.reg .ip + 1)) (by simpa using hfields)
    rw [State.setReg_setReg, State.reg_setReg_same, advance_one] at hrest
    simp only [fetchBytes, fetch8_ram hop, Access.ok_bind, hrest]
    rfl

end

/-- Settles O16: a fetch is its bus read, its error or its answer with `ip` moved on. -/
theorem fetchPrimitives : Obligations.FetchPrimitives :=
  fun _ => ⟨fun b _ h => ⟨fetch8_of_read h, index_regOfByte b⟩, fun _ _ => fetch16_of_read,
    fun _ => fetch8_of_error, fun _ => fetch16_of_error⟩

/-! ## The step (R102, R103) -/

/-- Settles O8: the fetches bring the bytes that RAM holds, and the step executes what they decode to. -/
theorem stepRunsTheDecodedInstruction : Obligations.StepRunsTheDecodedInstruction :=
  fun _ _ _ hr hcode hdec => step_fetched hr (fetchBytes_ram hcode) hdec

/-- Settles O9: a running step fails in its fetches or executes, and fetches change `ip` and the history alone. -/
theorem stepFetchesThenExecutes : Obligations.StepFetchesThenExecutes := by
  intro s hr
  refine (step_cases hr).imp_right fun ⟨bytes, t, i, hf, hd, hs⟩ => ?_
  obtain ⟨hfetched, _⟩ := fetchBytes_ok hf
  have hk : Keeps s t := hfetched.keeps
  exact ⟨bytes, t, i, hf, hd, wellFormed_of_decode hd, hs, fetchBytes_ip hf, hfetched.reg, hfetched.sfs, hk.run,
    hk.regions, hk.nextToken, hfetched.devices, hk.history⟩

/-- Settles O11: a running step completes or faults, and a step from a terminal state faults. -/
theorem stepIsNeverRefused : Obligations.StepIsNeverRefused := by
  intro s r h
  cases hr : s.run with
  | halted | faulted => simp [step, hr] at h
  | running =>
    obtain ⟨t, hs, _⟩ | ⟨t, hs, _⟩ | ⟨e, hs⟩ := step_outcome hr <;> cases hs.symm.trans h

end Machine

end Sys2Proof
end

section
/-! PROOFS for 40_move.md: a register move is one register write, and where RAM holds the word of a data move, a load
completes as one register write and a store as one stored word. -/

namespace Sys2Proof.Machine

/-! ## Register moves (R121, R122) -/

/-- Settles O37: each answers one register write, with the value read before the write. -/
theorem registerMoves : Obligations.RegisterMoves :=
  fun s rs rd lit =>
    ⟨⟨s.setReg rd lit, rfl, s.onlyRegWritten_setReg rd lit⟩,
      ⟨s.setReg rd (s.reg rs), rfl, s.onlyRegWritten_setReg rd (s.reg rs)⟩⟩

/-! ## Data moves where RAM holds the word (R123 to R127) -/

section
variable {s : State} {a : Nat} {w : Word}

/-- A store whose word RAM holds completes: the word is stored and neither a register nor `sfs` differs. -/
theorem complete_storeAt_ram (h : s.ramWord? a = some w) (v : Word) :
    ∃ t, complete (storeAt a v s) = .next t ∧ s.wordStored t a v ∧ (∀ r, t.reg r = s.reg r) ∧ t.sfs = s.sfs := by
  obtain ⟨t, hwrite, hstored, hregs, hsfs⟩ := memWrite16_ram v h
  exact ⟨t, complete_next.mpr hwrite, hstored, fun r => congrArg (·.get r) hregs, hsfs⟩

/-- A load of a word that RAM holds completes as the write of its register. -/
theorem complete_loadTo_ram (h : s.ramWord? a = some w) (rd : Reg) :
    ∃ t, complete (loadTo a rd s) = .next t ∧ s.onlyRegWritten t rd w :=
  ⟨s.setReg rd w, complete_next.mpr (loadTo_ram h), s.onlyRegWritten_setReg rd w⟩

end

/-- Settles O38: both are one store at the address operand. -/
theorem storesToRam : Obligations.StoresToRam :=
  fun s rs lit _ _ h => ⟨complete_storeAt_ram h (s.reg rs), complete_storeAt_ram h lit⟩

/-- Settles O39: the three are one load, each at its own address; the sum of MOV_LIT_OFF_REG is not reduced (D11). -/
theorem loadsFromRam : Obligations.LoadsFromRam :=
  fun _ rd _ _ _ =>
    ⟨fun habs => complete_loadTo_ram habs rd, fun hptr => complete_loadTo_ram hptr rd,
      fun hoff => complete_loadTo_ram hoff rd⟩

end Sys2Proof.Machine
end

section
/-! PROOFS for 41_arithmetic.md: the word operations are the integer operations reduced modulo 65536, and an arithmetic
instruction is one register write of such a result. -/

namespace Sys2Proof.Machine

/-! ## The word operations as reduced integer operations (R130) -/

theorem addWords_eq_ofNat (a b : Word) : addWords a b = BitVec.ofNat 16 (a.toNat + b.toNat) := by
  simp [addWords, BitVec.ofNat_add]

theorem subWords_eq_ofInt (a b : Word) : subWords a b = BitVec.ofInt 16 (a.toNat - b.toNat : Int) := by
  simp [subWords, sub_eq_add_neg, BitVec.ofInt_add, BitVec.ofInt_neg]

theorem mulWords_eq_ofNat (a b : Word) : mulWords a b = BitVec.ofNat 16 (a.toNat * b.toNat) := by
  simp [mulWords, BitVec.ofNat_mul]

/-! ## One register write of a result (R131 to R138) -/

/-- An instruction that answers one register write changes that register alone. -/
theorem exec_onlyRegWritten {i : Instr} {s : State} {r : Reg} {v w : Word} (hexec : exec i s = .next (s.setReg r v))
    (hvalue : v = w) : ∃ t, exec i s = .next t ∧ s.onlyRegWritten t r w :=
  ⟨s.setReg r v, hexec, hvalue ▸ s.onlyRegWritten_setReg r v⟩

/-- Settles O42: each form writes its operation's word to `acc`; both subtractions take from the register `ra` (D4). -/
theorem arithmeticIntoAcc : Obligations.ArithmeticIntoAcc :=
  fun s ra rb lit =>
    ⟨exec_onlyRegWritten rfl (addWords_eq_ofNat (s.reg ra) (s.reg rb)),
      exec_onlyRegWritten rfl (addWords_eq_ofNat lit (s.reg ra)),
      exec_onlyRegWritten rfl (subWords_eq_ofInt (s.reg ra) (s.reg rb)),
      exec_onlyRegWritten rfl (subWords_eq_ofInt (s.reg ra) lit),
      exec_onlyRegWritten rfl (mulWords_eq_ofNat (s.reg ra) (s.reg rb)),
      exec_onlyRegWritten rfl (mulWords_eq_ofNat lit (s.reg ra))⟩

/-- Settles O43: both write their own register, with the word 1 as the second operand. -/
theorem incrementAndDecrementInPlace : Obligations.IncrementAndDecrementInPlace :=
  fun s ra =>
    ⟨exec_onlyRegWritten rfl (addWords_eq_ofNat (s.reg ra) 1),
      exec_onlyRegWritten rfl (subWords_eq_ofInt (s.reg ra) 1)⟩

end Sys2Proof.Machine
end

section
/-! PROOFS for 42_logic_shift.md: the bits of a bitwise result, the value of a complement and of a shift, and a bitwise
or shift instruction as one write of such a result to its first register. -/

namespace Sys2Proof.Machine

/-! ## The bitwise operations, bit by bit (R140), and the complement (R147) -/

@[simp] theorem getLsbD_andWords (a b : Word) (k : Nat) :
    (andWords a b).getLsbD k = (a.getLsbD k && b.getLsbD k) :=
  BitVec.getLsbD_and

@[simp] theorem getLsbD_orWords (a b : Word) (k : Nat) :
    (orWords a b).getLsbD k = (a.getLsbD k || b.getLsbD k) :=
  BitVec.getLsbD_or

@[simp] theorem getLsbD_xorWords (a b : Word) (k : Nat) :
    (xorWords a b).getLsbD k = (a.getLsbD k ^^ b.getLsbD k) :=
  BitVec.getLsbD_xor

theorem toNat_notWord (a : Word) : (notWord a).toNat = 0xFFFF - a.toNat :=
  BitVec.toNat_not

/-! ## The shifts by the low five bits of the amount (R148, D6) -/

theorem shiftAmount_eq_mod (amount : Word) : shiftAmount amount = amount.toNat % 32 := rfl

theorem toNat_leftShift_mod (v amount : Word) :
    (leftShift v amount).toNat = (v.toNat * 2 ^ (amount.toNat % 32)) % 65536 := by
  rw [toNat_leftShift, shiftAmount_eq_mod]

theorem toNat_rightShift_mod (v amount : Word) :
    (rightShift v amount).toNat = v.toNat / 2 ^ (amount.toNat % 32) := by
  rw [toNat_rightShift, shiftAmount_eq_mod]

/-! ## One register write of a result (R141 to R152) -/

/-- An instruction that answers the write of a word with property `P` changes that register alone, to such a word. -/
theorem exec_onlyRegWritten_with {i : Instr} {s : State} {r : Reg} {v : Word} {P : Word → Prop}
    (hexec : exec i s = .next (s.setReg r v)) (hvalue : P v) :
    ∃ t w, exec i s = .next t ∧ s.onlyRegWritten t r w ∧ P w :=
  have ⟨t, hnext, hwritten⟩ := exec_onlyRegWritten hexec rfl
  ⟨t, v, hnext, hwritten, hvalue⟩

/-- Settles O44: each form writes its operation's word to `ra`, and the bits of that word are the operation on the bits
of the operands. -/
theorem bitwiseInPlace : Obligations.BitwiseInPlace :=
  fun s ra rb lit =>
    ⟨exec_onlyRegWritten_with rfl fun k _ => getLsbD_andWords (s.reg ra) lit k,
      exec_onlyRegWritten_with rfl fun k _ => getLsbD_andWords (s.reg ra) (s.reg rb) k,
      exec_onlyRegWritten_with rfl fun k _ => getLsbD_orWords (s.reg ra) lit k,
      exec_onlyRegWritten_with rfl fun k _ => getLsbD_orWords (s.reg ra) (s.reg rb) k,
      exec_onlyRegWritten_with rfl fun k _ => getLsbD_xorWords (s.reg ra) lit k,
      exec_onlyRegWritten_with rfl fun k _ => getLsbD_xorWords (s.reg ra) (s.reg rb) k,
      exec_onlyRegWritten_with rfl (toNat_notWord (s.reg ra))⟩

/-- Settles O45: each form writes its shift's word to `ra`, by the literal or by `rb` as it was before the write. -/
theorem shiftsInPlace : Obligations.ShiftsInPlace :=
  fun s ra rb amt =>
    ⟨exec_onlyRegWritten_with rfl (toNat_leftShift_mod (s.reg ra) amt),
      exec_onlyRegWritten_with rfl (toNat_leftShift_mod (s.reg ra) (s.reg rb)),
      exec_onlyRegWritten_with rfl (toNat_rightShift_mod (s.reg ra) amt),
      exec_onlyRegWritten_with rfl (toNat_rightShift_mod (s.reg ra) (s.reg rb))⟩

end Sys2Proof.Machine
end

section
/-! PROOFS for 43_control_flow.md: each relation as a relation of the two unsigned values, and a conditional jump as one
write of `ip`, to the target or to what it was. -/

namespace Sys2Proof.Machine

/-! ## The relations, unsigned and with the operand on the left (R160, D5) -/

theorem relationHolds_eq_iff (operand acc : Word) :
    relationHolds .eq operand acc = true ↔ operand.toNat = acc.toNat :=
  beq_iff_eq.trans BitVec.toNat_inj.symm

theorem relationHolds_ne_iff (operand acc : Word) :
    relationHolds .ne operand acc = true ↔ operand.toNat ≠ acc.toNat :=
  bne_iff_ne.trans BitVec.toNat_inj.symm.not

theorem relationHolds_lt_iff (operand acc : Word) :
    relationHolds .lt operand acc = true ↔ operand.toNat < acc.toNat :=
  decide_eq_true_iff

theorem relationHolds_gt_iff (operand acc : Word) :
    relationHolds .gt operand acc = true ↔ operand.toNat > acc.toNat :=
  decide_eq_true_iff

theorem relationHolds_le_iff (operand acc : Word) :
    relationHolds .le operand acc = true ↔ operand.toNat ≤ acc.toNat :=
  decide_eq_true_iff

theorem relationHolds_ge_iff (operand acc : Word) :
    relationHolds .ge operand acc = true ↔ operand.toNat ≥ acc.toNat :=
  decide_eq_true_iff

/-! ## One write of `ip` (R161 to R172) -/

/-- An instruction that answers a conditional jump writes `ip` alone: the target where the relation, read as `P`, holds,
and the next instruction's address, which `ip` holds already, where not. -/
theorem exec_jumpIf_onlyRegWritten {i : Instr} {s : State} {rel : JumpRelation} {operand target : Word} {P : Prop}
    [Decidable P] (hexec : exec i s = .next (jumpIf rel operand target s))
    (hrel : relationHolds rel operand (s.reg .acc) = true ↔ P) :
    ∃ t, exec i s = .next t ∧ s.onlyRegWritten t .ip (if P then target else s.reg .ip) := by
  have hwritten := jumpIf_onlyRegWritten rel operand target s
  simp only [hrel] at hwritten
  exact ⟨_, hexec, hwritten⟩

/-- Settles O46: each form jumps by its own relation of the literal to `acc`. -/
theorem literalJumps : Obligations.LiteralJumps :=
  fun s val _ =>
    ⟨exec_jumpIf_onlyRegWritten rfl (relationHolds_ne_iff val (s.reg .acc)),
      exec_jumpIf_onlyRegWritten rfl (relationHolds_eq_iff val (s.reg .acc)),
      exec_jumpIf_onlyRegWritten rfl (relationHolds_lt_iff val (s.reg .acc)),
      exec_jumpIf_onlyRegWritten rfl (relationHolds_gt_iff val (s.reg .acc)),
      exec_jumpIf_onlyRegWritten rfl (relationHolds_le_iff val (s.reg .acc)),
      exec_jumpIf_onlyRegWritten rfl (relationHolds_ge_iff val (s.reg .acc))⟩

/-- Settles O47: each form jumps by its own relation of the value of `ra` to `acc`; `ra` may be `acc` itself. -/
theorem registerJumps : Obligations.RegisterJumps :=
  fun s ra _ =>
    ⟨exec_jumpIf_onlyRegWritten rfl (relationHolds_ne_iff (s.reg ra) (s.reg .acc)),
      exec_jumpIf_onlyRegWritten rfl (relationHolds_eq_iff (s.reg ra) (s.reg .acc)),
      exec_jumpIf_onlyRegWritten rfl (relationHolds_lt_iff (s.reg ra) (s.reg .acc)),
      exec_jumpIf_onlyRegWritten rfl (relationHolds_gt_iff (s.reg ra) (s.reg .acc)),
      exec_jumpIf_onlyRegWritten rfl (relationHolds_le_iff (s.reg ra) (s.reg .acc)),
      exec_jumpIf_onlyRegWritten rfl (relationHolds_ge_iff (s.reg ra) (s.reg .acc))⟩

end Sys2Proof.Machine
end

section
/-! PROOFS for 44_stack.md: a push is one word write and a pop one word read, each with `sp` and `sfs` moved by 2, so each
ends as its access does, in RAM, at a peripheral or where the word is not served; a pop right after a push undoes it. -/

namespace Sys2Proof.Machine

/-! ## How a push ends (R180, R182, R183) -/

section
variable {s t : State} {v w : Word} {d x : Nat}

/-- A push whose write completes moves `sp` and `sfs` from where they were: the write changes neither. -/
theorem push_of_memWrite16 (h : memWrite16 (pushAddress s) v s = .ok t) :
    push v s = .ok ((t.setReg .sp (s.reg .sp - 2)).setSfs (s.sfs + 2)) := by
  obtain ⟨_, hregs, hsfs⟩ := memWrite16_keeps h
  simp [push, h, State.reg, hregs, hsfs]

theorem push_ram (v : Word) (h : s.ramWord? (pushAddress s) = some w) : ∃ t, push v s = .ok t ∧ s.wordPushed t v := by
  obtain ⟨t, hwrite, hstored, hregs, hsfs⟩ := memWrite16_ram v h
  exact ⟨_, push_of_memWrite16 hwrite, hstored, by simp, fun r hr => by simp [hr, State.reg, hregs], by simp⟩

theorem push_peripheral (v : Word) (hl : s.locate (pushAddress s) = some (d, x)) (hd : s.device d = .peripheral) :
    push v s = .ok (((s.record (.write16 d x v)).setReg .sp (s.reg .sp - 2)).setSfs (s.sfs + 2)) :=
  push_of_memWrite16 ((memWrite16_routed hl v).trans (deviceSet16_peripheral hd v))

theorem push_unserved (v : Word) (h : s.servesWord (pushAddress s) = false) :
    push v s = .error (s.wordError (pushAddress s)) := by
  simp [push, memWrite16_unserved h]

end

/-- Settles O48: both instructions are one push; `ra` is read before `sp` moves. -/
theorem pushesToRam : Obligations.PushesToRam := by
  intro s ra lit w h
  have hpush : ∀ v, ∃ t, complete (push v s) = .next t ∧ s.wordPushed t v :=
    fun v => (push_ram v h).imp fun _ => And.imp_left complete_next.mpr
  exact ⟨hpush lit, hpush (s.reg ra)⟩

/-! ## How a pop ends (R181, R184) -/

section
variable {s t : State} {rd : Reg} {v : Word} {e : FatalError} {d x : Nat}

/-- POP writes its register last, over what the pop left there. -/
theorem exec_pop_of_ok (h : pop s = .ok (v, t)) : exec (.pop rd) s = .next (t.setReg rd v) :=
  complete_next.mpr (Access.bind_ok.mpr ⟨(v, t), h, rfl⟩)

theorem exec_pop_of_error (h : pop s = .error e) : exec (.pop rd) s = .fault (.fatal e) :=
  complete_fault.mpr ⟨e, Access.bind_error.mpr (.inl h), rfl⟩

theorem memRead16_peripheral {a : Nat} (hl : s.locate a = some (d, x)) (hd : s.device d = .peripheral) :
    ∃ v, memRead16 a s = .ok (v, s.record (.read16 d x v)) :=
  (deviceGet16_peripheral hd).imp fun _ => (memRead16_routed hl).trans

/-- The read, and so its event, comes after `sp` and `sfs` have moved. -/
theorem pop_peripheral (hl : s.locate (popAddress s) = some (d, x)) (hd : s.device d = .peripheral) :
    ∃ v, pop s = .ok (v, ((s.setReg .sp (s.reg .sp + 2)).setSfs (s.sfs - 2)).record (.read16 d x v)) :=
  memRead16_peripheral (s := (s.setReg .sp (s.reg .sp + 2)).setSfs (s.sfs - 2)) hl hd

end

/-- Settles O49: the word goes to `rd` after `sp` moved, so with `rd` = `sp` the word stays. -/
theorem popsFromRam : Obligations.PopsFromRam := by
  intro s rd w h
  refine ⟨_, exec_pop_of_ok (pop_ram h), State.reg_setReg_same _ rd w, fun hrd => ?_, fun r hr hsp => ?_,
    rfl, rfl, rfl, rfl, rfl, rfl, fun _ _ => rfl, fun _ => rfl⟩
  · simp [hrd.symm]
  · simp [hr, hsp]

/-- Settles O50: each instruction ends as its push or its pop does. -/
theorem stackAccessesElsewhere : Obligations.StackAccessesElsewhere := by
  refine fun s ra rd lit => ⟨fun d x hl hd => ?_, fun d x hl hd => ?_, fun hunserved => ?_, fun hunserved => ?_⟩
  · exact ⟨complete_next.mpr (push_peripheral lit hl hd), complete_next.mpr (push_peripheral (s.reg ra) hl hd)⟩
  · exact (pop_peripheral hl hd).imp fun _ => exec_pop_of_ok
  · exact ⟨congrArg complete (push_unserved lit hunserved), congrArg complete (push_unserved (s.reg ra) hunserved)⟩
  · exact exec_pop_of_error (pop_unserved hunserved)

/-! ## A push and then a pop (R185) -/

section
variable {s t : State} {v : Word}

/-- After a push, a pop reads where the push wrote: the two moves of `sp` cancel, modulo 65536. -/
theorem popAddress_of_wordPushed (h : s.wordPushed t v) : popAddress t = pushAddress s := by
  obtain ⟨_, hsp, _, _⟩ := h
  simp [popAddress, pushAddress, hsp]

/-- A pop undoes a push: it answers the pushed word, with every register and `sfs` as before the push. -/
theorem pop_of_wordPushed (h : s.wordPushed t v) :
    ∃ u, pop t = .ok (v, u) ∧ (∀ r, u.reg r = s.reg r) ∧ u.sfs = s.sfs := by
  have haddress := popAddress_of_wordPushed h
  obtain ⟨hstored, hsp, hregs, hsfs⟩ := h
  have hword : t.ramWord? (popAddress t) = some v := haddress ▸ hstored.ramWord?
  refine ⟨_, pop_ram hword, fun r => ?_, by simp [hsfs]⟩
  by_cases hr : r = .sp
  · simp [hr, hsp]
  · simp [hr, hregs r hr]

end

/-- Settles O51: the pushed word is where the pop reads, and POP moves it to `rd` last. -/
theorem pushThenPopReturnsTheValue : Obligations.PushThenPopReturnsTheValue := by
  intro s v w h
  obtain ⟨t, hpush, hpushed⟩ := push_ram v h
  obtain ⟨u, hpop, hregs, hsfs⟩ := pop_of_wordPushed hpushed
  refine ⟨⟨t, u, hpush, hpop, hregs, hsfs⟩, fun rd => ?_⟩
  exact ⟨t, u.setReg rd v, complete_next.mpr hpush, exec_pop_of_ok hpop, u.reg_setReg_same rd v,
    fun r hr => (u.reg_setReg_ne v hr).trans (hregs r), hsfs⟩

end Sys2Proof.Machine
end

section
/-! PROOFS for 45_subroutine.md: a call is ten pushes and a return eleven pops and as many as the eleventh counts, so each
completes where its words are served and faults at the first that is not; what a call wrote where RAM holds its frame is
what a return from there reads. -/

namespace Sys2Proof.Machine

/-! ## Accesses to words at a sequence of addresses (60_exceptions.md R219) -/

/-- From the map of `s`, `x` accesses words at `address 0`, `address 1` and so on, at least `least` and at most `most` of
them: it completes where all it may reach are served, and faults at the first not served of those it must reach. -/
structure AccessesWords {α : Type} (s : State) (address : Nat → Nat) (least most : Nat) (x : Access α) : Prop where
  completes : (∀ k, k < most → s.servesWord (address k) = true) → ∃ a, x = .ok a
  faults : ∀ k, k < least → (∀ j, j < k → s.servesWord (address j) = true) → s.servesWord (address k) = false →
    x = .error (s.wordError (address k))

section
variable {α β : Type} {s t : State} {address : Nat → Nat} {least most m : Nat}

theorem AccessesWords.pure (a : α) : AccessesWords s address 0 0 (.ok a : Access α) :=
  ⟨fun _ => ⟨a, rfl⟩, fun _ hk => absurd hk (Nat.not_lt_zero _)⟩

/-- One access, at the first address. -/
theorem AccessesWords.single {x : Access α} (hok : s.servesWord (address 0) = true → ∃ a, x = .ok a)
    (herr : s.servesWord (address 0) = false → x = .error (s.wordError (address 0))) :
    AccessesWords s address 1 1 x := by
  refine ⟨fun h => hok (h 0 Nat.one_pos), fun k hk _ hu => ?_⟩
  obtain rfl : k = 0 := by omega
  exact herr hu

theorem AccessesWords.mono {x : Access α} {n : Nat} (h : AccessesWords s address n n x) (hl : least ≤ n)
    (hm : n ≤ most) : AccessesWords s address least most x :=
  ⟨fun hs => h.completes fun k hk => hs k (by omega), fun k hk => h.faults k (by omega)⟩

/-- What is served and which error is raised depend on the map alone, which accesses keep. -/
theorem AccessesWords.of_keeps {x : Access α} (hk : Keeps s t) (h : AccessesWords t address least most x) :
    AccessesWords s address least most x := by
  obtain ⟨hc, hf⟩ := h
  simp only [hk.servesWord, hk.wordError] at hc hf
  exact ⟨hc, hf⟩

/-- Exactly `m` accesses, then more from a state that keeps the map. -/
theorem AccessesWords.bind {x : Access α} {f : α → Access β} (hx : AccessesWords s address m m x)
    (hf : ∀ a, x = .ok a → AccessesWords s (fun k => address (m + k)) least most (f a)) :
    AccessesWords s address (m + least) (m + most) (x >>= f) := by
  refine ⟨fun hs => ?_, fun k hk hs hu => ?_⟩
  · obtain ⟨a, rfl⟩ := hx.completes fun k hk => hs k (by omega)
    exact (hf a rfl).completes fun k hk => hs (m + k) (by omega)
  · by_cases hkm : k < m
    · rw [hx.faults k hkm hs hu]
      rfl
    · obtain ⟨j, rfl⟩ := Nat.exists_eq_add_of_le (Nat.le_of_not_lt hkm)
      obtain ⟨a, rfl⟩ := hx.completes fun k hk => hs k (by omega)
      exact (hf a rfl).faults j (by omega) (fun i hi => hs (m + i) (by omega)) hu

theorem AccessesWords.bind_pure {x : Access α} {f : α → β} (hx : AccessesWords s address m m x) :
    AccessesWords s address m m (x >>= fun a => Pure.pure (f a)) :=
  hx.bind fun a _ => AccessesWords.pure (f a)

end

/-! ## The ten pushes of a call (R190) -/

section
variable {s t : State}

theorem frameAddress_zero (s : State) : s.frameAddress 0 = pushAddress s := by
  simp [State.frameAddress, pushAddress]

/-- After `m` pushes the next words go where the later words of the frame go. -/
theorem frameAddress_add {m : Nat} (h : t.reg .sp = s.reg .sp - BitVec.ofNat 16 (2 * m)) :
    t.frameAddress = fun k => s.frameAddress (m + k) := by
  funext k
  rw [State.frameAddress, State.frameAddress, h, Nat.mul_add, BitVec.ofNat_add, sub_sub]

theorem push_accesses (v : Word) (s : State) : AccessesWords s s.frameAddress 1 1 (push v s) := by
  refine .single ?_ ?_ <;> rw [frameAddress_zero]
  · exact push_served
  · exact push_unserved v

/-- One push, then pushes from where it leaves `sp`. -/
theorem AccessesWords.push_bind {α : Type} {v : Word} {n : Nat} {f : State → Access α}
    (hf : ∀ t, push v s = .ok t → AccessesWords t t.frameAddress n n (f t)) :
    AccessesWords s s.frameAddress (1 + n) (1 + n) (Machine.push v s >>= f) := by
  refine (push_accesses v s).bind fun t ht => ?_
  obtain ⟨hk, hsp, _, _⟩ := push_keeps ht
  rw [← frameAddress_add (m := 1) hsp]
  exact (hf t ht).of_keeps hk

theorem pushRegs_accesses (rs : List Reg) (s : State) :
    AccessesWords s s.frameAddress rs.length rs.length (pushRegs rs s) := by
  induction rs generalizing s with
  | nil => exact .pure s
  | cons r rs ih =>
    rw [List.length_cons, Nat.add_comm]
    exact .push_bind fun t _ => ih t

theorem pushFrame_accesses (s : State) : AccessesWords s s.frameAddress 10 10 (pushFrame s) := by
  refine (pushRegs_accesses savedRegs s).bind (least := 2) (most := 2) fun t ht => ?_
  obtain ⟨hk, hsp, _, _⟩ := pushRegs_keeps (by decide) ht
  rw [← frameAddress_add hsp]
  exact .of_keeps hk (.push_bind fun u _ => .bind_pure (push_accesses _ u))

end

/-! ## How a call ends (R192, R193) -/

/-- A call to a target: the frame is pushed, then `ip` is written. -/
def callTo (target : Word) (s : State) : Access State := do
  let t ← pushFrame s
  return t.setReg .ip target

theorem exec_calLit (target : Word) (s : State) : exec (.calLit target) s = complete (callTo target s) := rfl

theorem exec_calReg (ra : Reg) (s : State) : exec (.calReg ra) s = complete (callTo (s.reg ra) s) := rfl

/-- Both calls are calls to some target. -/
theorem exec_call {call : Instr} {ra : Reg} {target : Word} (h : call = .calLit target ∨ call = .calReg ra) (s : State) :
    ∃ v, exec call s = complete (callTo v s) := by
  obtain rfl | rfl := h
  · exact ⟨target, exec_calLit target s⟩
  · exact ⟨s.reg ra, exec_calReg ra s⟩

section
variable {s t : State} {target : Word}

theorem callTo_accesses (target : Word) (s : State) : AccessesWords s s.frameAddress 10 10 (callTo target s) :=
  .bind_pure (pushFrame_accesses s)

theorem callTo_calledFrom (h : callTo target s = .ok t) : s.calledFrom t target := by
  obtain ⟨u, hu, h⟩ := Access.bind_ok.mp h
  cases h
  obtain ⟨hk, hsp, hfp, hregs, hsfs⟩ := pushFrame_ok hu
  exact ⟨by simp, by simpa using hsp, by simpa using hfp, fun r hip hsp hfp => by simp [hip, hregs r hsp hfp], hsfs,
    hk.run⟩

theorem callTo_writes (h : callTo target s = .ok t) :
    WordsWritten s t ((List.range 10).map fun k => (s.frameAddress k, s.frameWord k)) := by
  obtain ⟨u, hu, h⟩ := Access.bind_ok.mp h
  cases h
  obtain ⟨hk, hhi, hlo, hframe, hhist⟩ := pushFrame_writes hu
  exact ⟨hk.trans (Keeps.setReg _ _ _), hhi, hlo, hframe, hhist⟩

end

/-- Settles O52: both calls complete as a call to their target, the value of `ra` from before the pushes. -/
theorem callCompletesWhereItsWordsAreServed : Obligations.CallCompletesWhereItsWordsAreServed := by
  intro s ra target h
  have hcall : ∀ v, ∃ t, complete (callTo v s) = .next t ∧ s.calledFrom t v := fun v =>
    ((callTo_accesses v s).completes h).imp fun _ ht => ⟨complete_next.mpr ht, callTo_calledFrom ht⟩
  exact ⟨hcall target, hcall (s.reg ra)⟩

/-- Settles O54: whatever the target, a call faults at its first push that is not served. -/
theorem callFaultsAtItsFirstFailingPush : Obligations.CallFaultsAtItsFirstFailingPush := by
  intro s ra target k hk hserved hunserved
  have hcall : ∀ v, complete (callTo v s) = .fault (.fatal (s.wordError (s.frameAddress k))) := fun v =>
    congrArg complete ((callTo_accesses v s).faults k hk hserved hunserved)
  exact ⟨hcall target, hcall (s.reg ra)⟩

/-! ## What a call writes (R190, R196) -/

section
variable {s t : State} {k d x : Nat} {target : Word}

theorem lt_of_savedRegs {r : Reg} (h : savedRegs[k]? = some r) : k < 8 := (List.getElem?_eq_some_iff.mp h).1

theorem frameWord_of_savedRegs {r : Reg} (h : savedRegs[k]? = some r) : s.frameWord k = s.reg r := by
  simp [State.frameWord, h]

/-- Among words written at `n` places in turn, the ones before and after the `k`-th. -/
theorem range_map_split {α : Type} (f : Nat → α) {n : Nat} (hk : k < n) :
    ∃ before after, (List.range n).map f = before ++ f k :: after ∧ ∀ p ∈ after, ∃ j, k < j ∧ j < n ∧ p = f j := by
  obtain ⟨m, rfl⟩ := Nat.exists_eq_add_of_lt hk
  refine ⟨(List.range k).map f, (List.range m).map fun i => f (k + (i + 1)), ?_, fun p hp => ?_⟩
  · simp [Nat.add_assoc, List.range_add, List.range_succ_eq_map, Function.comp_def]
  · obtain ⟨i, hi, rfl⟩ := List.mem_map.mp hp
    have := List.mem_range.mp hi
    exact ⟨_, by omega, by omega, rfl⟩

/-- The two bytes of the `k`-th word of the frame, each unless a later word is routed over it. -/
theorem callTo_cells (h : callTo target s = .ok t) (hk : k < 10) (hl : s.locate (s.frameAddress k) = some (d, x))
    (hd : s.device d ≠ .peripheral) :
    ((∀ j, k < j → j < 10 → s.covers (s.frameAddress j) d x = false) → t.ramCell? d x = some (hiByte (s.frameWord k))) ∧
      ((∀ j, k < j → j < 10 → s.covers (s.frameAddress j) d (x + 1) = false) →
        t.ramCell? d (x + 1) = some (loByte (s.frameWord k))) := by
  obtain ⟨before, after, hsplit, hafter⟩ := range_map_split (fun k => (s.frameAddress k, s.frameWord k)) hk
  have hw := callTo_writes h
  have hlater : ∀ b, (∀ j, k < j → j < 10 → s.covers (s.frameAddress j) d b = false) →
      ∀ p ∈ after, s.covers p.1 d b = false := by
    intro b hb p hp
    obtain ⟨j, hkj, hj, rfl⟩ := hafter p hp
    exact hb j hkj hj
  exact ⟨fun hb => hw.hi _ _ _ _ hsplit d x hl hd (hlater _ hb), fun hb => hw.lo _ _ _ _ hsplit d x hl hd (hlater _ hb)⟩

theorem callTo_ramCell? (h : callTo target s = .ok t) {b : Nat}
    (hb : ∀ k, k < 10 → s.covers (s.frameAddress k) d b = false) : t.ramCell? d b = s.ramCell? d b := by
  refine (callTo_writes h).frame d b fun p hp => ?_
  obtain ⟨k, hk, rfl⟩ := List.mem_map.mp hp
  exact hb k (List.mem_range.mp hk)

theorem callTo_ramByte? (h : callTo target s = .ok t) {a : Nat}
    (ha : ∀ d x, s.locate a = some (d, x) → ∀ k, k < 10 → s.covers (s.frameAddress k) d x = false) :
    t.ramByte? a = s.ramByte? a := by
  unfold State.ramByte?
  rw [(callTo_writes h).keeps.locate]
  cases hl : s.locate a with
  | none => rfl
  | some p => exact callTo_ramCell? h (ha p.1 p.2 hl)

/-- A word access apart from another is routed to two bytes that the other does not meet. -/
theorem State.covers_of_apart {p q : Nat} (h : s.apart p q = true) (hl : s.locate p = some (d, x)) :
    s.covers q d x = false ∧ s.covers q d (x + 1) = false := by
  simpa [State.apart, hl] using h

/-- Where no two words of the frame have a byte in common, each is read back. -/
theorem callTo_frameWord (h : callTo target s = .ok t) (hframe : s.frameInRam) (hk : k < 10) :
    t.ramWord? (s.frameAddress k) = some (s.frameWord k) := by
  obtain ⟨hram, hapart⟩ := hframe
  obtain ⟨w, hw⟩ := Option.isSome_iff_exists.mp (hram k hk)
  obtain ⟨d, x, hl, hd, _, _⟩ := State.ramWord?_some hw
  obtain ⟨hhi, hlo⟩ := callTo_cells h hk hl hd
  have hclear := fun j hkj hj => State.covers_of_apart (hapart j hj k hkj) hl
  exact State.ramWord?_of_cells (((callTo_writes h).keeps.locate _).trans hl) (hhi fun j hkj hj => (hclear j hkj hj).1)
    (hlo fun j hkj hj => (hclear j hkj hj).2)

/-- A word apart from the frame stays. -/
theorem callTo_ramWord?_apart (h : callTo target s = .ok t) {a : Nat} {w : Word} (hw : s.ramWord? a = some w)
    (ha : ∀ k, k < 10 → s.apart a (s.frameAddress k) = true) : t.ramWord? a = some w := by
  obtain ⟨d, x, hl, _, hhi, hlo⟩ := State.ramWord?_some hw
  have hclear := fun k hk => State.covers_of_apart (ha k hk) hl
  exact State.ramWord?_of_cells (((callTo_writes h).keeps.locate a).trans hl)
    ((callTo_ramCell? h fun k hk => (hclear k hk).1).trans hhi)
    ((callTo_ramCell? h fun k hk => (hclear k hk).2).trans hlo)

end

/-- Settles O53: a call that answers a next state is a call to some target that completes, and writes its frame. -/
theorem callWritesItsFrame : Obligations.CallWritesItsFrame := by
  intro s t call ra target hcall h
  obtain ⟨v, hv⟩ := exec_call hcall s
  have ht := complete_next.mp (hv.symm.trans h)
  have hw := callTo_writes ht
  refine ⟨fun k r hr => frameWord_of_savedRegs hr, rfl, rfl, fun k d x hk hl hd => callTo_cells ht hk hl hd,
    fun d a ha => callTo_ramCell? ht ha, fun a ha => callTo_ramByte? ht ha, ?_, hw.keeps.regions, hw.keeps.nextToken,
    fun hframe k hk => callTo_frameWord ht hframe hk⟩
  rw [hw.history, List.filterMap_map]
  rfl

/-! ## The pops of a return (R191) -/

/-- The address of the `k`-th of the pops that start from `sp`, counted from 0 (44_stack.md R181). -/
def State.popAddressAt (s : State) (k : Nat) : Nat := (s.reg .sp + BitVec.ofNat 16 (2 + 2 * k)).toNat

/-- `t` is a state after `m` pops from `s` and writes of `sfs` and of registers other than `sp`: what later pops see of it. -/
structure Popped (m : Nat) (s t : State) : Prop where
  keeps : Keeps s t
  devices : t.devices = s.devices
  sp : t.reg .sp = s.reg .sp + BitVec.ofNat 16 (2 * m)

section
variable {s t : State} {m least most : Nat}

/-- A return's pops start from `fp`. -/
theorem popAddressAt_setReg_fp (s : State) : (s.setReg .sp (s.reg .fp)).popAddressAt = s.returnAddress := by
  funext k
  simp [State.popAddressAt, State.returnAddress]

theorem Popped.setReg (h : Popped m s t) {r : Reg} (v : Word) (hr : .sp ≠ r) : Popped m s (t.setReg r v) :=
  ⟨h.keeps.trans (Keeps.setReg _ _ _), h.devices, (State.reg_setReg_ne _ _ hr).trans h.sp⟩

theorem Popped.setSfs (h : Popped m s t) (v : Word) : Popped m s (t.setSfs v) :=
  ⟨h.keeps.trans (Keeps.setSfs _ _), h.devices, h.sp⟩

theorem Popped.pop {v : Word} (h : pop s = .ok (v, t)) : Popped 1 s t := by
  obtain ⟨hk, hsp, _, _, hd⟩ := pop_ok h
  exact ⟨hk, hd, hsp⟩

theorem Popped.popRegs {rs : List Reg} (hrs : .sp ∉ rs) (h : popRegs rs s = .ok t) : Popped rs.length s t := by
  obtain ⟨hk, hsp, _, _, hd⟩ := popRegs_ok hrs h
  exact ⟨hk, hd, hsp⟩

/-- The next pops are at the later addresses. -/
theorem Popped.popAddressAt (h : Popped m s t) : t.popAddressAt = fun k => s.popAddressAt (m + k) := by
  funext k
  rw [State.popAddressAt, State.popAddressAt, h.sp, add_assoc, ← BitVec.ofNat_add]
  congr 3
  omega

theorem Popped.ramWord? (h : Popped m s t) (k : Nat) :
    t.ramWord? (t.popAddressAt k) = s.ramWord? (s.popAddressAt (m + k)) := by
  rw [State.ramWord?_congr h.keeps.regions h.devices, h.popAddressAt]

/-- Pops, then pops from where they leave `sp`. -/
theorem AccessesWords.bind_popped {α β : Type} {x : Access α} {f : α → Access β} (state : α → State)
    (hx : AccessesWords s s.popAddressAt m m x)
    (hf : ∀ a, x = .ok a → Popped m s (state a) ∧
      AccessesWords (state a) (state a).popAddressAt least most (f a)) :
    AccessesWords s s.popAddressAt (m + least) (m + most) (x >>= f) := by
  refine hx.bind fun a ha => ?_
  obtain ⟨hp, hw⟩ := hf a ha
  rw [← hp.popAddressAt]
  exact hw.of_keeps hp.keeps

theorem pop_accesses (s : State) : AccessesWords s s.popAddressAt 1 1 (pop s) :=
  .single (fun h => Prod.exists.mpr (pop_served h)) pop_unserved

theorem popRegs_accesses {rs : List Reg} (hrs : .sp ∉ rs) (s : State) :
    AccessesWords s s.popAddressAt rs.length rs.length (popRegs rs s) :=
  ⟨popRegs_served hrs, fun _ => popRegs_unserved hrs⟩

theorem discardWords_accesses (n : Nat) (s : State) : AccessesWords s s.popAddressAt n n (discardWords n s) :=
  ⟨discardWords_served, fun _ => discardWords_unserved⟩

/-- `least` and `most` are bounds on the word that a read at `a` answers: on the word RAM holds there, or on every word
where RAM holds none. -/
def CountWithin (s : State) (a least most : Nat) : Prop :=
  ∀ w : Word, (∀ v, s.ramWord? a = some v → w = v) → least ≤ w.toNat ∧ w.toNat ≤ most

/-- Where RAM holds the count, both bounds are its value. -/
theorem countWithin_ram {a : Nat} {n : Word} (h : s.ramWord? a = some n) : CountWithin s a n.toNat n.toNat := by
  intro w hw
  rw [hw n h]
  exact ⟨le_rfl, le_rfl⟩

theorem CountWithin.mono {a least' : Nat} (h : CountWithin s a least most) (hl : least' ≤ least) :
    CountWithin s a least' most :=
  fun w hw => ⟨hl.trans (h w hw).1, (h w hw).2⟩

/-- Every word is below 65536. -/
theorem countWithin_any (s : State) (a : Nat) : CountWithin s a 0 65535 :=
  fun w _ => ⟨Nat.zero_le _, by omega⟩

/-- The count, the dropped words, and the write of `fp`. -/
theorem popCount_accesses (v : Word) (h : CountWithin s (s.popAddressAt 0) least most) :
    AccessesWords s s.popAddressAt (1 + least) (1 + most)
      (pop s >>= fun p => discardWords p.1.toNat p.2 >>= fun t => pure (t.setReg .fp v)) := by
  refine .bind_popped Prod.snd (pop_accesses s) fun ⟨n, t⟩ ht => ⟨.pop ht, ?_⟩
  obtain ⟨hleast, hmost⟩ := h n (memRead16_effect ht).1
  exact (AccessesWords.bind_pure (discardWords_accesses n.toNat t)).mono hleast hmost

/-- A return pops eleven words and then as many as the eleventh counts. -/
theorem popFrame_accesses (h : CountWithin s (s.returnAddress 10) least most) :
    AccessesWords s s.returnAddress (11 + least) (11 + most) (popFrame s) := by
  have hassoc : ∀ n, 11 + n = 1 + (1 + (8 + (1 + n))) := by omega
  rw [← popAddressAt_setReg_fp, hassoc least, hassoc most]
  refine .of_keeps (Keeps.setReg s .sp (s.reg .fp)) ?_
  refine .bind_popped (fun p => p.2.setSfs p.1) (pop_accesses _) fun ⟨marker, s₁⟩ h₁ => ?_
  have p₁ := (Popped.pop h₁).setSfs marker
  refine ⟨p₁, .bind_popped (fun p => p.2.setReg .ip p.1) (pop_accesses _) fun ⟨ret, s₂⟩ h₂ => ?_⟩
  have p₂ := (Popped.pop h₂).setReg (r := .ip) ret (by decide)
  refine ⟨p₂, .bind_popped id (popRegs_accesses (rs := savedRegs.reverse) (by decide) _) fun s₃ h₃ => ?_⟩
  have p₃ := Popped.popRegs (by decide) h₃
  have hcount : s₃.ramWord? (s₃.popAddressAt 0) = s.ramWord? (s.returnAddress 10) := by
    rw [← popAddressAt_setReg_fp]
    exact (p₃.ramWord? 0).trans ((p₂.ramWord? 8).trans (p₁.ramWord? 9))
  exact ⟨p₃, popCount_accesses (s := s₃) _ (by rwa [CountWithin, hcount])⟩

end

/-! ## What a return pops and restores (R191, R194) -/

/-- The words that a return into state `t` has popped, in the order of its pops: the marker, the values of `ip` and of `r8`
to `r1`, the count and the words it drops. -/
def State.returnWords (t : State) (marker nArgs : Word) (dropped : List Word) : List Word :=
  marker :: t.reg .ip :: savedRegs.reverse.map t.reg ++ nArgs :: dropped

/-- `t` is a state that a return from `s` leaves: each popped word is the one RAM holds or an event, and the rest follows
from the marker and the count. -/
structure ReturnedFrom (s t : State) (marker nArgs : Word) (dropped : List Word) : Prop where
  keeps : Keeps s t
  devices : t.devices = s.devices
  count : dropped.length = nArgs.toNat
  ram : ∀ k w v, (t.returnWords marker nArgs dropped)[k]? = some w → s.ramWord? (s.returnAddress k) = some v → w = v
  history : t.history = s.history ++ s.returnEvents (t.returnWords marker nArgs dropped)
  fp : t.reg .fp = s.reg .fp + marker
  sp : t.reg .sp = s.reg .fp + 22 + BitVec.ofNat 16 (2 * nArgs.toNat)
  sfs : t.sfs = marker - 20 - BitVec.ofNat 16 (2 * nArgs.toNat)
  acc : t.reg .acc = s.reg .acc

/-- A word access that RAM serves is no event. -/
theorem State.wordEvent?_ram {s : State} {a : Nat} {v : Word} (h : s.ramWord? a = some v)
    (kind : Nat → Nat → Word → Event) (w : Word) : s.wordEvent? kind a w = none := by
  obtain ⟨d, x, hl, hd, _, _⟩ := State.ramWord?_some h
  cases hdev : s.device d with
  | ram size cells => simp [State.wordEvent?, hl, hdev]
  | peripheral => exact absurd hdev hd

section
variable {s t : State} {marker nArgs : Word} {dropped : List Word}

theorem length_returnWords (t : State) (marker nArgs : Word) (dropped : List Word) :
    (t.returnWords marker nArgs dropped).length = 11 + dropped.length := by
  simp [State.returnWords, savedRegs]
  omega

theorem popFrame_returnedFrom (h : popFrame s = .ok t) :
    ∃ marker nArgs dropped, ReturnedFrom s t marker nArgs dropped := by
  obtain ⟨marker, nArgs, dropped, hcount, hread, hfp, hsp, hsfs, hacc⟩ := popFrame_reads h
  obtain ⟨hk, hd, hram, hhist⟩ := hread
  rw [popReads_returnAddress] at hram hhist
  refine ⟨marker, nArgs, dropped, hk, hd, hcount, fun k w v hw hv => ?_, ?_, hfp, hsp, hsfs, hacc⟩
  · exact hram (s.returnAddress k, w) (List.mem_map.mpr ⟨(w, k), List.mem_zipIdx_iff_getElem?.mpr hw, rfl⟩) v hv
  · rw [hhist, List.filterMap_map]
    rfl

/-- What holds of the first eleven pops and of the dropped words after them holds of all pops. -/
theorem forall_popped {P : Nat → Prop} {n : Nat} (hfirst : ∀ k, k < 11 → P k) (hdropped : ∀ j, j < n → P (11 + j)) :
    ∀ k, k < 11 + n → P k := by
  intro k hk
  by_cases hk' : k < 11
  · exact hfirst k hk'
  · obtain ⟨j, rfl⟩ := Nat.exists_eq_add_of_le (Nat.le_of_not_lt hk')
    exact hdropped j (Nat.lt_of_add_lt_add_left hk)

/-- A return completes where every word it can reach is served. -/
theorem exec_ret_completes {most : Nat} (hcount : CountWithin s (s.returnAddress 10) 0 most)
    (h : ∀ k, k < 11 + most → s.servesWord (s.returnAddress k) = true) :
    ∃ t marker nArgs dropped, exec .ret s = .next t ∧ ReturnedFrom s t marker nArgs dropped := by
  obtain ⟨t, ht⟩ := (popFrame_accesses hcount).completes h
  obtain ⟨marker, nArgs, dropped, hr⟩ := popFrame_returnedFrom ht
  exact ⟨t, marker, nArgs, dropped, complete_next.mpr ht, hr⟩

/-- Where RAM holds the first eleven words, the return restores from them. -/
theorem exec_ret_ram {word : Nat → Word} (hword : ∀ k, k < 11 → s.ramWord? (s.returnAddress k) = some (word k))
    (hdropped : ∀ j, j < (word 10).toNat → s.servesWord (s.returnAddress (11 + j)) = true) :
    ∃ t dropped, exec .ret s = .next t ∧ ReturnedFrom s t (word 0) (word 10) dropped ∧ t.reg .ip = word 1 ∧
      ∀ k r, savedRegs[k]? = some r → t.reg r = word (9 - k) := by
  have hcount := countWithin_ram (hword 10 (by omega))
  obtain ⟨t, marker, nArgs, dropped, ht, hr⟩ := exec_ret_completes (hcount.mono (Nat.zero_le _))
    (forall_popped (fun k hk => State.servesWord_of_ramWord? (hword k hk)) hdropped)
  have hpopped : ∀ k, k < 11 → ∀ w, (t.returnWords marker nArgs dropped)[k]? = some w → w = word k :=
    fun k hk w hw => hr.ram k w _ hw (hword k hk)
  obtain rfl : marker = word 0 := hpopped 0 (by omega) _ rfl
  obtain rfl : nArgs = word 10 := hpopped 10 (by omega) _ rfl
  refine ⟨t, dropped, ht, hr, hpopped 1 (by omega) _ rfl, fun k r hkr => hpopped (9 - k) (by omega) _ ?_⟩
  have hk := lt_of_savedRegs hkr
  obtain ⟨_, rfl⟩ := List.getElem?_eq_some_iff.mp hkr
  interval_cases k <;> rfl

/-- A return whose pops RAM serves all records no event. -/
theorem ReturnedFrom.history_ram (h : ReturnedFrom s t marker nArgs dropped)
    (hram : ∀ k, k < 11 + nArgs.toNat → ∃ w, s.ramWord? (s.returnAddress k) = some w) : t.history = s.history := by
  rw [h.history, State.returnEvents, List.filterMap_eq_nil_iff.mpr, List.append_nil]
  rintro ⟨w, k⟩ hp
  have hk := List.snd_lt_of_mem_zipIdx hp
  obtain ⟨v, hv⟩ := hram k (by simpa [length_returnWords, h.count] using hk)
  exact State.wordEvent?_ram hv _ _

end

/-- Settles O56: nothing bounds a count that a peripheral answers but its width. -/
theorem returnOverAnyDevices : Obligations.ReturnOverAnyDevices := by
  intro s h
  obtain ⟨most, hcount, hreach⟩ : ∃ most, CountWithin s (s.returnAddress 10) 0 most ∧
      ∀ k, k < 11 + most → ∀ n, 11 ≤ k → s.ramWord? (s.returnAddress 10) = some n → k < 11 + n.toNat := by
    cases hc : s.ramWord? (s.returnAddress 10) with
    | some n => exact ⟨n.toNat, (countWithin_ram hc).mono (Nat.zero_le _), fun k hk m _ e => by cases e; exact hk⟩
    | none => exact ⟨65535, countWithin_any s _, fun _ _ _ _ e => by cases e⟩
  obtain ⟨t, marker, nArgs, dropped, ht, hr⟩ := exec_ret_completes hcount fun k hk => h k (hreach k hk)
  exact ⟨t, marker, t.reg .ip, t.reg .r8, t.reg .r7, t.reg .r6, t.reg .r5, t.reg .r4, t.reg .r3, t.reg .r2, t.reg .r1,
    nArgs, dropped, t.returnWords marker nArgs dropped, ht, rfl, hr.count, hr.ram, hr.history, rfl, rfl, rfl, rfl, rfl,
    rfl, rfl, rfl, rfl, hr.fp, hr.sp, hr.sfs, hr.acc, hr.keeps.run, hr.keeps.regions, hr.keeps.nextToken, hr.devices,
    State.ramCell?_congr hr.devices⟩

/-- Settles O55: the eleven words are those popped, and as RAM serves every pop there is no event. -/
theorem returnFromRam : Obligations.ReturnFromRam := by
  intro s marker ret w8 w7 w6 w5 w4 w3 w2 w1 nArgs h0 h1 h2 h3 h4 h5 h6 h7 h8 h9 h10 hdropped
  have hword : ∀ k, k < 11 → s.ramWord? (s.returnAddress k) =
      some ([marker, ret, w8, w7, w6, w5, w4, w3, w2, w1, nArgs].getD k 0) := by
    intro k hk
    interval_cases k <;> assumption
  obtain ⟨t, dropped, ht, hr, hip, hsaved⟩ := exec_ret_ram hword fun j hj =>
    (hdropped j hj).elim fun _ => State.servesWord_of_ramWord?
  have hhistory := hr.history_ram (forall_popped (fun k hk => ⟨_, hword k hk⟩) hdropped)
  exact ⟨t, ht, hip, hsaved 7 .r8 rfl, hsaved 6 .r7 rfl, hsaved 5 .r6 rfl, hsaved 4 .r5 rfl, hsaved 3 .r4 rfl,
    hsaved 2 .r3 rfl, hsaved 1 .r2 rfl, hsaved 0 .r1 rfl, hr.acc, hr.sp, hr.fp, hr.sfs, hr.keeps.run, hr.keeps.regions,
    hr.keeps.nextToken, hhistory, hr.devices, State.ramCell?_congr hr.devices,
    State.ramByte?_congr hr.keeps.regions hr.devices⟩

/-- Settles O57: below the eleventh word no count matters, beyond it RAM holds the count. -/
theorem returnFaultsAtItsFirstFailingPop : Obligations.ReturnFaultsAtItsFirstFailingPop := by
  intro s k hserved hunserved hreach
  suffices herror : popFrame s = .error (s.wordError (s.returnAddress k)) from congrArg complete herror
  by_cases hk : k < 11
  · exact (popFrame_accesses (countWithin_any s _)).faults k hk hserved hunserved
  · obtain ⟨n, hn, hk⟩ := hreach (Nat.le_of_not_lt hk)
    exact (popFrame_accesses (countWithin_ram hn)).faults k hk hserved hunserved

/-! ## A call and then a return (R195 to R199) -/

section
variable {s t : State} {target : Word}

/-- From the `fp` of a call, a return pops the frame from its last word to its first. -/
theorem returnAddress_of_calledFrom (h : s.calledFrom t target) {k : Nat} (hk : k < 10) :
    t.returnAddress k = s.frameAddress (9 - k) := by
  obtain ⟨_, _, hfp, _⟩ := h
  rw [State.returnAddress, State.frameAddress, hfp]
  have := (s.reg .sp).isLt
  simp only [BitVec.toNat_add, BitVec.toNat_sub, BitVec.toNat_ofNat, show (20 : Word).toNat = 20 from rfl]
  omega

/-- Above the frame a return pops the word that the caller pushed last. -/
theorem returnAddress_of_calledFrom_count (h : s.calledFrom t target) : t.returnAddress 10 = popAddress s := by
  obtain ⟨_, _, hfp, _⟩ := h
  rw [State.returnAddress, popAddress, hfp]
  congr 1
  bv_omega

theorem callTo_inReferenceMap (h : callTo target s = .ok t) (hs : s.inReferenceMap) : t.inReferenceMap := by
  obtain ⟨hr, cells, hd⟩ := hs
  have hk := (callTo_writes h).keeps
  have hsize := hk.size 0
  rw [hd] at hsize
  refine ⟨hk.regions.trans hr, ?_⟩
  cases ht : t.device 0 with
  | ram size cells =>
    obtain rfl : size = addrSpace := by simpa [ht, deviceSize?] using hsize
    exact ⟨cells, rfl⟩
  | peripheral => simp [ht, deviceSize?] at hsize

/-- The eleven words that a return from a call's frame pops, the last one the caller's count. -/
def State.calledWord (s : State) (nArgs : Word) (k : Nat) : Word := if k < 10 then s.frameWord (9 - k) else nArgs

/-- Where RAM holds the frame and, apart from it, the count, a return finds them above the `fp` of the call. -/
theorem callTo_ramWord?_returnAddress {nArgs : Word} (h : callTo target s = .ok t) (hframe : s.frameInRam)
    (hcount : s.ramWord? (popAddress s) = some nArgs)
    (hapart : ∀ k, k < 10 → s.apart (popAddress s) (s.frameAddress k) = true) {k : Nat} (hk : k < 11) :
    t.ramWord? (t.returnAddress k) = some (s.calledWord nArgs k) := by
  have hcalled := callTo_calledFrom h
  by_cases hk' : k < 10
  · rw [returnAddress_of_calledFrom hcalled hk', State.calledWord, if_pos hk']
    exact callTo_frameWord h hframe (by omega)
  · obtain rfl : k = 10 := by omega
    rw [returnAddress_of_calledFrom_count hcalled]
    exact callTo_ramWord?_apart h hcount hapart

end

/-- Settles O58: the return pops the words the call wrote, and its arithmetic on the marker undoes the call's. -/
theorem calledFrameReturnsToItsCaller : Obligations.CalledFrameReturnsToItsCaller := by
  intro s call ra target nArgs hframe hcount hapart hcall
  obtain ⟨v, hv⟩ := exec_call hcall s
  obtain ⟨t, ht⟩ := (callTo_accesses v s).completes fun k hk =>
    (Option.isSome_iff_exists.mp (hframe.1 k hk)).elim fun _ => State.servesWord_of_ramWord?
  have hkeeps := (callTo_writes ht).keeps
  refine ⟨t, hv.trans (complete_next.mpr ht), hkeeps.regions, hkeeps.servesWord, callTo_inReferenceMap ht, ?_⟩
  intro c hfp hwords hdropped
  have haddress : c.returnAddress = t.returnAddress := by
    funext k
    rw [State.returnAddress, State.returnAddress, hfp]
  obtain ⟨u, dropped, hu, hr, hip, hsaved⟩ := exec_ret_ram (s := c) (word := s.calledWord nArgs)
    (fun k hk => by rw [haddress, hwords k hk, callTo_ramWord?_returnAddress ht hframe hcount hapart hk])
    (fun j hj => haddress ▸ hdropped j hj)
  obtain ⟨_, _, hcfp, _⟩ := callTo_calledFrom ht
  have hfp' : u.reg .fp = s.reg .sp + s.sfs := by
    rw [hr.fp, hfp, hcfp]
    change s.reg .sp - 20 + (s.sfs + 20) = _
    ring
  refine ⟨u, hu, fun r hm => ?_, hip, hr.acc, ?_, hfp', fun hexact => ?_, ?_⟩
  · obtain ⟨k, hk⟩ := List.getElem?_of_mem hm
    have hlt := lt_of_savedRegs hk
    rw [hsaved k r hk, State.calledWord, if_pos (by omega), show 9 - (9 - k) = k by omega, frameWord_of_savedRegs hk]
  · rw [hr.sp, hfp, hcfp]
    change s.reg .sp - 20 + 22 + BitVec.ofNat 16 (2 * nArgs.toNat) = _
    ring
  · rw [hfp', hexact]
    ring
  · rw [hr.sfs]
    change s.sfs + 20 - 20 - BitVec.ofNat 16 (2 * nArgs.toNat) = _
    ring

end Sys2Proof.Machine
end

section
/-! PROOFS for 46_halt_and_unknown.md: HLT writes the run state alone, and an unknown opcode asks for no operand, so that a
step on it is its opcode fetch. -/

namespace Sys2Proof.Machine

/-! ## HLT (R200) -/

theorem State.sameMemory_setRun (s : State) (v : RunState) : s.sameMemory (s.setRun v) :=
  ⟨s.setRun_regions v, s.setRun_nextToken v, s.setRun_history v, s.setRun_devices v, s.setRun_ramCell? v,
    s.setRun_ramByte? v⟩

/-- Settles O59: HLT is one write of the run state. -/
theorem hltHalts : Obligations.HltHalts :=
  fun s => ⟨s.setRun .halted, exec_hlt s, s.setRun_run .halted, s.setRun_reg .halted, s.setRun_sfs .halted,
    s.sameMemory_setRun .halted⟩

/-! ## The unknown opcode (R201) -/

theorem exec_unknownOpcode (b : Byte) (s : State) : exec (.unknownOpcode b) s = .next s := rfl

section
variable {s t : State} {b : Byte}

theorem fetch8_ip (h : fetch8 s = .ok (b, t)) : t.reg .ip = s.reg .ip + 1 := by
  obtain ⟨u, _, rfl⟩ := fetch8_ok h
  exact u.reg_setReg_same .ip _

/-- The fetch of an instruction whose opcode byte is unknown ends with the opcode: no operand is fetched (R102). -/
theorem fetchBytes_of_unknown (hf : fetch8 s = .ok (b, t)) (hb : config.opcodeMap.opOf? b = none) :
    fetchBytes s = .ok ([b], t) := by
  simp [fetchBytes, hf, OpcodeMap.fieldsOf_of_unknown hb, fetchFields]

theorem step_of_unknown (hr : s.run = .running) (hf : fetch8 s = .ok (b, t))
    (hb : config.opcodeMap.opOf? b = none) : step s = .next t :=
  (step_fetched hr (fetchBytes_of_unknown hf hb) (decode_of_unknown hb [])).trans (exec_unknownOpcode b t)

theorem fetch8_history_ram (hf : fetch8 s = .ok (b, t)) {c : Byte} (h : s.ramByte? (s.reg .ip).toNat = some c) :
    t.history = s.history := by
  cases hf.symm.trans (fetch8_ram h)
  exact s.setReg_history .ip _

end

/-- Settles O60: the step is its opcode fetch, and a fetch changes `ip` and, off RAM, the history alone. -/
theorem unknownOpcodeIsAOneByteNoOp : Obligations.UnknownOpcodeIsAOneByteNoOp := by
  refine ⟨exec_unknownOpcode, fun s t b hr hf hb => ?_⟩
  have hstep : step s = .next t := step_of_unknown hr hf (OpcodeMap.opOf?_eq_none.mpr hb)
  have hfetched : Fetched s t := fetch8_fetched hf
  have hrun : t.run = .running := hfetched.keeps.run.trans hr
  exact ⟨hstep, fetch8_ip hf, hfetched.reg, hfetched.sfs, hrun, hfetched.devices, hfetched.keeps.regions,
    fetch8_history_ram hf, by simp [hstep, hrun]⟩

end Sys2Proof.Machine
end

section
/-! PROOFS for 60_exceptions.md: the fault of a running step is an error of the bus; an address error names an address
of 16 bits but for the sum of MOV_LIT_OFF_REG; which opcode fetches and data moves fault, and what an unknown register
name raises. -/

namespace Sys2Proof.Machine

/-! ## The error of a running step (R210 to R212) -/

/-- An address is routed to the device of a region of the list. -/
theorem State.locate_mem {s : State} {a d x : Nat} (h : s.locate a = some (d, x)) : ∃ r ∈ s.regions, r.device = d := by
  cases hr : resolve s.regions a with
  | none => cases (State.locate_eq_none_iff.mpr hr).symm.trans h
  | some r =>
    refine ⟨r, List.mem_of_find?_eq_some hr, ?_⟩
    simp only [State.locate, hr, Option.some.injEq, Prod.mk.injEq] at h
    exact h.1

/-- Settles O12: the fault is an error of the bus, at an address without region or in the device of a region. -/
theorem runningFaultsAreBusErrors : Obligations.RunningFaultsAreBusErrors := by
  intro s f hr h
  obtain ⟨e, rfl, he⟩ := step_faultsByBus hr f h
  cases he with
  | unmapped hl => exact .inl ⟨_, rfl, State.locate_eq_none_iff.mp hl⟩
  | beyond hl hd hx =>
    obtain ⟨r, hmem, rfl⟩ := State.locate_mem hl
    exact .inr ⟨_, _, rfl, hx, r, hmem, hd⟩

/-! ## The address of an address error (R211)

Every access of a step is at an address of 16 bits, in any map, except the load of MOV_LIT_OFF_REG. -/

section
variable {s : State} {a b : Nat}

theorem memRead8_addressError (h : memRead8 a s = .error (.addressError b)) : b = a := by
  cases hl : s.locate a with
  | none => cases (memRead8_unmapped hl).symm.trans h; rfl
  | some p => cases (deviceGet8_error ((memRead8_routed hl).symm.trans h)).1

theorem memRead16_addressError (h : memRead16 a s = .error (.addressError b)) : b = a := by
  cases hl : s.locate a with
  | none => cases (memRead16_unmapped hl).symm.trans h; rfl
  | some p => cases (deviceGet16_error ((memRead16_routed hl).symm.trans h)).1

theorem memWrite16_addressError {v : Word} (h : memWrite16 a v s = .error (.addressError b)) : b = a := by
  cases hl : s.locate a with
  | none => cases (memWrite16_unmapped hl v).symm.trans h; rfl
  | some p => cases (deviceSet16_error ((memWrite16_routed hl v).symm.trans h)).1

end

/-- An address error of the accesses names an address of 16 bits. -/
def NamesWordAddress {α : Type} (x : Access α) : Prop := ∀ a, x = .error (.addressError a) → a ≤ 0xFFFF

theorem NamesWordAddress.ok {α : Type} (r : α) : NamesWordAddress (.ok r) := fun _ h => by cases h

theorem NamesWordAddress.bind {α β : Type} {x : Access α} {f : α → Access β} (hx : NamesWordAddress x)
    (hf : ∀ r, NamesWordAddress (f r)) : NamesWordAddress (x >>= f) := by
  intro a ha
  obtain ha | ⟨r, _, ha⟩ := Access.bind_error.mp ha
  · exact hx a ha
  · exact hf r a ha

theorem NamesWordAddress.bind_pure {α β : Type} {x : Access α} {f : α → β} (hx : NamesWordAddress x) :
    NamesWordAddress (x >>= fun r => pure (f r)) :=
  hx.bind fun r => .ok (f r)

theorem toNat_word_le (w : Word) : w.toNat ≤ 0xFFFF := Nat.le_of_lt_succ w.isLt

section
variable (w v : Word) (s : State)

theorem memRead8_namesWordAddress : NamesWordAddress (memRead8 w.toNat s) :=
  fun _ h => memRead8_addressError h ▸ toNat_word_le w

theorem memRead16_namesWordAddress : NamesWordAddress (memRead16 w.toNat s) :=
  fun _ h => memRead16_addressError h ▸ toNat_word_le w

theorem memWrite16_namesWordAddress : NamesWordAddress (memWrite16 w.toNat v s) :=
  fun _ h => memWrite16_addressError h ▸ toNat_word_le w

theorem fetch8_namesWordAddress : NamesWordAddress (fetch8 s) := .bind_pure (memRead8_namesWordAddress _ s)

theorem fetch16_namesWordAddress : NamesWordAddress (fetch16 s) := .bind_pure (memRead16_namesWordAddress _ s)

theorem fetchFields_namesWordAddress (fs : List Field) (s : State) : NamesWordAddress (fetchFields fs s) := by
  induction fs generalizing s with
  | nil => exact .ok _
  | cons f fs ih =>
    cases f with
    | reg => exact .bind (fetch8_namesWordAddress s) fun p => .bind_pure (ih p.2)
    | word => exact .bind (fetch16_namesWordAddress s) fun p => .bind_pure (ih p.2)

theorem fetchBytes_namesWordAddress : NamesWordAddress (fetchBytes s) :=
  .bind (fetch8_namesWordAddress s) fun p => .bind_pure (fetchFields_namesWordAddress _ p.2)

theorem push_namesWordAddress : NamesWordAddress (push v s) := .bind_pure (memWrite16_namesWordAddress _ v s)

theorem pop_namesWordAddress : NamesWordAddress (pop s) := memRead16_namesWordAddress _ _

theorem pushRegs_namesWordAddress (rs : List Reg) (s : State) : NamesWordAddress (pushRegs rs s) := by
  induction rs generalizing s with
  | nil => exact .ok _
  | cons r rs ih => exact .bind (push_namesWordAddress _ s) ih

theorem popRegs_namesWordAddress (rs : List Reg) (s : State) : NamesWordAddress (popRegs rs s) := by
  induction rs generalizing s with
  | nil => exact .ok _
  | cons r rs ih => exact .bind (pop_namesWordAddress s) fun _ => ih _

theorem discardWords_namesWordAddress (n : Nat) (s : State) : NamesWordAddress (discardWords n s) := by
  induction n generalizing s with
  | zero => exact .ok _
  | succ n ih => exact .bind (pop_namesWordAddress s) fun _ => ih _

theorem pushFrame_namesWordAddress : NamesWordAddress (pushFrame s) :=
  .bind (pushRegs_namesWordAddress _ s) fun _ => .bind (push_namesWordAddress _ _) fun _ =>
    .bind_pure (push_namesWordAddress _ _)

theorem popFrame_namesWordAddress : NamesWordAddress (popFrame s) :=
  .bind (pop_namesWordAddress _) fun _ => .bind (pop_namesWordAddress _) fun _ =>
    .bind (popRegs_namesWordAddress _ _) fun _ => .bind (pop_namesWordAddress _) fun _ =>
      .bind_pure (discardWords_namesWordAddress _ _)

theorem loadTo_namesWordAddress (rd : Reg) : NamesWordAddress (loadTo w.toNat rd s) :=
  .bind_pure (memRead16_namesWordAddress w s)

end

/-- The address that an outcome's address error names is one of 16 bits. -/
def FaultsAtWordAddress (o : Outcome State Fault Refusal) : Prop :=
  ∀ a, o = .fault (.fatal (.addressError a)) → a ≤ 0xFFFF

theorem FaultsAtWordAddress.next (t : State) : FaultsAtWordAddress (.next t) := fun _ h => by cases h

theorem complete_fatal {x : Access State} {e : FatalError} : complete x = .fault (.fatal e) ↔ x = .error e := by
  rw [complete_fault]
  simp

theorem FaultsAtWordAddress.complete {x : Access State} (h : NamesWordAddress x) : FaultsAtWordAddress (complete x) :=
  fun a ha => h a (complete_fatal.mp ha)

/-- Of all the instructions only MOV_LIT_OFF_REG can raise an address error at an address above 0xFFFF (D11). -/
theorem exec_faultsAtWordAddress {i : Instr} (s : State) (hi : ∀ base ro rd, i ≠ .movLitOffReg base ro rd) :
    FaultsAtWordAddress (exec i s) := by
  cases i with
  | movLitOffReg base ro rd => exact absurd rfl (hi base ro rd)
  | movLitReg | movRegReg => exact .next _
  | addRegReg | addLitReg | subRegReg | subLitReg | mulRegReg | mulLitReg => exact .next _
  | incReg | decReg | notReg => exact .next _
  | andRegLit | andRegReg | orRegLit | orRegReg | xorRegLit | xorRegReg => exact .next _
  | lsfRegLit | lsfRegReg | rsfRegLit | rsfRegReg => exact .next _
  | jneLit | jneReg | jeqLit | jeqReg | jltLit | jltReg | jgtLit | jgtReg | jleLit | jleReg | jgeLit | jgeReg =>
    exact .next _
  | movMemReg | movRegPtrReg => exact .complete (loadTo_namesWordAddress _ s _)
  | movRegMem | movLitMem => exact .complete (memWrite16_namesWordAddress _ _ s)
  | pshLit | pshReg => exact .complete (push_namesWordAddress _ s)
  | pop => exact .complete (.bind_pure (pop_namesWordAddress s))
  | calLit | calReg => exact .complete (.bind_pure (pushFrame_namesWordAddress s))
  | ret => exact .complete (popFrame_namesWordAddress s)
  | hlt | unknownOpcode => exact .next _

theorem exec_movLitOffReg_addressError {base : Word} {ro rd : Reg} {s : State} {a : Nat}
    (h : exec (.movLitOffReg base ro rd) s = .fault (.fatal (.addressError a))) : a = offsetAddress base ro s :=
  memRead16_addressError (loadTo_error.mp (complete_fatal.mp h))

/-- A running step whose address error names an address above 0xFFFF is one of MOV_LIT_OFF_REG, at its sum. -/
theorem step_addressError_above {s : State} {a : Nat} (hr : s.run = .running) (ha : 0xFFFF < a)
    (h : step s = .fault (.fatal (.addressError a))) :
    ∃ bytes t base ro rd, fetchBytes s = .ok (bytes, t) ∧ decode bytes = .ok (.movLitOffReg base ro rd, []) ∧
      a = offsetAddress base ro t := by
  obtain ⟨e, hf, hs⟩ | ⟨bytes, t, i, hf, hd, hs⟩ := step_cases hr
  · cases hs.symm.trans h
    exact absurd (fetchBytes_namesWordAddress s a hf) (Nat.not_le_of_lt ha)
  · have hexec := hs.symm.trans h
    by_cases hi : ∃ base ro rd, i = .movLitOffReg base ro rd
    · obtain ⟨base, ro, rd, rfl⟩ := hi
      exact ⟨bytes, t, base, ro, rd, hf, hd, exec_movLitOffReg_addressError hexec⟩
    · have hne : ∀ base ro rd, i ≠ .movLitOffReg base ro rd := fun base ro rd e => hi ⟨base, ro, rd, e⟩
      exact absurd (exec_faultsAtWordAddress t hne a hexec) (Nat.not_le_of_lt ha)

/-- The reference map leaves no address of 16 bits out. -/
theorem State.inReferenceMap.address_error {s : State} (h : s.inReferenceMap) {a : Nat}
    (he : BusError s (.addressError a)) : 0xFFFF < a := by
  cases he with
  | unmapped hl =>
    by_contra hle
    cases hl.symm.trans ((h.locate_eq a).trans (if_pos (Nat.le_of_not_lt hle)))

/-- A base plus a register is at most twice the greatest word. -/
theorem offsetAddress_le (base : Word) (ro : Reg) (s : State) : offsetAddress base ro s ≤ 0x1FFFE :=
  Nat.add_le_add (toNat_word_le base) (toNat_word_le (s.reg ro))

/-- Settles O13: in the reference map an address error is above 0xFFFF, which only the sum of MOV_LIT_OFF_REG can be. -/
theorem referenceMapAddressErrors : Obligations.ReferenceMapAddressErrors := by
  intro s a hs hr h
  obtain ⟨e, hf, he⟩ := step_faultsByBus hr _ h
  cases hf
  have habove : 0xFFFF < a := hs.address_error he
  obtain ⟨bytes, t, base, ro, rd, hfetch, hd, rfl⟩ := step_addressError_above hr habove h
  exact ⟨habove, offsetAddress_le base ro t, bytes, t, base, ro, rd, hfetch, hd, rfl⟩

/-! ## Opcode fetches and data moves that are not served (R211 to R213) -/

theorem deviceGet8_beyond {s : State} {d x size : Nat} {cells : Memory} (hd : s.device d = .ram size cells)
    (hx : size ≤ x) : deviceGet8 d x s = .error (.deviceRangeError x) := by
  simp [deviceGet8, hd, hx]

/-- A running step whose opcode byte the bus does not serve raises the error of that read. -/
theorem step_opcode_error {s : State} {e : FatalError} (hr : s.run = .running)
    (h : memRead8 (s.reg .ip).toNat s = .error e) : step s = .fault (.fatal e) :=
  step_fetch_error hr (Access.bind_error.mpr (.inl (fetch8_of_error h)))

/-- Settles O15: the first access of a step is the read of its opcode byte. -/
theorem opcodeFetchFaults : Obligations.OpcodeFetchFaults := by
  refine fun s hr => ⟨fun hnone => ?_, fun d x size cells hl hd hx => ?_⟩
  · exact step_opcode_error hr (memRead8_unmapped (State.locate_eq_none_iff.mpr hnone))
  · exact step_opcode_error hr ((memRead8_routed hl).trans (deviceGet8_beyond hd hx))

section
variable {s : State} {a : Nat}

theorem complete_storeAt_unserved (h : s.servesWord a = false) (v : Word) :
    complete (storeAt a v s) = .fault (.fatal (s.wordError a)) :=
  complete_fatal.mpr (memWrite16_unserved h)

theorem complete_loadTo_unserved (h : s.servesWord a = false) (rd : Reg) :
    complete (loadTo a rd s) = .fault (.fatal (s.wordError a)) :=
  complete_fatal.mpr (loadTo_error.mpr (memRead16_unserved h))

end

/-- Settles O41: each data move is one store or one load at its address. -/
theorem unservedDataAccessesFault : Obligations.UnservedDataAccessesFault :=
  fun s rd rp lit _ =>
    ⟨fun habs => ⟨complete_storeAt_unserved habs (s.reg rp), complete_storeAt_unserved habs lit,
        complete_loadTo_unserved habs rd⟩,
      fun hptr => complete_loadTo_unserved hptr rd, fun hoff => complete_loadTo_unserved hoff rd⟩

/-! ## Unknown register names (R215) -/

theorem regOfName_eq_none {name : String} (h : ∀ r, name ≠ regName r) : regOfName name = none := by
  unfold regOfName
  exact (if_neg (h .ip)).trans <| (if_neg (h .acc)).trans <| (if_neg (h .r1)).trans <| (if_neg (h .r2)).trans <|
    (if_neg (h .r3)).trans <| (if_neg (h .r4)).trans <| (if_neg (h .r5)).trans <| (if_neg (h .r6)).trans <|
    (if_neg (h .r7)).trans <| (if_neg (h .r8)).trans <| (if_neg (h .sp)).trans <| if_neg (h .fp)

/-- Settles O34: such a name selects no register, for a read and for a write. -/
theorem unknownRegisterNamesAreErrors : Obligations.UnknownRegisterNamesAreErrors := by
  intro s name v h
  have hnone : regOfName name = none := regOfName_eq_none h
  exact ⟨by simp [getRegister, hnone], by simp [setRegister, hnone]⟩

end Sys2Proof.Machine
end

section
/-! PROOFS for 70_reset_and_hazards.md: what an image leaves in a RAM device, no step from a terminal state, and how a
bounded run ends. -/

namespace Sys2Proof.Machine

/-! ## Loading an image (R232) -/

/-- The list after bytes are stored at an address and the addresses after it: what loading an image makes of the bytes
of a RAM device (`loadImage_ram`). -/
def Memory.writeBytes : Memory → Nat → List Byte → Memory
  | m, _, [] => m
  | m, a, b :: bs => Memory.writeBytes (m.write a b) (a + 1) bs

/-- The addresses outside the stored bytes read as before. -/
theorem Memory.read_writeBytes_outside {m : Memory} {a x : Nat} {bs : List Byte} (h : ¬(a ≤ x ∧ x < a + bs.length)) :
    (m.writeBytes a bs).read x = m.read x := by
  induction bs generalizing m a with
  | nil => rfl
  | cons b bs ih =>
    rw [List.length_cons] at h
    have hx : x ≠ a := by omega
    exact (ih (by omega)).trans (Memory.read_write_ne m b hx)

/-- Each stored byte is read at its place. -/
theorem Memory.read_writeBytes_inside {m : Memory} {a k : Nat} {bs : List Byte} {b : Byte} (h : bs[k]? = some b) :
    (m.writeBytes a bs).read (a + k) = b := by
  induction bs generalizing m a k with
  | nil => cases h
  | cons c bs ih =>
    cases k with
    | zero =>
      obtain rfl : c = b := Option.some.inj h
      have hout : ¬(a + 1 ≤ a ∧ a < a + 1 + bs.length) := by omega
      exact (Memory.read_writeBytes_outside hout).trans (Memory.read_write_same m a c)
    | succ k =>
      rw [← Nat.succ_add_eq_add_succ]
      exact ih h

theorem State.setCells_setCells (s : State) (d size : Nat) (old new : Memory) :
    (s.setCells d size old).setCells d size new = s.setCells d size new := by
  simp [State.setCells]

theorem State.setCells_self {s : State} {d size : Nat} {cells : Memory} (hd : s.device d = .ram size cells) :
    s.setCells d size cells = s := by
  have hl : d < s.devices.length := State.device_ram_lt hd
  have hg : s.devices[d] = .ram size cells := by simpa [State.device, hl] using hd
  simp [State.setCells, ← hg]

theorem deviceSet8_ram {s : State} {d a size : Nat} {cells : Memory} (v : Byte) (hd : s.device d = .ram size cells)
    (ha : a < size) : deviceSet8 d a v s = .ok (s.setCells d size (cells.write a v)) := by
  simp [deviceSet8, hd, ha]

/-- An image that fits replaces the bytes of its device, and completes. -/
theorem loadImage_ram {bs : List Byte} {s : State} {d a size : Nat} {cells : Memory}
    (hd : s.device d = .ram size cells) (hfit : a + bs.length ≤ size) :
    loadImage d bs a s = .ok (s.setCells d size (cells.writeBytes a bs)) := by
  induction bs generalizing s a cells with
  | nil => exact congrArg Except.ok (State.setCells_self hd).symm
  | cons b bs ih =>
    rw [List.length_cons] at hfit
    have hd' : (s.setCells d size (cells.write a b)).device d = .ram size (cells.write a b) := by
      simp [State.setCells_device, State.device_ram_lt hd]
    rw [loadImage, deviceSet8_ram b hd (by omega), Access.ok_bind, ih hd' (by omega), State.setCells_setCells]
    rfl

/-- Settles O35: the loaded device reads as its bytes with the image stored over them. -/
theorem loadedImageIsRead : Obligations.LoadedImageIsRead := by
  intro bs s d a size cells hd hfit
  refine ⟨_, loadImage_ram hd hfit, fun k b hb => ?_, fun d' x hx => ?_, fun _ => rfl, rfl, rfl, rfl, rfl⟩
  · obtain ⟨hk, _⟩ := List.getElem?_eq_some_iff.mp hb
    have hlt : a + k < size := by omega
    simp [State.ramCell?_setCells hd, hlt, Memory.read_writeBytes_inside hb]
  · rw [State.ramCell?_setCells hd]
    by_cases hdev : d' = d
    · subst hdev
      have hout : ¬(a ≤ x ∧ x < a + bs.length) := fun hin => hx ⟨rfl, hin⟩
      simp [State.ramCell?, hd, Memory.read_writeBytes_outside hout]
    · simp [hdev]

/-! ## Terminal states (R236) -/

theorem step_halted {s : State} (h : s.run = .halted) : step s = .fault .stuckHalted := by
  simp [step, h]

theorem step_faulted {s : State} {e : FatalError} (h : s.run = .faulted e) : step s = .fault (.stuckFaulted e) := by
  simp [step, h]

/-- Settles O10: each terminal state has its stuck fault, so only a running state has a next one. -/
theorem noStepFromATerminalState : Obligations.NoStepFromATerminalState :=
  ⟨fun _ => step_halted, fun _ _ => step_faulted, fun _ _ => step_next_running⟩

/-! ## Bounded runs (R237) -/

section
variable {n : Nat} {s t : State}

theorem runFor_succ_of_running (h : step s = .next t) (ht : t.run = .running) : runFor (n + 1) s = runFor n t := by
  simp [runFor, h, ht]

theorem runFor_succ_of_halted (h : step s = .next t) (ht : t.run = .halted) : runFor (n + 1) s = .halted t := by
  simp [runFor, h, ht]

theorem runFor_succ_of_fault {f : Fault} (h : step s = .fault f) : runFor (n + 1) s = .faulted f := by
  simp [runFor, h]

end

/-- Settles O26, by induction on the bound: a step leads to a running state and the rest of the run, or ends the run. -/
theorem boundedRunEndsInThreeWays : Obligations.BoundedRunEndsInThreeWays := by
  intro n
  induction n with
  | zero => exact fun s hr => .inr (.inr ⟨s, rfl, hr⟩)
  | succ n ih =>
    intro s hr
    obtain ⟨t, hs, ht⟩ | ⟨t, hs, ht⟩ | ⟨e, hs⟩ := step_outcome hr
    · rw [runFor_succ_of_running hs ht]
      exact ih t ht
    · exact .inl ⟨t, runFor_succ_of_halted hs ht, ht⟩
    · exact .inr (.inl ⟨e, runFor_succ_of_fault hs⟩)

end Sys2Proof.Machine
end
